-- ==== Sys2Proof/Word.lean ====
section
/-! DEFINITION. The bit vectors of the Ogg CRC-32 / page parser block: the byte (spec rule R54), the
16-bit command word (R70) and the 32-bit accumulator and read-port word (R25, R41). All values are
unsigned bit vectors, bit 0 the least significant (R9). -/

namespace Sys2Proof

/-- The addressable unit, 8 bits (R54). -/
abbrev Byte := BitVec 8

/-- A command word, and the width of the counters `idx` and `pay_len` (R70, R23, R29). -/
abbrev Half := BitVec 16

/-- The accumulator, the 32-bit header views and the read-port views (R25, R27, R41). -/
abbrev Word := BitVec 32

end Sys2Proof
end

