-- ==== Sys2Proof/Syntax.lean ====
section
/-! DEFINITION. The seven commands of the block (R71), and the one command format, C (R70). -/

namespace Sys2Proof

/-- The instructions, one constructor per row of the opcode table. The only operand of any command
is `arg`, an unsigned byte used as it stands (R72). -/
inductive Instr where
  /-- NOP (R160). -/
  | nop
  /-- RESET (R161). -/
  | reset
  /-- NEXT (R162). -/
  | next
  /-- CRC.CLR (R108). -/
  | crcClr
  /-- CRC.ABS b (R109). -/
  | crcAbs (b : Byte)
  /-- BYTE b (R121). -/
  | byte (b : Byte)
  /-- EOS (R135). -/
  | eos
  deriving DecidableEq, Repr

/-- The two fields of format C (R70): `op` is bits 15..8 of the word, `arg` bits 7..0. -/
structure FormatC where
  op : Byte
  arg : Byte
  deriving DecidableEq, Repr

end Sys2Proof
end

