-- ==== Sys2Proof/WellFormed.lean ====
section
/-! DEFINITION. Which format C fields are a command (R73), stated apart from the decoder so that the
two can be compared. A term of `Instr` carries its operand as a byte and no other field, so every
term of `Instr` is well formed; what can be ill formed is a command word. -/

namespace Sys2Proof

/-- R73 (a): `op` is one of the seven opcodes of R71. -/
def FormatC.opcodeDefined (f : FormatC) : Bool :=
  [0x00#8, 0x01#8, 0x02#8, 0x10#8, 0x11#8, 0x20#8, 0x21#8].contains f.op

/-- R73 (b): NOP, RESET, NEXT, CRC.CLR and EOS take no operand, so their `arg` is `0x00`. -/
def FormatC.operandAllowed (f : FormatC) : Bool :=
  !([0x00#8, 0x01#8, 0x02#8, 0x10#8, 0x21#8].contains f.op && f.arg != 0x00#8)

/-- The fields are those of one of the seven commands; every other word is illegal (R73). -/
def FormatC.wf (f : FormatC) : Bool :=
  f.opcodeDefined && f.operandAllowed

end Sys2Proof
end

