-- ==== Sys2Proof/Decode.lean ====
section
/-! DEFINITION. The command decoder, total on every 16-bit word, and the encoder (R70, R71, R73, R75). -/

namespace Sys2Proof

/-- Bits 15..8 of a command word (R70). -/
def opField (w : Half) : Byte := w.extractLsb' 8 8

/-- Bits 7..0 of a command word (R70). -/
def argField (w : Half) : Byte := w.extractLsb' 0 8

/-- The fields of a word, read from fixed positions (R70). -/
def formatOf (w : Half) : FormatC := { op := opField w, arg := argField w }

/-- Why a word is illegal: the two cases of R73. -/
inductive DecodeError where
  /-- R73 (a): the opcode is none of the seven. -/
  | undefinedOpcode (op : Byte)
  /-- R73 (b): the command takes no operand and `arg` is not `0x00`. -/
  | operandNotZero (op arg : Byte)
  deriving DecidableEq, Repr

/-- A command that takes no operand: legal only with `arg = 0x00` (R71, R73). -/
def withoutOperand (i : Instr) (f : FormatC) : Except DecodeError Instr :=
  if f.arg = 0x00#8 then .ok i else .error (.operandNotZero f.op f.arg)

/-- The opcode map of R71 on the fields of a word. -/
def decodeFormat (f : FormatC) : Except DecodeError Instr :=
  if f.op = 0x00#8 then withoutOperand .nop f
  else if f.op = 0x01#8 then withoutOperand .reset f
  else if f.op = 0x02#8 then withoutOperand .next f
  else if f.op = 0x10#8 then withoutOperand .crcClr f
  else if f.op = 0x11#8 then .ok (.crcAbs f.arg)
  else if f.op = 0x20#8 then .ok (.byte f.arg)
  else if f.op = 0x21#8 then withoutOperand .eos f
  else .error (.undefinedOpcode f.op)

/-- Decoding of a command word. There is one length and no mode that changes decoding (R70, R75). -/
def decode (w : Half) : Except DecodeError Instr := decodeFormat (formatOf w)

/-- The `op` field of each command (R71). -/
def opcodeOf : Instr → Byte
  | .nop => 0x00#8
  | .reset => 0x01#8
  | .next => 0x02#8
  | .crcClr => 0x10#8
  | .crcAbs _ => 0x11#8
  | .byte _ => 0x20#8
  | .eos => 0x21#8

/-- The `arg` field of each command: its operand byte, or `0x00` (R71, R72). -/
def operandOf : Instr → Byte
  | .nop => 0x00#8
  | .reset => 0x00#8
  | .next => 0x00#8
  | .crcClr => 0x00#8
  | .crcAbs b => b
  | .byte b => b
  | .eos => 0x00#8

/-- The word of an instruction, `{op, arg}` (R70, R85). -/
def encode (i : Instr) : Half := opcodeOf i ++ operandOf i

/-- One row of the opcode map: a word selects the row with `w & mask == match` (R71). -/
structure OpcodeRow where
  mnemonic : String
  pattern : Half
  mask : Half
  deriving DecidableEq, Repr

/-- The opcode map of R71, row by row. -/
def opcodeMap : List OpcodeRow :=
  [ { mnemonic := "NOP", pattern := 0x0000#16, mask := 0xFFFF#16 },
    { mnemonic := "RESET", pattern := 0x0100#16, mask := 0xFFFF#16 },
    { mnemonic := "NEXT", pattern := 0x0200#16, mask := 0xFFFF#16 },
    { mnemonic := "CRC.CLR", pattern := 0x1000#16, mask := 0xFFFF#16 },
    { mnemonic := "CRC.ABS", pattern := 0x1100#16, mask := 0xFF00#16 },
    { mnemonic := "BYTE", pattern := 0x2000#16, mask := 0xFF00#16 },
    { mnemonic := "EOS", pattern := 0x2100#16, mask := 0xFFFF#16 } ]

/-- The rows a word selects (R71). -/
def selectedRows (w : Half) : List OpcodeRow :=
  opcodeMap.filter fun r => w &&& r.mask == r.pattern

/-- The name of an instruction, as R71 spells it. -/
def mnemonic : Instr → String
  | .nop => "NOP"
  | .reset => "RESET"
  | .next => "NEXT"
  | .crcClr => "CRC.CLR"
  | .crcAbs _ => "CRC.ABS"
  | .byte _ => "BYTE"
  | .eos => "EOS"

/-- The command word that a row of the opcode table stands for: `nbits` bits of `w`, those above
them zero. A command is one 16-bit word (R75), so a longer row would begin with its low 16 bits. -/
def tableWord (nbits w : Nat) : Half := BitVec.ofNat 16 (w % 2 ^ nbits)

/-- What the decoder reads from a word numbered as `spec/opcode_table.json` numbers it. -/
def decodeTableWord (nbits w : Nat) : Option Instr := (decode (tableWord nbits w)).toOption

end Sys2Proof
end

