-- ==== Sys2Proof/Config.lean ====
section
/-! DEFINITION. The configuration of the block: the parameters that the spec leaves open (R6), each
constant for the life of the block and written by no command (R34). There is no free value in this
model: the spec leaves no result open (93_implementation_defined.md, Part 1). -/

namespace Sys2Proof

/-- The two parameters of rule R6. They are fixed before reset is released (R203). -/
structure Config where
  /-- P_MAGIC: compared with the little-endian view of header bytes 0..3. -/
  pMagic : Word
  /-- P_VERSION_CHECK: whether the parser tests the page's version byte. -/
  pVersionCheck : Bool
  deriving DecidableEq, Repr

/-- The spec's defaults (R6): the bytes `4F 67 67 53` in stream order, and no version test. -/
def Config.default : Config := { pMagic := 0x5367674F#32, pVersionCheck := false }

end Sys2Proof
end

