-- ==== Sys2Proof/Machine/State.lean ====
section
/-! DEFINITION. The state of the block, field by field as rule R20 lists it, with the two things
that the model's step function needs beside it: the configuration (R34) and the words and reset
pulses that the host has yet to present (R8, R68). -/

namespace Sys2Proof.Machine

/-- `phase`, the parser's major state (R21). Code 6 is reserved: no rule takes it, and the spec says
that a model need not represent it. -/
inductive Phase where
  /-- 0: between pages; also the state after reset. -/
  | idle
  /-- 1: inside the 27-byte page header. -/
  | hdr
  /-- 2: inside the segment table. -/
  | seg
  /-- 3: inside the payload. -/
  | pay
  /-- 4: a page has been accepted and is held for the host. -/
  | done
  /-- 5 (END): clean end-of-stream has been reached. -/
  | ended
  /-- 7: a fault has been taken; `err` says which. -/
  | err
  deriving DecidableEq, Repr

/-- The error codes, the values of `err` (R170). Code 7 is reserved and never written. -/
inductive ErrCode where
  /-- 0: no fault. -/
  | none
  /-- 1: `magic` differs from P_MAGIC (R171). -/
  | invalidSignature
  /-- 2: a nonzero version byte under P_VERSION_CHECK (R172). -/
  | unsupportedVersion
  /-- 3: the checksum differs from the stored one (R173). -/
  | crcMismatch
  /-- 4: a continued or multi-packet page (R174). -/
  | unsupportedPage
  /-- 5: EOS inside a page (R175). -/
  | shortRead
  /-- 6: an illegal word, or a command not allowed in the phase (R176). -/
  | illegalCmd
  deriving DecidableEq, Repr

/-- The three byte spaces of the block (R50 to R53). -/
inductive Space where
  | hdr
  | seg
  | pay
  deriving DecidableEq, Repr

/-- Why a step stops. The block's own faults are states (phase ERR, R180), not stops: no command
stops the block in a state that a run can reach (R211). -/
inductive Fault where
  /-- A block-side write at an index that its space does not have (R50, R60). Raised by `State.storeByte` only, in states that no run reaches. Safe. -/
  | noSuchByte (space : Space) (index : Nat)
  deriving DecidableEq, Repr

/-- Why a read of the host is refused (R60, R62), and the refusal of an unmodelled instruction. -/
inductive Refusal where
  /-- An instruction without a meaning: no arm of `exec` answers it in this model. Safe. -/
  | notModelled (mnemonic : String)
  /-- A host read of one of the selectors 0xB..0xF (R41; U4). Raised by the read port only. Safe. -/
  | reservedSelector (sel : BitVec 4)
  /-- A host read at an index outside its space (R60; U4). Raised by the read port only. Safe. -/
  | indexOutOfRange (space : Space) (index : Nat)
  /-- A host read of a byte that no step has written since hardware reset (R62; U1). Raised by the
  read port only. Safe. -/
  | neverWritten (space : Space) (index : Nat)
  deriving DecidableEq, Repr

/-- The contents of a buffer: (index, byte) pairs, indices strictly rising. An index that is not
listed holds no value (R43, R62; U1). -/
abbrev Memory := List Host.Cell

/-- What the outside world presents to the block, one thing at a time and between steps (R8, R63,
R184): a command word, or a pulse of the hardware reset input (R200). -/
inductive HostInput where
  | command (w : Half)
  | hardwareReset
  deriving DecidableEq, Repr

/-- The block's state (R20), with the step's environment beside it. -/
structure State where
  /-- The parser's major state, 3 bits (R21). -/
  phase : Phase
  /-- The error code of the first fault, 3 bits (R22). -/
  err : ErrCode
  /-- The position inside the current phase, 16 bits (R23); with `phase` the sequencer, this
  hardware's program counter (R24). -/
  idx : Half
  /-- The CRC accumulator, 32 bits (R25). -/
  acc : Word
  /-- The captured page header, 27 byte registers (R26). -/
  hdr : Vector Byte 27
  /-- The running sum of the segment table, 16 bits (R29). -/
  payLen : Half
  /-- The number of terminated packets in the table so far, 8 bits (R30). -/
  npktDone : Byte
  /-- Whether the last table entry consumed was 255, 1 bit (R30). -/
  laceOpen : Bool
  /-- The captured segment table, 255 bytes (R32). -/
  seg : Memory
  /-- The captured payload, 65025 bytes (R33). -/
  pay : Memory
  /-- The configuration: not state (R34), but an argument of the step; no rule writes it. -/
  cfg : Config
  /-- The model's own field, not the block's (R35): what the host will present, in order. -/
  inputs : List HostInput
  deriving DecidableEq, Repr

/-- The state after hardware reset (R43, R201), with the default configuration (R6) and nothing
presented yet. The buffers hold no specified byte (R43). -/
def State.reset : State where
  phase := .idle
  err := .none
  idx := 0#16
  acc := 0x00000000#32
  hdr := Vector.replicate 27 0x00#8
  payLen := 0#16
  npktDone := 0#8
  laceOpen := false
  seg := []
  pay := []
  cfg := Config.default
  inputs := []

end Sys2Proof.Machine
end

