-- ==== Sys2Proof/Machine/Operands.lean ====
section
/-! DEFINITION. The operand form of the commands and the forms in which the parser reads the bytes it
captured: zero-extension (R9, R72), little-endian assembly (R10, R55, R77) and the named views of the
header (R27). There are no register operands, immediates or addressing modes (R72). -/

namespace Sys2Proof.Machine

/-- `zext_16` of a byte (R10). -/
def zext16 (b : Byte) : Half := b.setWidth 16

/-- `zext_32` of a byte (R10). -/
def zext32 (b : Byte) : Word := b.setWidth 32

/-- The value of a byte sequence read little-endian: the byte at the lowest offset is the least
significant (R55, R77). -/
def leNat : List Byte → Nat
  | [] => 0
  | b :: bs => b.toNat + 256 * leNat bs

/-- `n` bytes of a value, least significant first: the inverse of `leNat` (R55). -/
def leBytes : Nat → Nat → List Byte
  | 0, _ => []
  | n + 1, v => BitVec.ofNat 8 v :: leBytes n (v / 256)

/-- `le(a, n)`: little-endian assembly of `n` header bytes from offset `a` (R10). -/
def le (h : Vector Byte 27) (a n : Nat) : Nat := leNat ((h.toList.drop a).take n)

namespace State

/-- `hdr[i]` (R26). -/
def hdrAt (s : State) (i : Fin 27) : Byte := s.hdr[i]

/-- `magic` = `le(0, 4)` (R27). -/
def magic (s : State) : Word := BitVec.ofNat 32 (le s.hdr 0 4)

/-- `version` = `hdr[4]` (R27). -/
def version (s : State) : Byte := s.hdrAt 4

/-- `flags` = `hdr[5]` (R27). -/
def flags (s : State) : Byte := s.hdrAt 5

/-- `granule` = `le(6, 8)` (R27). -/
def granule (s : State) : BitVec 64 := BitVec.ofNat 64 (le s.hdr 6 8)

/-- `serial` = `le(14, 4)` (R27). -/
def serial (s : State) : Word := BitVec.ofNat 32 (le s.hdr 14 4)

/-- `seqno` = `le(18, 4)` (R27). -/
def seqno (s : State) : Word := BitVec.ofNat 32 (le s.hdr 18 4)

/-- `crc_stored` = `le(22, 4)` (R27, R56). -/
def crcStored (s : State) : Word := BitVec.ofNat 32 (le s.hdr 22 4)

/-- `nseg` = `hdr[26]` (R27). -/
def nseg (s : State) : Byte := s.hdrAt 26

end State

end Sys2Proof.Machine
end

