-- ==== Sys2Proof/Machine/Crc.lean ====
section
/-! DEFINITION. The CRC engine's arithmetic: the byte step (R101), its table form (R102) and the
checksum of a byte sequence (R103). Pure and total; no carry, sign or flag (R104). -/

namespace Sys2Proof.Machine

/-- CRC_POLY (R5). -/
def crcPoly : Word := 0x04C11DB7#32

/-- One iteration of R101: bit 31 is tested before the shift that discards it. -/
def crcBit (t : Word) : Word :=
  if t.getLsbD 31 then (t <<< 1) ^^^ crcPoly else t <<< 1

/-- `crc_step(a, b)`: the byte enters at bits 31..24, then eight iterations (R101). -/
def crcStep (a : Word) (b : Byte) : Word :=
  Nat.repeat crcBit 8 (a ^^^ (zext32 b <<< 24))

/-- `crc32_ogg(m)`: initial value 0, no final XOR (R103). -/
def crc32Ogg (m : List Byte) : Word := m.foldl crcStep 0x00000000#32

/-- `T[i]` = `crc_step(0, i)` (R102). -/
def crcTableEntry (i : Byte) : Word := crcStep 0x00000000#32 i

/-- The table form of the byte step (R102). -/
def crcStepByTable (a : Word) (b : Byte) : Word :=
  (a <<< 8) ^^^ crcTableEntry (a.extractLsb' 24 8 ^^^ b)

end Sys2Proof.Machine
end

