-- ==== Sys2Proof/Machine/Flags.lean ====
section
/-! DEFINITION. Every flag and status view of the block, each a function of the state (R28, R31), its
numeric codes (R21, R170) and the three level outputs (R39). -/

namespace Sys2Proof.Machine

/-- The 3-bit code of a phase (R21). -/
def Phase.code : Phase → BitVec 3
  | .idle => 0
  | .hdr => 1
  | .seg => 2
  | .pay => 3
  | .done => 4
  | .ended => 5
  | .err => 7

/-- The 3-bit error code (R170). -/
def ErrCode.code : ErrCode → BitVec 3
  | .none => 0
  | .invalidSignature => 1
  | .unsupportedVersion => 2
  | .crcMismatch => 3
  | .unsupportedPage => 4
  | .shortRead => 5
  | .illegalCmd => 6

namespace State

/-- `f_cont` = `flags[0]`: the continued-packet flag (R28, R79). -/
def fCont (s : State) : Bool := s.flags.getLsbD 0

/-- `f_bos` = `flags[1]`: the first-page flag, read by the host only (R28, R79). -/
def fBos (s : State) : Bool := s.flags.getLsbD 1

/-- `f_eos` = `flags[2]`: the last-page flag, read by the host only (R28, R79, R142). -/
def fEos (s : State) : Bool := s.flags.getLsbD 2

/-- `npkt` = `npkt_done` + `lace_open`, an exact sum (R9, R31, R151). -/
def npkt (s : State) : Nat := s.npktDone.toNat + s.laceOpen.toNat

/-- `multi`: the page contains more than one packet (R31). -/
def multi (s : State) : Bool := decide (1 < s.npkt)

/-- `crc_ok`: the accumulator equals the stored checksum (R31). -/
def crcOk (s : State) : Bool := s.acc == s.crcStored

/-- The level output `done` (R39). -/
def outDone (s : State) : Bool := s.phase == .done

/-- The level output `fault` (R39). -/
def outFault (s : State) : Bool := s.phase == .err

/-- The level output `ended` (R39). -/
def outEnded (s : State) : Bool := s.phase == .ended

end State

end Sys2Proof.Machine
end

