-- ==== Sys2Proof/Machine/Ops.lean ====
section
/-! DEFINITION. The shared operations over memory and registers: the buffers, the one byte write of
the block (R57), taking a fault (R180), the control transfer `seq <- (P, n)` (R10), the two resets
(R43, R161, R200) and the host's input. -/

namespace Sys2Proof.Machine

/-! ### The buffers -/

/-- The number of bytes of each space (R50; SEG_MAX and PAY_MAX of R7). -/
def Space.size : Space → Nat
  | .hdr => 27
  | .seg => 255
  | .pay => 65025

/-- The byte at an index; none where no step has written it (R62). -/
def Memory.read : Memory → Nat → Option Byte
  | [], _ => none
  | (a, b) :: m, i => if a = i then some b else Memory.read m i

/-- Sets byte `i` and changes no other byte (R57); the indices stay strictly rising. -/
def Memory.write : Memory → Nat → Byte → Memory
  | [], i, b => [(i, b)]
  | (a, c) :: m, i, b =>
    if i < a then (i, b) :: (a, c) :: m
    else if i = a then (i, b) :: m
    else (a, c) :: Memory.write m i b

/-- The indices rise strictly from `lo` on and stay below `size`. -/
def Memory.risesWithin (lo size : Nat) : Memory → Bool
  | [] => true
  | (a, _) :: m => decide (lo ≤ a) && decide (a < size) && Memory.risesWithin (a + 1) size m

/-- The canonical form of a buffer of `size` bytes: indices strictly rising and inside the space. An
unlisted index holds no value, so no entry can equal what it reads as. -/
def Memory.wf (size : Nat) (m : Memory) : Bool := Memory.risesWithin 0 size m

/-- The bytes at indices `0 .. n-1`, if each of them has been written. -/
def Memory.firstBytes (m : Memory) : Nat → Option (List Byte)
  | 0 => some []
  | n + 1 =>
    match Memory.firstBytes m n, Memory.read m n with
    | some bs, some b => some (bs ++ [b])
    | _, _ => none

namespace State

/-- The stored byte at index `i` of a space, if the space has it and a step has written it (R62). -/
def byteAt (s : State) : Space → Nat → Option Byte
  | .hdr, i => s.hdr[i]?
  | .seg, i => Memory.read s.seg i
  | .pay, i => Memory.read s.pay i

/-- The write of one byte to a space that has the index. -/
def putByte (sp : Space) (i : Nat) (b : Byte) (s : State) : State :=
  match sp with
  | .hdr => { s with hdr := s.hdr.setIfInBounds i b }
  | .seg => { s with seg := Memory.write s.seg i b }
  | .pay => { s with pay := Memory.write s.pay i b }

/-- `MemWrite(space, i, 1, b)` (R57). An index outside the space faults: no run reaches such a write
(R60). -/
def storeByte (sp : Space) (i : Nat) (b : Byte) (s : State) : Except Fault State :=
  if i < sp.size then .ok (s.putByte sp i b) else .error (.noSuchByte sp i)

/-! ### Registers -/

/-- One step of the accumulator (R25). -/
def absorb (b : Byte) (s : State) : State := { s with acc := crcStep s.acc b }

/-- `idx <- idx + 1`. -/
def advance (s : State) : State := { s with idx := s.idx + 1#16 }

/-- `idx <- n`. -/
def setIdx (n : Half) (s : State) : State := { s with idx := n }

/-- `phase <- P`, leaving `idx`. -/
def setPhase (p : Phase) (s : State) : State := { s with phase := p }

/-- `seq <- (P, n)`: the control transfer of this hardware (R10, R24). -/
def setSeq (p : Phase) (n : Half) (s : State) : State := { s with phase := p, idx := n }

/-- `acc <- v`. -/
def setAcc (v : Word) (s : State) : State := { s with acc := v }

/-! ### Taking a fault, and leaving it -/

/-- `raise Fault(code)`: phase ERR, the code recorded, everything else kept (R179 to R181). There is
no handler, vector or saved context, and no return: the only exit from ERR is a reset (R183). -/
def raise (code : ErrCode) (s : State) : State := { s with phase := .err, err := code }

/-- A command that the current phase does not allow, outside phase ERR (R176, R177). -/
def raiseIllegal (s : State) : State := s.raise .illegalCmd

/-- The effect of a RESET command: every register at its reset value, the buffers kept (R161). -/
def resetRegisters (s : State) : State :=
  { s with
    phase := .idle
    err := .none
    idx := 0#16
    acc := 0x00000000#32
    hdr := Vector.replicate 27 0x00#8
    payLen := 0#16
    npktDone := 0#8
    laceOpen := false }

/-- The hardware reset input: as RESET, and the buffers' bytes become unspecified (R43, R200). What
the host has yet to present is the host's, and the configuration is not affected (R203). -/
def hardwareReset (s : State) : State := { s.resetRegisters with seg := [], pay := [] }

/-! ### The host's input -/

/-- The host presents `x` before everything it has yet to present. -/
def present (x : HostInput) (s : State) : State := { s with inputs := x :: s.inputs }

/-- The next thing the host presents, and the state once it is taken (R8). -/
def takeInput (s : State) : Option (HostInput × State) :=
  match s.inputs with
  | [] => none
  | x :: rest => some (x, { s with inputs := rest })

end State

/-- The rest of a step after the byte it captures is stored (R134). -/
def afterStore (stored : Except Fault State) (rest : State → State) :
    Host.Outcome State Fault Refusal :=
  match stored with
  | .ok s => .next (rest s)
  | .error f => .fault f

end Sys2Proof.Machine
end

