-- ==== Sys2Proof/Machine/Control.lean ====
section
/-! DEFINITION. The control commands NOP, RESET and NEXT (R160 to R162), and the illegal word (R73). -/

namespace Sys2Proof.Machine

/-- NOP: no state change, in every phase (R160). -/
def execNop (s : State) : Host.Outcome State Fault Refusal := .next s

/-- RESET, in any phase, ERR included (R161). -/
def execReset (s : State) : Host.Outcome State Fault Refusal := .next s.resetRegisters

/-- NEXT: release the accepted page (R162). -/
def execNext (s : State) : Host.Outcome State Fault Refusal :=
  match s.phase with
  | .done => .next (s.setPhase .idle)
  | .idle | .hdr | .seg | .pay | .ended => .next s.raiseIllegal
  | .err => .next s

/-- A word that is none of the seven commands: ILLEGAL_CMD outside phase ERR, ignored in it (R73,
R74). -/
def execIllegalWord (s : State) : Host.Outcome State Fault Refusal :=
  match s.phase with
  | .idle | .hdr | .seg | .pay | .done | .ended => .next s.raiseIllegal
  | .err => .next s

end Sys2Proof.Machine
end

