-- ==== Sys2Proof/Machine/Engine.lean ====
section
/-! DEFINITION. The two direct commands of the CRC engine (R108, R109): legal in IDLE only. -/

namespace Sys2Proof.Machine

/-- CRC.CLR (R108). -/
def execCrcClr (s : State) : Host.Outcome State Fault Refusal :=
  match s.phase with
  | .idle => .next (s.setAcc 0x00000000#32)
  | .hdr | .seg | .pay | .done | .ended => .next s.raiseIllegal
  | .err => .next s

/-- CRC.ABS b (R109). -/
def execCrcAbs (b : Byte) (s : State) : Host.Outcome State Fault Refusal :=
  match s.phase with
  | .idle => .next (s.absorb b)
  | .hdr | .seg | .pay | .done | .ended => .next s.raiseIllegal
  | .err => .next s

end Sys2Proof.Machine
end

