-- ==== Sys2Proof/Machine/Parser.lean ====
section
/-! DEFINITION. The page framing parser and the lacing state machine: BYTE (R121 to R134) and EOS
(R135), with the sub-procedures `page_clear` (R123), `header_end` (R126) and `page_end` (R131). -/

namespace Sys2Proof.Machine

/-- What the accumulator absorbs for header byte `i`: zero for the checksum field, offsets 22..25
(R125). -/
def headerAbsorbed (i : Nat) (b : Byte) : Byte := if 22 ≤ i ∧ i ≤ 25 then 0x00#8 else b

namespace State

/-- `page_clear()` (R123). -/
def pageClear (s : State) : State :=
  { s with
    idx := 0#16
    acc := 0x00000000#32
    hdr := Vector.replicate 27 0x00#8
    payLen := 0#16
    npktDone := 0#8
    laceOpen := false }

/-- `page_end()`: the checksum first, then the continued and multi-packet test (R131). -/
def pageEnd (s : State) : State :=
  if s.acc ≠ s.crcStored then s.raise .crcMismatch
  else if s.fCont = true ∨ 1 < s.npkt then s.raise .unsupportedPage
  else s.setPhase .done

/-- `header_end()`: the signature, the version under its parameter, then the table or, where it is
empty, the end of the page (R126, R136). -/
def headerEnd (s : State) : State :=
  if s.magic ≠ s.cfg.pMagic then s.raise .invalidSignature
  else if s.cfg.pVersionCheck = true ∧ s.version ≠ 0x00#8 then s.raise .unsupportedVersion
  else if s.nseg = 0x00#8 then (s.setIdx 0#16).pageEnd
  else s.setSeq .seg 0#16

/-- One transition of the lacing state machine and of the running sum, for one table entry (R80,
R127, R128). -/
def laceEntry (b : Byte) (s : State) : State :=
  if b = 255#8 then
    { s with payLen := s.payLen + zext16 b, laceOpen := true }
  else
    { s with payLen := s.payLen + zext16 b, laceOpen := false, npktDone := s.npktDone + 1#8 }

/-- The end of the header, if it has been reached (R124). -/
def headerBoundary (s : State) : State := if s.idx = 27#16 then s.headerEnd else s

/-- The end of the table, if it has been reached (R127, R129). -/
def tableBoundary (s : State) : State :=
  if s.idx = zext16 s.nseg then
    if s.payLen = 0#16 then (s.setIdx 0#16).pageEnd else s.setSeq .pay 0#16
  else s

/-- The end of the payload, if it has been reached (R130). -/
def payloadBoundary (s : State) : State := if s.idx = s.payLen then s.pageEnd else s

end State

/-- BYTE in IDLE: start a page with `b` as header byte 0 (R122). -/
def byteIdle (b : Byte) (s : State) : Host.Outcome State Fault Refusal :=
  afterStore (s.pageClear.storeByte .hdr 0 b) fun t => (t.absorb b).setSeq .hdr 1#16

/-- BYTE in HDR: capture header byte `idx` (R124). -/
def byteHdr (b : Byte) (s : State) : Host.Outcome State Fault Refusal :=
  afterStore (s.storeByte .hdr s.idx.toNat b) fun t =>
    (t.absorb (headerAbsorbed s.idx.toNat b)).advance.headerBoundary

/-- BYTE in SEG: one lacing value (R127). -/
def byteSeg (b : Byte) (s : State) : Host.Outcome State Fault Refusal :=
  afterStore (s.storeByte .seg s.idx.toNat b) fun t =>
    ((t.absorb b).laceEntry b).advance.tableBoundary

/-- BYTE in PAY: one payload byte (R130). -/
def bytePay (b : Byte) (s : State) : Host.Outcome State Fault Refusal :=
  afterStore (s.storeByte .pay s.idx.toNat b) fun t => (t.absorb b).advance.payloadBoundary

/-- BYTE b: the next stream byte (R121, R132, R133). -/
def execByte (b : Byte) (s : State) : Host.Outcome State Fault Refusal :=
  match s.phase with
  | .idle => byteIdle b s
  | .hdr => byteHdr b s
  | .seg => byteSeg b s
  | .pay => bytePay b s
  | .done | .ended => .next s.raiseIllegal
  | .err => .next s

/-- EOS: the byte source has ended (R135). -/
def execEos (s : State) : Host.Outcome State Fault Refusal :=
  match s.phase with
  | .idle => .next (s.setPhase .ended)
  | .hdr | .seg | .pay => .next (s.raise .shortRead)
  | .done | .ended => .next s.raiseIllegal
  | .err => .next s

end Sys2Proof.Machine
end

