-- ==== Sys2Proof/Machine/Dispatch.lean ====
section
/-! DEFINITION. One arm per instruction: its meaning. -/

namespace Sys2Proof.Machine

def exec (i : Instr) (s : State) : Host.Outcome State Fault Refusal :=
  match i with
  | .nop => Sys2Proof.Machine.execNop s
  | .reset => Sys2Proof.Machine.execReset s
  | .next => Sys2Proof.Machine.execNext s
  | .crcClr => Sys2Proof.Machine.execCrcClr s
  | .crcAbs b => Sys2Proof.Machine.execCrcAbs b s
  | .byte b => Sys2Proof.Machine.execByte b s
  | .eos => Sys2Proof.Machine.execEos s

end Sys2Proof.Machine
end

