-- ==== Sys2Proof/Machine/Sequencer.lean ====
section
/-! DEFINITION. What one input of the host does: a command word is decoded and run (R74), a reset pulse
resets the block (R200). -/

namespace Sys2Proof.Machine

/-- One command word (R74). In phase ERR the only word with an effect is `0x0100`, because every
meaning but RESET's, and the illegal word's, leaves phase ERR unchanged (R163). -/
def runWord (w : Half) (s : State) : Host.Outcome State Fault Refusal :=
  match decode w with
  | .ok i => exec i s
  | .error _ => execIllegalWord s

/-- One input of the host (R8, R184, R200). -/
def runInput (x : HostInput) (s : State) : Host.Outcome State Fault Refusal :=
  match x with
  | .command w => runWord w s
  | .hardwareReset => .next s.hardwareReset

/-- One step: the next input of the host; with none, the block waits, unchanged (R211, R212). -/
def runNextInput (s : State) : Host.Outcome State Fault Refusal :=
  match s.takeInput with
  | none => .next s
  | some (x, t) => runInput x t

end Sys2Proof.Machine
end

