-- ==== Sys2Proof/Machine/Step.lean ====
section
/-! DEFINITION. The step of the machine, and where its next command word stands. -/

namespace Sys2Proof.Machine

/-- One atomic step (R8). -/
def step (s : State) : Host.Outcome State Fault Refusal := runNextInput s

/-- The host presents, as its very next command, the word that the opcode table numbers as `w`. -/
def State.withFetchWord (s : State) (nbits w : Nat) : State :=
  s.present (.command (tableWord nbits w))

end Sys2Proof.Machine
end

