-- ==== Sys2Proof/Machine/ReadPort.lean ====
section
/-! DEFINITION. The read port (R38 to R42): reads between steps, without side effect. It is no command
and no step; each read is a function of the state. -/

namespace Sys2Proof.Machine

/-- What the host knows of the page whose values the block holds, from what it has presented (R42, R175):
no page with a whole header, the page the block is in or faulted in, or a page that NEXT has released. -/
inductive HeldPage where
  | noPage
  | current
  | released
  deriving DecidableEq, Repr

/-- What the host knows after the block has taken its input `x` and is in state `t`: a reset forgets the
page and a first BYTE begins another (R123, R161), NEXT releases it, and a fault that no header or page
end takes changes nothing (R162, R180). -/
def HeldPage.after (x : HostInput) (t : State) (k : HeldPage) : HeldPage :=
  if x = .hardwareReset ∨ x = .command 0x0100#16 then .noPage
  else
    match t.phase with
    | .hdr => .noPage
    | .seg | .pay | .done => .current
    | .idle | .ended => if k = .noPage then .noPage else .released
    | .err =>
      match t.err with
      | .invalidSignature | .unsupportedVersion | .crcMismatch | .unsupportedPage => .current
      | .none | .shortRead | .illegalCmd => k

namespace State

/-- Selector 0x0, STATUS, field by field from bit 31 down (R41). -/
def statusReg (s : State) : Word :=
  0#8 ++ BitVec.ofNat 8 s.npkt ++ 0#2 ++ BitVec.ofBool s.crcOk ++ BitVec.ofBool s.multi
    ++ BitVec.ofBool s.laceOpen ++ BitVec.ofBool s.fEos ++ BitVec.ofBool s.fBos
    ++ BitVec.ofBool s.fCont ++ 0#2 ++ s.err.code ++ s.phase.code

/-- Selector 0x5, HDR_MISC: `nseg`, `flags`, `version` from bit 23 down (R41). -/
def hdrMiscReg (s : State) : Word := 0#8 ++ s.nseg ++ s.flags ++ s.version

/-- Selector 0xA, PAY_LEN: `npkt_done` above `pay_len` (R41). -/
def payLenReg (s : State) : Word := 0#8 ++ s.npktDone ++ s.payLen

/-- A read of a 32-bit view by selector (R41). The selectors 0xB..0xF are reserved: refused (U4). -/
def readReg (s : State) (sel : BitVec 4) : Except Refusal Word :=
  match sel.toNat with
  | 0 => .ok s.statusReg
  | 1 => .ok (s.idx.setWidth 32)
  | 2 => .ok s.acc
  | 3 => .ok s.crcStored
  | 4 => .ok s.magic
  | 5 => .ok s.hdrMiscReg
  | 6 => .ok (s.granule.extractLsb' 0 32)
  | 7 => .ok (s.granule.extractLsb' 32 32)
  | 8 => .ok s.serial
  | 9 => .ok s.seqno
  | 10 => .ok s.payLenReg
  | _ => .error (.reservedSelector sel)

/-- `MemRead(space, i, 1)` (R60, R62): refused outside the space, and where no step has written the
byte since hardware reset (U1, U4). -/
def memRead (s : State) (sp : Space) (i : Nat) : Except Refusal Byte :=
  if i < sp.size then
    match s.byteAt sp i with
    | some b => .ok b
    | none => .error (.neverWritten sp i)
  else .error (.indexOutOfRange sp i)

/-! ### When a value is the current page's (R42) -/

/-- How many bytes of `hdr`, from index 0, are the page's (R42). In ERR with one of the two codes that
leave the registers as they were, a page whose header is not whole is one of `idx` bytes. -/
def headerWindowOf (k : HeldPage) (s : State) : Nat :=
  match s.phase with
  | .hdr => s.idx.toNat
  | .seg | .pay | .done => 27
  | .idle | .ended => if k = .noPage then 0 else 27
  | .err =>
    match s.err with
    | .invalidSignature | .unsupportedVersion | .crcMismatch | .unsupportedPage => 27
    | .shortRead | .illegalCmd => if k = .noPage then s.idx.toNat else 27
    | .none => 0

/-- How many bytes of `seg`, from index 0, are the page's (R42). -/
def tableWindowOf (k : HeldPage) (s : State) : Nat :=
  match s.phase with
  | .hdr => 0
  | .seg => s.idx.toNat
  | .pay | .done => s.nseg.toNat
  | .idle | .ended | .err => if k = .released then s.nseg.toNat else 0

/-- How many bytes of `pay`, from index 0, are the page's (R42). -/
def payloadWindowOf (k : HeldPage) (s : State) : Nat :=
  match s.phase with
  | .hdr | .seg => 0
  | .pay => s.idx.toNat
  | .done => s.payLen.toNat
  | .idle | .ended | .err => if k = .released then s.payLen.toNat else 0

/-- How many bytes of a space, from index 0, are the page's (R42). -/
def windowOf (k : HeldPage) (s : State) : Space → Nat
  | .hdr => s.headerWindowOf k
  | .seg => s.tableWindowOf k
  | .pay => s.payloadWindowOf k

/-- Whether the fault was taken in `page_end` (R131). -/
def faultedAtPageEnd (s : State) : Bool := s.err == .crcMismatch || s.err == .unsupportedPage

/-- Whether `pay_len`, `npkt` and `multi` are the page's totals (R42). -/
def totalsHeldOf (k : HeldPage) (s : State) : Bool :=
  match s.phase with
  | .hdr | .seg => false
  | .pay | .done => true
  | .idle | .ended => k == .released
  | .err => s.faultedAtPageEnd || k == .released

/-- Whether `acc` is the page's checksum (R42): for a released page, until a direct command has written
another value. -/
def checksumHeldOf (k : HeldPage) (s : State) : Bool :=
  match s.phase with
  | .hdr | .seg | .pay => false
  | .done => true
  | .idle | .ended => k == .released && s.crcOk
  | .err => s.faultedAtPageEnd || (k == .released && s.crcOk)

/-! The same, as far as the state alone tells. -/

/-- Whether `hdr` holds a page's header between pages. Reset clears every byte of it (R43), and an
accepted header begins with the nonzero first byte of P_MAGIC (R106). -/
def headerHeld (s : State) : Bool := decide (s.hdr ≠ Vector.replicate 27 0x00#8)

/-- What the state tells of the page it holds. In ERR with SHORT_READ or ILLEGAL_CMD no table entry is
counted and `idx` is not 0 only where the fault was taken in HDR; whether NEXT has released the page is
not recorded there (R175, R179). -/
def heldPage (s : State) : HeldPage :=
  match s.phase with
  | .hdr => .noPage
  | .seg | .pay | .done => .current
  | .idle | .ended => if s.headerHeld then .released else .noPage
  | .err =>
    match s.err with
    | .invalidSignature | .unsupportedVersion | .crcMismatch | .unsupportedPage => .current
    | .shortRead | .illegalCmd =>
      if s.npkt = 0 ∧ s.idx ≠ 0#16 then .noPage
      else if s.headerHeld then .current else .noPage
    | .none => .noPage

/-- The windows of R42, read from the state alone. -/
def window (s : State) (sp : Space) : Nat := s.windowOf s.heldPage sp

/-- The totals of R42, read from the state alone. -/
def totalsHeld (s : State) : Bool := s.totalsHeldOf s.heldPage

/-- The checksum of R42, read from the state alone. -/
def checksumHeld (s : State) : Bool := s.checksumHeldOf s.heldPage

/-- The packet that the block yields: `pay[0 .. pay_len-1]`, in phase DONE (R42, R137). -/
def packet (s : State) : Option (List Byte) :=
  match s.phase with
  | .done => Memory.firstBytes s.pay s.payLen.toNat
  | .idle | .hdr | .seg | .pay | .ended | .err => none

end State

end Sys2Proof.Machine
end

