-- ==== Sys2Proof/Machine/HostProtocol.lean ====
section
/-! DEFINITION. The host protocol that stands for the driver's loop (R17): bytes as BYTE commands, a
page read and released in DONE, EOS once at the end, a stop at the first fault. It is the host's
side: no meaning calls it. -/

namespace Sys2Proof.Machine

/-- The host feeds the bytes of a stream that starts in state `s` and then reports its end. It answers
the packets it was handed and the state it stops in; the pair (`phase`, `err`) of that state is the
structured result of R19. -/
def hostStream : List Byte → State → Host.Outcome (List (List Byte) × State) Fault Refusal
  | [], s =>
    match exec .eos s with
    | .next t => .next ([], t)
    | .fault f => .fault f
    | .refused r => .refused r
  | b :: bs, s =>
    match exec (.byte b) s with
    | .next t =>
      match t.phase with
      | .err => .next ([], t)
      | .done =>
        match exec .next t with
        | .next u =>
          match hostStream bs u with
          | .next (packets, v) => .next (t.packet.toList ++ packets, v)
          | .fault f => .fault f
          | .refused r => .refused r
        | .fault f => .fault f
        | .refused r => .refused r
      | .idle | .hdr | .seg | .pay | .ended => hostStream bs t
    | .fault f => .fault f
    | .refused r => .refused r

/-- One decode invocation (R17, R204): the host issues RESET, in whatever phase the block is, and then
feeds the stream. -/
def hostDecode (bs : List Byte) (s : State) :
    Host.Outcome (List (List Byte) × State) Fault Refusal :=
  match exec .reset s with
  | .next t => hostStream bs t
  | .fault f => .fault f
  | .refused r => .refused r

end Sys2Proof.Machine
end

