-- ==== Sys2Proof/Machine/Assembler.lean ====
section
/-! DEFINITION. The assembler syntax (R85), the Ogg page wire format (R76, R83) and the three
pseudo-instructions (R86). -/

namespace Sys2Proof.Machine

/-- One hexadecimal digit, in capitals. -/
def hexDigit (n : Nat) : String := (["0", "1", "2", "3", "4", "5", "6", "7",
  "8", "9", "A", "B", "C", "D", "E", "F"].getD n "")

/-- A byte operand, written `0xHH` (R85). -/
def asmOperand (b : Byte) : String := "0x" ++ hexDigit (b.toNat / 16) ++ hexDigit (b.toNat % 16)

/-- One command as the assembler writes it (R85). -/
def asmLine : Instr → String
  | .nop => mnemonic .nop
  | .reset => mnemonic .reset
  | .next => mnemonic .next
  | .crcClr => mnemonic .crcClr
  | .crcAbs b => mnemonic (.crcAbs b) ++ " " ++ asmOperand b
  | .byte b => mnemonic (.byte b) ++ " " ++ asmOperand b
  | .eos => mnemonic .eos

/-- The fields of a page (R76); the checksum is computed from them. -/
structure PageFields where
  magic : Word
  version : Byte
  flags : Byte
  granule : BitVec 64
  serial : Word
  seqno : Word
  table : List Byte
  payload : List Byte
  deriving DecidableEq, Repr

/-- The sum of the lacing values of a table (R29, R81). -/
def tableSum (table : List Byte) : Nat := (table.map BitVec.toNat).sum

/-- The number of terminated packets of a table: its entries below 255 (R30, R80). -/
def terminatedRuns (table : List Byte) : Nat := table.countP (· != 255#8)

/-- Whether a table ends in an open run (R30, R138). -/
def endsOpen (table : List Byte) : Bool := table.getLast? == some 255#8

/-- The packet count of a table: terminated packets, and one for an open run (R31, R128). -/
def packetCount (table : List Byte) : Nat := terminatedRuns table + (endsOpen table).toNat

namespace PageFields

/-- The table fits the one-byte segment count, and the payload is as long as its sum (R76, R81). -/
def wf (p : PageFields) : Bool :=
  decide (p.table.length ≤ 255) && decide (p.payload.length = tableSum p.table)

/-- The 27 header bytes, with `crc` in the checksum field (R76). -/
def header (p : PageFields) (crc : Word) : List Byte :=
  leBytes 4 p.magic.toNat ++ [p.version, p.flags] ++ leBytes 8 p.granule.toNat
    ++ leBytes 4 p.serial.toNat ++ leBytes 4 p.seqno.toNat ++ leBytes 4 crc.toNat
    ++ [BitVec.ofNat 8 p.table.length]

/-- The page's checksum: over the header with its checksum field zero, the table and the payload
(R83). -/
def checksum (p : PageFields) : Word :=
  crc32Ogg (p.header 0x00000000#32 ++ p.table ++ p.payload)

/-- The stream bytes of a page that carries `crc` as its checksum (R76, R82). -/
def bytesWith (p : PageFields) (crc : Word) : List Byte :=
  p.header crc ++ p.table ++ p.payload

/-- The stream bytes of the page, its checksum filled in (R83). -/
def bytes (p : PageFields) : List Byte := p.bytesWith p.checksum

end PageFields

/-- The pseudo-instruction `BYTES` (R86). -/
def asmBytes (bs : List Byte) : List Instr := bs.map .byte

/-- The pseudo-instruction `PAGE`: the page with P_MAGIC, version 0 and its checksum filled in (R86). -/
def asmPage (cfg : Config) (p : PageFields) : List Instr :=
  asmBytes ({ p with magic := cfg.pMagic, version := 0x00#8 } : PageFields).bytes

/-- The pseudo-instruction `CRC.MSG` (R86). -/
def asmCrcMsg (m : List Byte) : List Instr := .crcClr :: m.map .crcAbs

/-- A command stream, as the host presents it. -/
def asCommands (is : List Instr) : List HostInput := is.map fun i => .command (encode i)

end Sys2Proof.Machine
end

