-- ==== Sys2Proof/Safety.lean ====
section
/-! DEFINITION. The spec's own tables of what may happen (R139, R177) and of what a page meets (R126,
R131), and what holds of every state that a run can reach: the invariants of R44 and R151, with
what makes them inductive (what the accumulator holds while a page arrives, R125; what each fault
recorded, R171 to R174), and the reachable states themselves. -/

namespace Sys2Proof.Safety

open Sys2Proof.Machine

/-- The header bytes as the accumulator absorbs them, the checksum field as zero (R125). -/
def crcHeader (h : Vector Byte 27) : List Byte := h.toList.mapIdx headerAbsorbed

/-- The header has passed `header_end` (R126). -/
structure HeaderAccepted (s : State) : Prop where
  magic : s.magic = s.cfg.pMagic
  version : s.cfg.pVersionCheck = true → s.version = 0x00#8

/-- The counters are those of the table entries consumed so far (R29, R30). -/
structure Laced (s : State) (table : List Byte) : Prop where
  payLen : s.payLen.toNat = tableSum table
  npktDone : s.npktDone.toNat = terminatedRuns table
  laceOpen : s.laceOpen = endsOpen table

/-- In HDR: `idx` bytes captured and absorbed, the rest of the page's registers clear (R23, R28). -/
structure InHeader (s : State) : Prop where
  idx_pos : 1 ≤ s.idx.toNat
  idx_le : s.idx.toNat ≤ 26
  clear : ∀ i, s.idx.toNat ≤ i → i < 27 → s.hdr[i]? = some 0x00#8
  laced : Laced s []
  acc : s.acc = crc32Ogg ((crcHeader s.hdr).take s.idx.toNat)

/-- In SEG: `idx` table entries captured, summed, classified and absorbed (R44 (c)). -/
structure InTable (s : State) : Prop where
  header : HeaderAccepted s
  idx_lt : s.idx.toNat < s.nseg.toNat
  entries : ∃ table, Memory.firstBytes s.seg s.idx.toNat = some table ∧ Laced s table ∧
    s.acc = crc32Ogg (crcHeader s.hdr ++ table)

/-- In PAY: the table complete, `idx` payload bytes captured and absorbed (R44 (c), (d), (e)). -/
structure InPayload (s : State) : Prop where
  header : HeaderAccepted s
  idx_lt : s.idx.toNat < s.payLen.toNat
  entries : ∃ table body, Memory.firstBytes s.seg s.nseg.toNat = some table ∧ Laced s table ∧
    Memory.firstBytes s.pay s.idx.toNat = some body ∧
    s.acc = crc32Ogg (crcHeader s.hdr ++ table ++ body)

/-- A whole page captured: its table, the counters of that table, and its payload (R42, R44 (d), (e)). -/
structure PageCaptured (s : State) (table body : List Byte) : Prop where
  entries : Memory.firstBytes s.seg s.nseg.toNat = some table
  laced : Laced s table
  payload : Memory.firstBytes s.pay s.payLen.toNat = some body

/-- A whole page captured and absorbed: the accumulator is its checksum (R125, R44 (g)). -/
def PageAbsorbed (s : State) : Prop :=
  ∃ table body, PageCaptured s table body ∧ s.acc = crc32Ogg (crcHeader s.hdr ++ table ++ body)

/-- In DONE: the whole page captured, and every check passed (R44 (c) to (g)). -/
structure PageHeld (s : State) : Prop where
  header : HeaderAccepted s
  idx : s.idx = s.payLen
  absorbed : PageAbsorbed s
  checksum : s.acc = s.crcStored
  notContinued : s.fCont = false
  onePacket : s.npkt ≤ 1

/-- Between pages: the released page as NEXT left it, with its checksum still in the header (R42, R162),
or, after reset, a page of no entries and no bytes (R23, R43, R106). The accumulator is the direct
commands' (R110). -/
structure PageReleased (s : State) : Prop where
  idx : s.idx = s.payLen
  captured : ∃ table body, PageCaptured s table body ∧
    s.crcStored = crc32Ogg (crcHeader s.hdr ++ table ++ body)

/-- What holds in each phase (R44). -/
def PhaseInv (s : State) : Prop :=
  match s.phase with
  | .idle => PageReleased s
  | .hdr => InHeader s
  | .seg => InTable s
  | .pay => InPayload s
  | .done => PageHeld s
  | .ended => PageReleased s
  | .err => True

/-- What each fault leaves recorded (R171 to R174). The last two keep the registers as they were: with no
table entry counted the fault was taken no later than the header's last byte (R175, R176). -/
def ErrInv (s : State) : Prop :=
  match s.err with
  | .none => True
  | .invalidSignature => s.idx = 27#16 ∧ s.magic ≠ s.cfg.pMagic
  | .unsupportedVersion =>
    s.idx = 27#16 ∧ s.magic = s.cfg.pMagic ∧ s.cfg.pVersionCheck = true ∧ s.version ≠ 0x00#8
  | .crcMismatch => s.idx = s.payLen ∧ s.acc ≠ s.crcStored ∧ PageAbsorbed s
  | .unsupportedPage =>
    s.idx = s.payLen ∧ s.acc = s.crcStored ∧ (s.fCont = true ∨ s.multi = true) ∧ PageAbsorbed s
  | .shortRead | .illegalCmd => s.npkt = 0 → s.idx.toNat ≤ 26

/-- The invariant of the block. -/
structure BlockInv (s : State) : Prop where
  errIff : s.err = .none ↔ s.phase ≠ .err
  segWf : Memory.wf 255 s.seg = true
  payWf : Memory.wf 65025 s.pay = true
  idxBound : s.idx.toNat ≤ 65025
  payLenBound : s.payLen.toNat ≤ 65025
  npktBound : s.npkt ≤ s.nseg.toNat
  inPhase : PhaseInv s
  inErr : ErrInv s

/-- Every state that a run of steps reaches from reset, under any configuration, whatever the host
presents (R44). -/
inductive Reachable : State → Prop where
  | reset (cfg : Config) (inputs : List HostInput) :
      Reachable { State.reset with cfg := cfg, inputs := inputs }
  | step (s t : State) : Reachable s → Machine.step s = .next t → Reachable t

/-- The reachable states with what the host knows of the page they hold (R42). -/
inductive Known : HeldPage → State → Prop where
  | reset (cfg : Config) (inputs : List HostInput) :
      Known .noPage { State.reset with cfg := cfg, inputs := inputs }
  | step (k : HeldPage) (s t : State) (x : HostInput) (rest : List HostInput) :
      Known k s → s.inputs = x :: rest → Machine.step s = .next t → Known (k.after x t) t

/-- The host presents the commands `is` before whatever it has yet to present, and the block runs as
many steps. -/
def runCommands (is : List Instr) (s : State) : Host.Outcome State Fault Refusal :=
  Sys2Proof.core.run is.length { s with inputs := asCommands is ++ s.inputs }

/-- Where a BYTE stores its byte: the space and the index (R57); nowhere in DONE, END and ERR. -/
def storeTarget (s : State) : Option (Space × Nat) :=
  match s.phase with
  | .idle => some (.hdr, 0)
  | .hdr => some (.hdr, s.idx.toNat)
  | .seg => some (.seg, s.idx.toNat)
  | .pay => some (.pay, s.idx.toNat)
  | .done | .ended | .err => none

/-- A word that R73 calls illegal: ILLEGAL_CMD outside phase ERR with nothing else written, ignored in
it (R73, R74, R176). -/
def ActsAsIllegalWord (w : Half) : Prop :=
  ∀ s, runWord w s =
    if s.phase = .err then .next s else .next { s with phase := .err, err := .illegalCmd }

/-- The reset values of R43, element by element, with the header views, the outputs, and the register
STATUS as the read port shows it. -/
structure RegistersReset (s : State) : Prop where
  phase : s.phase = .idle
  err : s.err = .none
  idx : s.idx = 0#16
  acc : s.acc = 0x00000000#32
  hdr : ∀ i, s.hdrAt i = 0x00#8
  payLen : s.payLen = 0#16
  npktDone : s.npktDone = 0#8
  laceOpen : s.laceOpen = false
  views : s.magic = 0#32 ∧ s.version = 0#8 ∧ s.flags = 0#8 ∧ s.granule = 0#64 ∧ s.serial = 0#32 ∧
    s.seqno = 0#32 ∧ s.crcStored = 0#32 ∧ s.nseg = 0#8
  flags : s.fCont = false ∧ s.fBos = false ∧ s.fEos = false
  outputs : s.outDone = false ∧ s.outFault = false ∧ s.outEnded = false
  status : s.readReg 0x0#4 = .ok 0x00002000#32

/-! ### The spec's tables -/

/-- Which command executes by its rule in which phase: the entries "ok" of R177. -/
def permitted : Phase → Instr → Bool
  | _, .nop => true
  | _, .reset => true
  | p, .next => p == .done
  | p, .crcClr => p == .idle
  | p, .crcAbs _ => p == .idle
  | p, .byte _ => p == .idle || p == .hdr || p == .seg || p == .pay
  | p, .eos => p == .idle || p == .hdr || p == .seg || p == .pay

/-- Whether the next BYTE ends the part of the page that the block is in (R124, R127, R130). -/
def atBoundary (s : State) : Bool :=
  match s.phase with
  | .hdr => s.idx == 26#16
  | .seg => s.idx + 1#16 == zext16 s.nseg
  | .pay => s.idx + 1#16 == s.payLen
  | .idle | .done | .ended | .err => false

/-- The targets of BYTE in the table of R139, by phase and by whether a boundary is reached. -/
def byteTargets : Phase → Bool → List (Phase × ErrCode)
  | .idle, _ => [(.hdr, .none)]
  | .hdr, false => [(.hdr, .none)]
  | .hdr, true =>
    [(.seg, .none), (.done, .none), (.err, .invalidSignature), (.err, .unsupportedVersion),
      (.err, .crcMismatch), (.err, .unsupportedPage)]
  | .seg, false => [(.seg, .none)]
  | .seg, true =>
    [(.pay, .none), (.done, .none), (.err, .crcMismatch), (.err, .unsupportedPage)]
  | .pay, false => [(.pay, .none)]
  | .pay, true => [(.done, .none), (.err, .crcMismatch), (.err, .unsupportedPage)]
  | .done, _ => [(.err, .illegalCmd)]
  | .ended, _ => [(.err, .illegalCmd)]
  | .err, _ => []

/-- The complete transition table of R139 outside phase ERR: the phases that a command may lead to,
each with the code it leaves in `err`. -/
def targets (p : Phase) (boundary : Bool) : Instr → List (Phase × ErrCode)
  | .nop => [(p, .none)]
  | .reset => [(.idle, .none)]
  | .next => if p = .done then [(.idle, .none)] else [(.err, .illegalCmd)]
  | .crcClr => if p = .idle then [(.idle, .none)] else [(.err, .illegalCmd)]
  | .crcAbs _ => if p = .idle then [(.idle, .none)] else [(.err, .illegalCmd)]
  | .byte _ => byteTargets p boundary
  | .eos =>
    if p = .idle then [(.ended, .none)]
    else if p = .done ∨ p = .ended then [(.err, .illegalCmd)]
    else [(.err, .shortRead)]

/-- What a page that carries `crc` as its checksum meets, in the order of the checks (R126, R131,
R182): an error code, or none where the page is accepted. -/
def verdict (cfg : Config) (p : PageFields) (crc : Word) : ErrCode :=
  if p.magic ≠ cfg.pMagic then .invalidSignature
  else if cfg.pVersionCheck = true ∧ p.version ≠ 0x00#8 then .unsupportedVersion
  else if crc ≠ p.checksum then .crcMismatch
  else if p.flags.getLsbD 0 = true ∨ 1 < packetCount p.table then .unsupportedPage
  else .none

end Sys2Proof.Safety
end

