-- ==== Sys2Proof/Certificates/Slice0/Obligations.lean ====
section
/-! DEFINITION. The statements about the block, from the numbered rules of the spec. -/

open Sys2Proof Sys2Proof.Machine Sys2Proof.Safety

/-! ### Encoding -/

/-- Decoding and encoding are inverse to each other (R70, R71, R73): no bit of a legal word is
dropped, and no command has two spellings. -/
def Obligations.DecodeEncodeRoundTrip : Prop :=
  (∀ i, decode (encode i) = .ok i) ∧ (∀ w i, decode w = .ok i → encode i = w)

/-- The rows of the opcode map are disjoint, and a word decodes to the command of the row it selects
(R71). -/
def Obligations.WordSelectsItsRow : Prop :=
  ∀ w, (∀ i, decode w = .ok i → ∃ r, selectedRows w = [r] ∧ r.mnemonic = mnemonic i) ∧
    ((∃ e, decode w = .error e) → selectedRows w = [])

/-- Which words are illegal, and what an illegal word does in every phase (R73). -/
def Obligations.IllegalWordsRaiseIllegalCmd : Prop :=
  ∀ w, ((∃ i, decode w = .ok i) ↔ (formatOf w).wf = true) ∧
    ((formatOf w).wf = false → ∀ s, runWord w s =
      if s.phase = .err then .next s else .next { s with phase := .err, err := .illegalCmd })

/-- The words that R85 writes out decode to the commands it names, and five words that R73 makes
illegal do not decode. -/
def Obligations.SpecWordsDecode : Prop :=
  decode 0x204F#16 = .ok (.byte 0x4F#8) ∧ decode 0x1131#16 = .ok (.crcAbs 0x31#8) ∧
  decode 0x2100#16 = .ok .eos ∧ decode 0x0200#16 = .ok .next ∧ decode 0x0100#16 = .ok .reset ∧
  decode 0x0000#16 = .ok .nop ∧ decode 0x1000#16 = .ok .crcClr ∧
  decode 0x3000#16 = .error (.undefinedOpcode 0x30#8) ∧
  decode 0x0001#16 = .error (.operandNotZero 0x00#8 0x01#8) ∧
  decode 0x0105#16 = .error (.operandNotZero 0x01#8 0x05#8) ∧
  decode 0x2101#16 = .error (.operandNotZero 0x21#8 0x01#8) ∧
  decode 0xFFFF#16 = .error (.undefinedOpcode 0xFF#8)

/-! ### The step -/

/-- A step takes the host's next command word and runs it (R8, R74): a word that decodes has the effect
of its command, and one that does not is an illegal word (R73). A word that is presented is the very
next one. The queue of inputs is the model's (assumption log 1). -/
def Obligations.StepRunsDecodedCommand : Prop :=
  (∀ s w rest, s.inputs = .command w :: rest → step s = runWord w { s with inputs := rest }) ∧
  (∀ s w i rest, s.inputs = .command w :: rest → decode w = .ok i →
    step s = exec i { s with inputs := rest }) ∧
  (∀ (s : State) w e rest, s.inputs = .command w :: rest → decode w = .error e →
    step s = if s.phase = .err then .next { s with inputs := rest }
      else .next { s with phase := .err, err := .illegalCmd, inputs := rest }) ∧
  (∀ s n, step (s.withFetchWord 16 n) = runWord (BitVec.ofNat 16 n) s) ∧
  (∀ s n i, decodeTableWord 16 n = some i → step (s.withFetchWord 16 n) = exec i s)

/-- With nothing presented the block waits, in any phase, with no change of state (R212). -/
def Obligations.StepWaitsForTheHost : Prop :=
  ∀ s, s.inputs = [] → step s = .next s

/-- A step takes exactly one of the host's inputs, and nothing writes the configuration (R8, R34,
R203). -/
def Obligations.StepTakesOneInputAndKeepsConfiguration : Prop :=
  ∀ s t, step s = .next t → t.inputs = s.inputs.tail ∧ t.cfg = s.cfg

/-- In phase ERR every word but `0x0100` is ignored (R163). -/
def Obligations.ErrPhaseIgnoresAllButReset : Prop :=
  ∀ s w, s.phase = .err → runWord w s = if w = 0x0100#16 then .next s.resetRegisters else .next s

/-- Phase ERR is left only by a RESET command or the hardware reset input; until then a step changes
nothing of the block (R163, R183). -/
def Obligations.ErrPhaseIsLeftOnlyByReset : Prop :=
  ∀ s t, s.phase = .err → step s = .next t →
    t = { s with inputs := s.inputs.tail } ∨
    ((s.inputs.head? = some (.command 0x0100#16) ∨ s.inputs.head? = some .hardwareReset) ∧
      t.phase = .idle ∧ t.err = .none)

/-! ### Reset -/

/-- The state after reset (R43): the table of reset values holds of the model's reset state, of the
state after a RESET command in any phase, and of the state after the hardware reset input. Only the
buffers differ: RESET keeps their bytes, the hardware reset leaves none specified (R200). -/
def Obligations.ResetStateValues : Prop :=
  (RegistersReset State.reset ∧
    (∀ i, State.reset.byteAt .seg i = none) ∧ (∀ i, State.reset.byteAt .pay i = none)) ∧
  (∀ s : State, ∃ t, exec .reset s = .next t ∧ RegistersReset t ∧ t.cfg = s.cfg ∧
    t.seg = s.seg ∧ t.pay = s.pay) ∧
  (∀ (s : State) rest, s.inputs = .hardwareReset :: rest → ∃ t, step s = .next t ∧
    RegistersReset t ∧ t.cfg = s.cfg ∧
    (∀ i, t.byteAt .seg i = none) ∧ (∀ i, t.byteAt .pay i = none))

/-- RESET, in any phase, ERR included: the state after hardware reset, but that the buffers keep their
bytes (R161). With an operand the word is illegal. -/
def Obligations.ResetCommandGivesResetState : Prop :=
  decode 0x0100#16 = .ok .reset ∧ (∀ a : Byte, a ≠ 0x00#8 → ActsAsIllegalWord (0x01#8 ++ a)) ∧
  ∀ s : State, exec .reset s =
    .next { State.reset with seg := s.seg, pay := s.pay, cfg := s.cfg, inputs := s.inputs }

/-- The hardware reset input, in any phase: the state of R43, under the same configuration, with no
specified byte in the buffers (R200). -/
def Obligations.HardwareResetGivesResetState : Prop :=
  ∀ (s : State) rest, s.inputs = .hardwareReset :: rest →
    step s = .next { State.reset with cfg := s.cfg, inputs := rest }

/-! ### Control commands -/

/-- NOP changes nothing, in every phase (R160); with an operand the word is illegal. -/
def Obligations.NopChangesNothing : Prop :=
  decode 0x0000#16 = .ok .nop ∧ (∀ a : Byte, a ≠ 0x00#8 → ActsAsIllegalWord (0x00#8 ++ a)) ∧
  ∀ s, exec .nop s = .next s

/-- NEXT releases an accepted page and changes `phase` only; elsewhere it faults or is ignored
(R162); with an operand the word is illegal. -/
def Obligations.NextReleasesThePage : Prop :=
  decode 0x0200#16 = .ok .next ∧ (∀ a : Byte, a ≠ 0x00#8 → ActsAsIllegalWord (0x02#8 ++ a)) ∧
  ∀ s : State, exec .next s =
    if s.phase = .done then .next { s with phase := .idle }
    else if s.phase = .err then .next s
    else .next { s with phase := .err, err := .illegalCmd }

/-- EOS: the clean end in IDLE, a short read inside a page, a fault elsewhere (R135); nothing but
`phase` and `err` is written. With an operand the word is illegal. -/
def Obligations.EosEndsTheStreamOrFaults : Prop :=
  decode 0x2100#16 = .ok .eos ∧ (∀ a : Byte, a ≠ 0x00#8 → ActsAsIllegalWord (0x21#8 ++ a)) ∧
  ∀ s : State, exec .eos s =
    if s.phase = .idle then .next { s with phase := .ended }
    else if s.phase = .err then .next s
    else if s.phase = .done ∨ s.phase = .ended then
      .next { s with phase := .err, err := .illegalCmd }
    else .next { s with phase := .err, err := .shortRead }

/-! ### The CRC engine -/

/-- CRC.CLR clears the accumulator in IDLE and writes nothing else (R108); with an operand the word is
illegal. -/
def Obligations.CrcClrClearsAccumulator : Prop :=
  decode 0x1000#16 = .ok .crcClr ∧ (∀ a : Byte, a ≠ 0x00#8 → ActsAsIllegalWord (0x10#8 ++ a)) ∧
  ∀ s : State, exec .crcClr s =
    if s.phase = .idle then .next { s with acc := 0x00000000#32 }
    else if s.phase = .err then .next s
    else .next { s with phase := .err, err := .illegalCmd }

/-- CRC.ABS absorbs its byte in IDLE and writes nothing else (R109). -/
def Obligations.CrcAbsAbsorbsOneByte : Prop :=
  ∀ (b : Byte) (s : State), decode (0x11#8 ++ b) = .ok (.crcAbs b) ∧ exec (.crcAbs b) s =
    if s.phase = .idle then .next { s with acc := crcStep s.acc b }
    else if s.phase = .err then .next s
    else .next { s with phase := .err, err := .illegalCmd }

/-- The table form of the byte step agrees with the bit form everywhere, and the printed table is the
one it uses (R102). -/
def Obligations.CrcTableFormEquivalence : Prop :=
  (∀ a b, crcStep a b = crcStepByTable a b) ∧
  crcTablePrinted = (List.range 256).map fun i => crcTableEntry (BitVec.ofNat 8 i)

/-- The checksum is polynomial division (R100): read as a polynomial over GF(2), it differs from
`M(x) · x^32` by a multiple of `G(x)`, and it has degree below 32 by its width, so it is the remainder.
`M(x)` takes the message's bytes first byte first, each with bit 7 its highest power. -/
def Obligations.CrcIsPolynomialRemainder : Prop :=
  ∀ m : List Byte, ∃ q : Polynomial (ZMod 2),
    (∑ k : Fin m.length, ∑ i : Fin 8,
        if (m[k] : Byte).getLsbD i then
          Polynomial.X ^ (i.val + 8 * (m.length - 1 - k.val)) else 0) * Polynomial.X ^ 32 =
      q * (Polynomial.X ^ 32 + Polynomial.X ^ 26 + Polynomial.X ^ 23 + Polynomial.X ^ 22
        + Polynomial.X ^ 16 + Polynomial.X ^ 12 + Polynomial.X ^ 11 + Polynomial.X ^ 10
        + Polynomial.X ^ 8 + Polynomial.X ^ 7 + Polynomial.X ^ 5 + Polynomial.X ^ 4
        + Polynomial.X ^ 2 + Polynomial.X + 1)
      + ∑ i : Fin 32, if (crc32Ogg m).getLsbD i then Polynomial.X ^ i.val else 0

/-- The byte step is linear, so is the checksum on messages of one length, and a message that is zero
but for one byte has a nonzero checksum; hence two messages that differ in exactly one byte have
different checksums (R107). -/
def Obligations.CrcDetectsOneByteErrors : Prop :=
  (∀ a a' b b', crcStep (a ^^^ a') (b ^^^ b') = crcStep a b ^^^ crcStep a' b') ∧
  (∀ m e : List Byte, m.length = e.length →
    crc32Ogg (List.zipWith (· ^^^ ·) m e) = crc32Ogg m ^^^ crc32Ogg e) ∧
  (∀ n k b, b ≠ 0x00#8 →
    crc32Ogg (List.replicate n 0x00#8 ++ b :: List.replicate k 0x00#8) ≠ 0x00000000#32) ∧
  (∀ (m : List Byte) (k : Nat) (v : Byte) (h : k < m.length), v ≠ m[k] →
    crc32Ogg (m.set k v) ≠ crc32Ogg m)

/-- Leading zero bytes do not change a checksum, and an all-zero message has checksum 0 (R106). -/
def Obligations.CrcLeadingZerosVanish : Prop :=
  ∀ n m, crc32Ogg (List.replicate n 0x00#8 ++ m) = crc32Ogg m ∧
    crc32Ogg (List.replicate n 0x00#8) = 0x00000000#32

/-- From any state in IDLE, CRC.CLR and a CRC.ABS for each byte of a message leave its checksum in
the accumulator and change nothing else; the host reads it at selector CRC_ACC (R111). -/
def Obligations.CrcMessageThroughTheCommands : Prop :=
  ∀ (s : State) (m : List Byte), s.phase = .idle →
    runCommands (asmCrcMsg m) s = .next { s with acc := crc32Ogg m } ∧
    ({ s with acc := crc32Ogg m } : State).readReg 0x2#4 = .ok (crc32Ogg m)

/-! ### The page parser -/

/-- BYTE in IDLE starts a page: the previous page's registers are forgotten, the byte is header byte
0 whatever it is, and the buffers are not touched (R122, R123). -/
def Obligations.ByteInIdleStartsPage : Prop :=
  ∀ (b : Byte) (s : State), decode (0x20#8 ++ b) = .ok (.byte b) ∧
    (s.phase = .idle → exec (.byte b) s = .next
      { s with
        phase := .hdr
        idx := 1#16
        acc := crcStep 0x00000000#32 b
        hdr := (Vector.replicate 27 0x00#8).setIfInBounds 0 b
        payLen := 0#16
        npktDone := 0#8
        laceOpen := false })

/-- BYTE in HDR before byte 26: captured as received, absorbed as zero in the checksum field, and no
check of any kind (R124, R125). -/
def Obligations.ByteInHeaderIsCaptured : Prop :=
  ∀ (b : Byte) (s : State), s.phase = .hdr → s.idx.toNat ≤ 25 → exec (.byte b) s = .next
    { s with
      hdr := s.hdr.setIfInBounds s.idx.toNat b
      acc := crcStep s.acc (if 22 ≤ s.idx.toNat then 0x00#8 else b)
      idx := s.idx + 1#16 }

/-- Header byte 26: the signature is tested first, then the version under its parameter; an empty
table ends the page in the same step, and otherwise the table begins (R126, R136). On either fault
`idx` stays 27. -/
def Obligations.HeaderEndChecksInOrder : Prop :=
  ∀ (b : Byte) (s : State), s.phase = .hdr → s.idx = 26#16 →
    let t : State := { s with
      hdr := s.hdr.setIfInBounds 26 b
      acc := crcStep s.acc b
      idx := 27#16 }
    t.nseg = b ∧ exec (.byte b) s = .next
      (if t.magic ≠ t.cfg.pMagic then { t with phase := .err, err := .invalidSignature }
      else if t.cfg.pVersionCheck = true ∧ t.version ≠ 0x00#8 then
        { t with phase := .err, err := .unsupportedVersion }
      else if b = 0x00#8 then ({ t with idx := 0#16 } : State).pageEnd
      else { t with phase := .seg, idx := 0#16 })

/-- BYTE in SEG: one lacing value is captured, absorbed, summed and classified; the last one leads to
the payload, or to the end of the page where the sum is zero (R127, R129). -/
def Obligations.ByteInTableRunsLacing : Prop :=
  ∀ (b : Byte) (s : State), s.phase = .seg → s.idx.toNat < 255 →
    let t : State := { s with
      seg := Memory.write s.seg s.idx.toNat b
      acc := crcStep s.acc b
      payLen := s.payLen + zext16 b
      laceOpen := b == 255#8
      npktDone := if b = 255#8 then s.npktDone else s.npktDone + 1#8
      idx := s.idx + 1#16 }
    exec (.byte b) s = .next
      (if t.idx = zext16 t.nseg then
        if t.payLen = 0#16 then ({ t with idx := 0#16 } : State).pageEnd
        else { t with phase := .pay, idx := 0#16 }
      else t)

/-- BYTE in PAY: one payload byte is captured and absorbed; the last one ends the page (R130). -/
def Obligations.ByteInPayloadIsCaptured : Prop :=
  ∀ (b : Byte) (s : State), s.phase = .pay → s.idx.toNat < 65025 →
    let t : State := { s with
      pay := Memory.write s.pay s.idx.toNat b
      acc := crcStep s.acc b
      idx := s.idx + 1#16 }
    exec (.byte b) s = .next (if t.idx = t.payLen then t.pageEnd else t)

/-- BYTE in DONE or END faults with ILLEGAL_CMD and writes nothing else; in ERR it is ignored (R132,
R133). -/
def Obligations.ByteAfterThePageFaults : Prop :=
  ∀ (b : Byte) (s : State),
    (s.phase = .done ∨ s.phase = .ended →
      exec (.byte b) s = .next { s with phase := .err, err := .illegalCmd }) ∧
    (s.phase = .err → exec (.byte b) s = .next s)

/-- BYTE stops exactly where its space has no byte at `idx` (R60), which no reachable state meets, and it
is never refused; the stop is the model's own (assumption log 6). -/
def Obligations.ByteStopsOnlyOutsideItsSpace : Prop :=
  ∀ (b : Byte) (s : State),
    (s.phase = .hdr → 27 ≤ s.idx.toNat →
      exec (.byte b) s = .fault (.noSuchByte .hdr s.idx.toNat)) ∧
    (s.phase = .seg → 255 ≤ s.idx.toNat →
      exec (.byte b) s = .fault (.noSuchByte .seg s.idx.toNat)) ∧
    (s.phase = .pay → 65025 ≤ s.idx.toNat →
      exec (.byte b) s = .fault (.noSuchByte .pay s.idx.toNat)) ∧
    (∀ f, exec (.byte b) s = .fault f →
      (s.phase = .hdr ∧ 27 ≤ s.idx.toNat) ∨ (s.phase = .seg ∧ 255 ≤ s.idx.toNat) ∨
        (s.phase = .pay ∧ 65025 ≤ s.idx.toNat)) ∧
    (∀ r, exec (.byte b) s ≠ .refused r)

/-- `page_end`: the checksum first, then the continued and multi-packet test; on a fault everything
but `phase` and `err` is kept (R131). -/
def Obligations.PageEndChecksInOrder : Prop :=
  ∀ s : State,
    (s.acc ≠ s.crcStored → s.pageEnd = { s with phase := .err, err := .crcMismatch }) ∧
    (s.acc = s.crcStored → s.fCont = true ∨ 1 < s.npkt →
      s.pageEnd = { s with phase := .err, err := .unsupportedPage }) ∧
    (s.acc = s.crcStored → s.fCont = false → s.npkt ≤ 1 → s.pageEnd = { s with phase := .done })

/-- The lacing machine over a whole table, from its start state: `pay_len` is the table's sum,
`npkt_done` counts its entries below 255, `lace_open` says whether it ends in 255, and `npkt` is the
table's packet count (R29, R30, R31, R128). -/
def Obligations.LacingMachineCountsPackets : Prop :=
  ∀ (s : State) (table : List Byte), table.length ≤ 255 → s.payLen = 0#16 → s.npktDone = 0#8 →
    s.laceOpen = false →
    let t := table.foldl (fun u b => u.laceEntry b) s
    t.payLen.toNat = tableSum table ∧ t.npktDone.toNat = terminatedRuns table ∧
      t.laceOpen = endsOpen table ∧ t.npkt = packetCount table ∧ t.npkt ≤ table.length

/-- BYTE writes one byte of one space, at the index of `storeTarget`, and leaves every other byte as
it was; a page's first byte also clears the other header registers (R57). -/
def Obligations.ByteWritesOneByte : Prop :=
  ∀ (b : Byte) (s t : State), exec (.byte b) s = .next t →
    (∀ sp i, storeTarget s = some (sp, i) → t.byteAt sp i = some b) ∧
    (∀ sp i, storeTarget s ≠ some (sp, i) →
      if s.phase = .idle ∧ sp = .hdr then i < 27 → t.byteAt sp i = some 0x00#8
      else t.byteAt sp i = s.byteAt sp i)

/-- No command but BYTE writes a byte of the buffers, and none but BYTE and RESET a header register;
RESET clears every header register (R57). -/
def Obligations.OtherCommandsWriteNoByte : Prop :=
  ∀ (i : Instr) (s t : State), (∀ b, i ≠ .byte b) → exec i s = .next t →
    (∀ k, t.byteAt .seg k = s.byteAt .seg k) ∧ (∀ k, t.byteAt .pay k = s.byteAt .pay k) ∧
    (i ≠ .reset → ∀ k, t.byteAt .hdr k = s.byteAt .hdr k) ∧
    (i = .reset → ∀ k, k < 27 → t.byteAt .hdr k = some 0x00#8)

/-! ### Faults and the sequencer -/

/-- Which command is allowed in which phase (R177): one that is not raises ILLEGAL_CMD and changes
nothing else; one that is completes without ILLEGAL_CMD, EOS in END or with SHORT_READ; in ERR all but
RESET, which executes, are ignored. The rule that an allowed command executes by is stated in
NopChangesNothing, ResetCommandGivesResetState, NextReleasesThePage, CrcClrClearsAccumulator,
CrcAbsAbsorbsOneByte, EosEndsTheStreamOrFaults, and for BYTE in ByteInIdleStartsPage,
ByteInHeaderIsCaptured, ByteInTableRunsLacing and ByteInPayloadIsCaptured. -/
def Obligations.ForbiddenCommandsFault : Prop :=
  ∀ (i : Instr) (s : State),
    (s.phase ≠ .err → permitted s.phase i = false →
      exec i s = .next { s with phase := .err, err := .illegalCmd }) ∧
    (s.phase ≠ .err → permitted s.phase i = true →
      ∀ t, exec i s = .next t → t.err ≠ .illegalCmd ∨ s.err = .illegalCmd) ∧
    (BlockInv s → s.phase ≠ .err → permitted s.phase i = true →
      ∃ t, exec i s = .next t ∧ t.err ≠ .illegalCmd ∧
        (i = .eos → (t.phase, t.err) =
          if s.phase = .idle then (Phase.ended, ErrCode.none) else (Phase.err, ErrCode.shortRead))) ∧
    (s.phase = .err → exec i s = if i = .reset then .next s.resetRegisters else .next s)

/-- The complete transition table of the sequencer (R139): the column of the illegal words, the row of
ERR, and every other entry; with the table's remarks: from HDR the outcomes
of `page_end` need an empty table, from SEG an empty payload, and UNSUPPORTED_PAGE from HDR needs
the continued flag. -/
def Obligations.SequencerFollowsTransitionTable : Prop :=
  (∀ w e, decode w = .error e → ActsAsIllegalWord w) ∧
  (∀ (i : Instr) (s t : State), s.phase = .err → exec i s = .next t →
    t.phase = if i = .reset then .idle else .err) ∧
  ∀ (i : Instr) (s t : State), BlockInv s → s.phase ≠ .err → exec i s = .next t →
    (t.phase, t.err) ∈ targets s.phase (atBoundary s) i ∧
    (s.phase = .hdr → t.phase = .done ∨ t.err = .crcMismatch ∨ t.err = .unsupportedPage →
      t.nseg = 0x00#8) ∧
    (s.phase = .seg → t.phase = .done ∨ t.err = .crcMismatch ∨ t.err = .unsupportedPage →
      t.payLen = 0#16) ∧
    (s.phase = .hdr → t.err = .unsupportedPage → t.fCont = true)

/-- A fault that is not BYTE's own keeps everything but `phase` and `err` (R179, R180). -/
def Obligations.FaultEntryKeepsTheRest : Prop :=
  ∀ (i : Instr) (s t : State), (∀ b, i = .byte b → s.phase = .done ∨ s.phase = .ended) →
    s.phase ≠ .err → exec i s = .next t → t.phase = .err →
    t = { s with phase := .err, err := t.err } ∧ (t.err = .shortRead ∨ t.err = .illegalCmd)

/-- Only a BYTE leads to DONE, and only where the page has passed its checks (R131, R137): those of
`page_end` from every state, and, from a state that satisfies the invariant, those of `header_end` as
well. -/
def Obligations.DoneOnlyThroughTheChecks : Prop :=
  ∀ s t, s.phase ≠ .done → step s = .next t → t.phase = .done →
    (∃ w b rest, s.inputs = .command w :: rest ∧ decode w = .ok (.byte b)) ∧
    t.acc = t.crcStored ∧ t.fCont = false ∧ t.npkt ≤ 1 ∧
    (BlockInv s →
      t.magic = t.cfg.pMagic ∧ (t.cfg.pVersionCheck = true → t.version = 0x00#8))

/-- The stream ends only with an EOS command in IDLE, which writes `phase` alone (R142, R186). -/
def Obligations.EndOnlyThroughEos : Prop :=
  ∀ s t, s.phase ≠ .ended → step s = .next t → t.phase = .ended →
    s.phase = .idle ∧ (∃ rest, s.inputs = .command 0x2100#16 :: rest) ∧
    t = { s with phase := .ended, inputs := s.inputs.tail }

/-- The buffers' contents change no outcome: two states that differ in them alone step to states that
differ in them alone (R202). -/
def Obligations.BuffersChangeNoOutcome : Prop :=
  ∀ (s t : State) (m m' : Memory), step s = .next t →
    ∃ n n', step { s with seg := m, pay := m' } = .next { t with seg := n, pay := n' }

/-- What the direct commands or an earlier page left in the registers cannot reach a page: its first
byte gives the same state whatever they held (R110, R123). -/
def Obligations.FirstByteForgetsTheRegisters : Prop :=
  ∀ (b : Byte) (s u : State), s.phase = .idle → u.phase = .idle → s.err = u.err → s.seg = u.seg →
    s.pay = u.pay → s.cfg = u.cfg → s.inputs = u.inputs → exec (.byte b) s = exec (.byte b) u

/-! ### Invariants -/

/-- The invariant holds after reset, under every configuration and whatever the host will present. -/
def Obligations.ResetSatisfiesInvariant : Prop :=
  ∀ cfg inputs, BlockInv { State.reset with cfg := cfg, inputs := inputs }

/-- Every step keeps the invariant. -/
def Obligations.StepKeepsInvariant : Prop :=
  ∀ s t, BlockInv s → step s = .next t → BlockInv t

/-- The block is never stuck: in every state that satisfies the invariant, whatever is presented, the
step completes (R211). -/
def Obligations.StepAlwaysCompletes : Prop :=
  ∀ s, BlockInv s → ∃ t, step s = .next t

/-- The invariants of R44, clause by clause, in every state reachable from reset. -/
def Obligations.ReachableStatesMeetRuleInvariants : Prop :=
  ∀ s, Reachable s →
    (s.err = .none ↔ s.phase ≠ .err) ∧
    s.phase.code ≠ 6#3 ∧
    (s.phase = .hdr → 1 ≤ s.idx.toNat ∧ s.idx.toNat ≤ 26) ∧
    (s.phase = .seg → 1 ≤ s.nseg.toNat ∧ s.idx.toNat < s.nseg.toNat) ∧
    (s.phase = .pay → 1 ≤ s.payLen.toNat ∧ s.idx.toNat < s.payLen.toNat) ∧
    (s.phase = .done → s.idx = s.payLen) ∧
    (s.phase = .pay ∨ s.phase = .done →
      ∃ table, Memory.firstBytes s.seg s.nseg.toNat = some table ∧
        s.payLen.toNat = tableSum table ∧ s.npktDone.toNat = terminatedRuns table ∧
        (s.laceOpen = true ↔
          1 ≤ s.nseg.toNat ∧ s.byteAt .seg (s.nseg.toNat - 1) = some 255#8)) ∧
    (s.phase = .done →
      s.magic = s.cfg.pMagic ∧ s.acc = s.crcStored ∧ s.fCont = false ∧ s.npkt ≤ 1 ∧
        (s.cfg.pVersionCheck = true → s.version = 0x00#8)) ∧
    (s.phase = .done →
      ∃ table body, Memory.firstBytes s.seg s.nseg.toNat = some table ∧ s.packet = some body ∧
        s.acc = crc32Ogg (crcHeader s.hdr ++ table ++ body))

/-- No counter overflows in a reachable state, and every addition that a BYTE makes to one is exact
(R151). -/
def Obligations.CountersNeverWrap : Prop :=
  ∀ s, Reachable s →
    (s.phase = .hdr → s.idx.toNat ≤ 27) ∧ (s.phase = .seg → s.idx.toNat ≤ s.nseg.toNat) ∧
    (s.phase = .pay → s.idx.toNat ≤ s.payLen.toNat) ∧
    s.payLen.toNat ≤ 65025 ∧
    s.npktDone.toNat ≤ s.nseg.toNat ∧ s.npkt ≤ s.nseg.toNat ∧ s.nseg.toNat ≤ 255 ∧
    (s.phase = .hdr ∨ s.phase = .seg ∨ s.phase = .pay →
      (s.idx + 1#16).toNat = s.idx.toNat + 1) ∧
    (s.phase = .seg → (s.npktDone + 1#8).toNat = s.npktDone.toNat + 1 ∧
      ∀ b, (s.payLen + zext16 b).toNat = s.payLen.toNat + b.toNat)

/-- Canonical buffers that read alike are the same data. -/
def Obligations.CanonicalBuffersAreEqualByReads : Prop :=
  ∀ (n : Nat) (m m' : Memory), Memory.wf n m = true → Memory.wf n m' = true →
    (∀ i, Memory.read m i = Memory.read m' i) → m = m'

/-! ### Whole pages and streams -/

/-- Every well-formed page, with any checksum in its field, fed as BYTE commands from IDLE, meets the
verdict of its checks in their order: accepted, or faulted with the first error (R126, R131, R182);
the bytes after a fault are ignored (R133). -/
def Obligations.PageMeetsItsVerdict : Prop :=
  ∀ (s : State) (p : PageFields) (crc : Word), s.phase = .idle → s.err = .none → p.wf = true →
    ∃ t, runCommands (asmBytes (p.bytesWith crc)) s = .next t ∧
      t.cfg = s.cfg ∧ t.inputs = s.inputs ∧ t.err = verdict s.cfg p crc ∧
      t.phase = (if verdict s.cfg p crc = .none then .done else .err)

/-- A page that meets no error is held in DONE with its fields, its table and its packet, after
exactly `27 + nseg + pay_len` BYTE commands (R137, R143). -/
def Obligations.AcceptedPageIsHeldWhole : Prop :=
  ∀ (s : State) (p : PageFields), s.phase = .idle → s.err = .none → p.wf = true →
    verdict s.cfg p p.checksum = .none →
    p.bytes.length = 27 + p.table.length + tableSum p.table ∧
    ∃ t, runCommands (asmBytes p.bytes) s = .next t ∧ t.phase = .done ∧ t.err = .none ∧
      t.magic = p.magic ∧ t.version = p.version ∧ t.flags = p.flags ∧ t.granule = p.granule ∧
      t.serial = p.serial ∧ t.seqno = p.seqno ∧ t.crcStored = p.checksum ∧ t.acc = p.checksum ∧
      t.nseg.toNat = p.table.length ∧ t.payLen.toNat = tableSum p.table ∧ t.idx = t.payLen ∧
      t.npkt = packetCount p.table ∧ t.laceOpen = endsOpen p.table ∧
      Memory.firstBytes t.seg t.nseg.toNat = some p.table ∧ t.packet = some p.payload

/-- The host protocol on a stream of acceptable pages hands over every page's payload, in order, and
ends cleanly (R17): from a block in IDLE, and after a RESET from any state. -/
def Obligations.StreamOfPagesDeliversEveryPacket : Prop :=
  ∀ (s : State) (ps : List PageFields),
    (∀ p ∈ ps, p.wf = true ∧ verdict s.cfg p p.checksum = .none) →
    (s.phase = .idle → s.err = .none →
      ∃ t, hostStream (ps.flatMap PageFields.bytes) s = .next (ps.map PageFields.payload, t) ∧
        t.phase = .ended ∧ t.err = .none) ∧
    (∃ t, hostDecode (ps.flatMap PageFields.bytes) s = .next (ps.map PageFields.payload, t) ∧
      t.phase = .ended ∧ t.err = .none)

/-- A stream that ends inside an acceptable page is a short read, wherever it ends, and hands over no
packet; one that ends before the page's first byte ends cleanly (R135, R175). -/
def Obligations.TruncatedPageIsShortRead : Prop :=
  ∀ (s : State) (p : PageFields) (n : Nat), s.phase = .idle → s.err = .none → p.wf = true →
    verdict s.cfg p p.checksum = .none → n < p.bytes.length →
    ∃ t, hostStream (p.bytes.take n) s = .next ([], t) ∧
      (0 < n → t.phase = .err ∧ t.err = .shortRead) ∧ (n = 0 → t.phase = .ended ∧ t.err = .none)

/-- One byte of an acceptable page changed (R152): in the magic the signature fails; anywhere else
but the segment count and the table the checksum fails, or, with P_VERSION_CHECK, the version. -/
def Obligations.OneByteMutationIsNeverAccepted : Prop :=
  ∀ (s : State) (p : PageFields) (k : Nat) (v : Byte) (h : k < p.bytes.length),
    s.phase = .idle → s.err = .none → p.wf = true → verdict s.cfg p p.checksum = .none →
    v ≠ p.bytes[k] →
    k ≠ 26 → ¬ (27 ≤ k ∧ k < 27 + p.table.length) →
    ∃ t, runCommands (asmBytes (p.bytes.set k v)) s = .next t ∧ t.phase = .err ∧
      t.err = (if k < 4 then .invalidSignature
        else if k = 4 ∧ s.cfg.pVersionCheck = true then .unsupportedVersion
        else .crcMismatch)

/-! ### Views and the read port -/

/-- The named views are the header bytes in little-endian order (R27, R55, R56): byte `k` of each
view, from its low end, is the header register at the view's offset plus `k`. -/
def Obligations.HeaderViewsAreLittleEndian : Prop :=
  ∀ s : State,
    (∀ k : Fin 4, s.magic.extractLsb' (8 * k) 8 = s.hdr[k.val]) ∧
    s.version = s.hdr[4] ∧ s.flags = s.hdr[5] ∧
    (∀ k : Fin 8, s.granule.extractLsb' (8 * k) 8 = s.hdr[6 + k.val]) ∧
    (∀ k : Fin 4, s.serial.extractLsb' (8 * k) 8 = s.hdr[14 + k.val]) ∧
    (∀ k : Fin 4, s.seqno.extractLsb' (8 * k) 8 = s.hdr[18 + k.val]) ∧
    (∀ k : Fin 4, s.crcStored.extractLsb' (8 * k) 8 = s.hdr[22 + k.val]) ∧
    s.nseg = s.hdr[26]

/-- Every selector of the read port, field by field (R41), with the flag and status views that STATUS
shows written out from the header registers and the counters (R28, R31) and the numbers of the phases
and of the error codes written out (R21, R170); the reserved ones are refused. -/
def Obligations.ReadSelectorsShowTheState : Prop :=
  ∀ s : State,
    (s.fCont = s.hdr[5].getLsbD 0 ∧ s.fBos = s.hdr[5].getLsbD 1 ∧ s.fEos = s.hdr[5].getLsbD 2 ∧
      s.npkt = s.npktDone.toNat + (if s.laceOpen = true then 1 else 0) ∧
      (s.multi = true ↔ 1 < s.npkt) ∧ (s.crcOk = true ↔ s.acc = s.crcStored)) ∧
    (∃ v, s.readReg 0x0#4 = .ok v ∧
      (s.phase = .idle ↔ v.extractLsb' 0 3 = 0#3) ∧ (s.phase = .hdr ↔ v.extractLsb' 0 3 = 1#3) ∧
      (s.phase = .seg ↔ v.extractLsb' 0 3 = 2#3) ∧ (s.phase = .pay ↔ v.extractLsb' 0 3 = 3#3) ∧
      (s.phase = .done ↔ v.extractLsb' 0 3 = 4#3) ∧ (s.phase = .ended ↔ v.extractLsb' 0 3 = 5#3) ∧
      (s.phase = .err ↔ v.extractLsb' 0 3 = 7#3) ∧
      (s.err = .none ↔ v.extractLsb' 3 3 = 0#3) ∧
      (s.err = .invalidSignature ↔ v.extractLsb' 3 3 = 1#3) ∧
      (s.err = .unsupportedVersion ↔ v.extractLsb' 3 3 = 2#3) ∧
      (s.err = .crcMismatch ↔ v.extractLsb' 3 3 = 3#3) ∧
      (s.err = .unsupportedPage ↔ v.extractLsb' 3 3 = 4#3) ∧
      (s.err = .shortRead ↔ v.extractLsb' 3 3 = 5#3) ∧
      (s.err = .illegalCmd ↔ v.extractLsb' 3 3 = 6#3) ∧
      v.extractLsb' 0 3 = s.phase.code ∧ v.extractLsb' 3 3 = s.err.code ∧
      v.extractLsb' 6 2 = 0#2 ∧ v.getLsbD 8 = s.hdr[5].getLsbD 0 ∧
      v.getLsbD 9 = s.hdr[5].getLsbD 1 ∧ v.getLsbD 10 = s.hdr[5].getLsbD 2 ∧
      v.getLsbD 11 = s.laceOpen ∧ (v.getLsbD 12 = true ↔ 1 < s.npkt) ∧
      (v.getLsbD 13 = true ↔ s.acc = s.crcStored) ∧ v.extractLsb' 14 2 = 0#2 ∧
      v.extractLsb' 16 8 = BitVec.ofNat 8 s.npkt ∧ v.extractLsb' 24 8 = 0#8) ∧
    s.readReg 0x1#4 = .ok (s.idx.setWidth 32) ∧
    s.readReg 0x2#4 = .ok s.acc ∧ s.readReg 0x3#4 = .ok s.crcStored ∧
    s.readReg 0x4#4 = .ok s.magic ∧
    s.readReg 0x5#4 = .ok (0#8 ++ s.nseg ++ s.flags ++ s.version) ∧
    s.readReg 0x6#4 = .ok (s.granule.extractLsb' 0 32) ∧
    s.readReg 0x7#4 = .ok (s.granule.extractLsb' 32 32) ∧
    s.readReg 0x8#4 = .ok s.serial ∧ s.readReg 0x9#4 = .ok s.seqno ∧
    s.readReg 0xA#4 = .ok (0#8 ++ s.npktDone ++ s.payLen) ∧
    (∀ sel : BitVec 4, 0xB#4 ≤ sel → s.readReg sel = .error (.reservedSelector sel))

/-- Host reads of a space: the stored byte; refused outside the space, and where no step has written
the byte since hardware reset (R60, R62). The header registers always answer. -/
def Obligations.MemReadReturnsStoredByte : Prop :=
  ∀ s : State,
    (∀ i b, i < 27 → s.hdr[i]? = some b → s.memRead .hdr i = .ok b) ∧
    (∀ i b, i < 255 → Memory.read s.seg i = some b → s.memRead .seg i = .ok b) ∧
    (∀ i b, i < 65025 → Memory.read s.pay i = some b → s.memRead .pay i = .ok b) ∧
    (∀ i, i < 255 → Memory.read s.seg i = none → s.memRead .seg i = .error (.neverWritten .seg i)) ∧
    (∀ i, i < 65025 → Memory.read s.pay i = none →
      s.memRead .pay i = .error (.neverWritten .pay i)) ∧
    (∀ sp i, sp.size ≤ i → s.memRead sp i = .error (.indexOutOfRange sp i))

/-- In a reachable state the host may read every byte of the page's windows (R42, R202), by the windows
that the state alone tells and by those of what the host knows. How the two are kept is the model's
(assumption log 17). -/
def Obligations.CurrentPageBytesAreReadable : Prop :=
  ∀ s k, (Reachable s ∧ k = s.heldPage) ∨ Known k s →
    ∀ sp i, i < s.windowOf k sp → ∃ b, s.memRead sp i = .ok b

/-- The three level outputs: each is 1 in exactly one phase (R39). -/
def Obligations.LevelOutputsFollowPhase : Prop :=
  ∀ s : State, (s.outDone = true ↔ s.phase = .done) ∧ (s.outFault = true ↔ s.phase = .err) ∧
    (s.outEnded = true ↔ s.phase = .ended)

/-- In ERR the header window is that of the phase the fault was taken in (R42): in HDR the bytes
consumed before a fault that is not the byte's own, all 27 where the byte's own fault is that of a whole
header; in SEG, PAY and DONE all 27; between pages what it was before the fault. From DONE this needs a
P_MAGIC other than zero (assumption log 17). -/
def Obligations.FaultKeepsTheHeaderWindow : Prop :=
  ∀ (w : Half) (s t : State), BlockInv s → s.phase ≠ .err → runWord w s = .next t →
    t.phase = .err →
    (s.phase = .hdr → (∀ b, decode w ≠ .ok (.byte b)) → t.window .hdr = s.idx.toNat) ∧
    (s.phase = .hdr → (∃ b, decode w = .ok (.byte b)) → t.window .hdr = 27) ∧
    (s.phase = .seg ∨ s.phase = .pay → t.window .hdr = 27) ∧
    (s.phase = .done → s.cfg.pMagic ≠ 0x00000000#32 → t.window .hdr = 27) ∧
    (s.phase = .idle ∨ s.phase = .ended → t.window .hdr = s.window .hdr)

/-- Where the model's reading of R42 calls `pay_len`, `npkt` and `multi` the page's totals, they are those
of its table; where it calls `acc` the page's checksum, it is the CRC of the page's bytes, and `crc_ok`
is what R31 says of it. The reading (`totalsHeldOf`, `checksumHeldOf`, by the state alone or by what the
host knows) is the model's own (assumption log 17). -/
def Obligations.PageTotalsAndChecksumAreThePages : Prop :=
  ∀ s k, (Reachable s ∧ k = s.heldPage) ∨ Known k s →
    (s.totalsHeldOf k = true → ∃ table, Memory.firstBytes s.seg s.nseg.toNat = some table ∧
      s.payLen.toNat = tableSum table ∧ s.npkt = packetCount table ∧
      (s.multi = true ↔ 1 < packetCount table)) ∧
    (s.checksumHeldOf k = true → ∃ table body,
      Memory.firstBytes s.seg s.nseg.toNat = some table ∧
      Memory.firstBytes s.pay s.payLen.toNat = some body ∧
      s.acc = crc32Ogg (crcHeader s.hdr ++ table ++ body) ∧
      (s.crcOk = true ↔ s.err ≠ .crcMismatch))

/-- What NEXT and each fault leave of the windows, the totals and the checksum, by what the host knows (R42;
the reading is the model's, assumption log 17). NEXT changes none of them. A fault leaves of a page in HDR
the bytes of it consumed, and of one in SEG, PAY or DONE the whole header, whatever P_MAGIC is; of its
table and payload it leaves nothing, and its totals and checksum only where `page_end` raised it. A fault
between pages leaves the released page's as they were. -/
def Obligations.KnownWindowsAfterNextAndFaults : Prop :=
  ∀ k s t w rest, Known k s → s.inputs = .command w :: rest → step s = .next t →
    (decode w = .ok .next → s.phase = .done →
      (∀ sp, t.windowOf (k.after (.command w) t) sp = s.windowOf k sp) ∧
      t.totalsHeldOf (k.after (.command w) t) = true ∧
      t.checksumHeldOf (k.after (.command w) t) = true) ∧
    (s.phase ≠ .err → t.phase = .err →
      (s.phase = .hdr → (∀ b, decode w ≠ .ok (.byte b)) →
        t.windowOf (k.after (.command w) t) .hdr = s.idx.toNat) ∧
      (s.phase = .hdr → (∃ b, decode w = .ok (.byte b)) →
        t.windowOf (k.after (.command w) t) .hdr = 27) ∧
      (s.phase = .seg ∨ s.phase = .pay ∨ s.phase = .done →
        t.windowOf (k.after (.command w) t) .hdr = 27) ∧
      (s.phase ≠ .idle → s.phase ≠ .ended →
        t.windowOf (k.after (.command w) t) .seg = 0 ∧
        t.windowOf (k.after (.command w) t) .pay = 0 ∧
        (t.totalsHeldOf (k.after (.command w) t) = true ↔
          t.err = .crcMismatch ∨ t.err = .unsupportedPage) ∧
        (t.checksumHeldOf (k.after (.command w) t) = true ↔
          t.err = .crcMismatch ∨ t.err = .unsupportedPage)) ∧
      (s.phase = .idle ∨ s.phase = .ended →
        (∀ sp, t.windowOf (k.after (.command w) t) sp = s.windowOf k sp) ∧
        t.totalsHeldOf (k.after (.command w) t) = s.totalsHeldOf k ∧
        t.checksumHeldOf (k.after (.command w) t) = s.checksumHeldOf k))

/-- Under a P_MAGIC other than zero the state alone tells the page it holds, but that in ERR it does not
tell a released page from the current one (R42, R106, R179; assumption log 17). -/
def Obligations.StateTellsTheHeldPage : Prop :=
  ∀ k s, Known k s → s.cfg.pMagic ≠ 0x00000000#32 →
    s.heldPage = (if s.phase = .err ∧ k = .released then .current else k)
end

