-- ==== Sys2Proof/Laws/Crc.lean ====
section
/-! SUPPORT. The arithmetic of the CRC engine, one iteration at a time, and the printed table, part by
part. -/

namespace Sys2Proof.Machine

/-- One iteration is linear (R107). -/
theorem crcBit_xor (t u : Word) : crcBit (t ^^^ u) = crcBit t ^^^ crcBit u := by
  unfold crcBit
  rw [BitVec.getLsbD_xor]
  cases t.getLsbD 31 <;> cases u.getLsbD 31 <;> simp [BitVec.shiftLeft_xor_distrib]
  · ac_rfl
  · ac_rfl
  · rw [show (t <<< 1 ^^^ crcPoly ^^^ (u <<< 1 ^^^ crcPoly)) =
      t <<< 1 ^^^ u <<< 1 ^^^ (crcPoly ^^^ crcPoly) by ac_rfl]
    simp

theorem repeat_crcBit_xor (n : Nat) (t u : Word) :
    Nat.repeat crcBit n (t ^^^ u) = Nat.repeat crcBit n t ^^^ Nat.repeat crcBit n u := by
  induction n with
  | zero => rfl
  | succ n ih => simp only [Nat.repeat, ih, crcBit_xor]

/-- A checksum grows by one byte step at the end of the message (R105). -/
theorem crc32Ogg_snoc (m : List Byte) (b : Byte) :
    crc32Ogg (m ++ [b]) = crcStep (crc32Ogg m) b := by simp [crc32Ogg]

@[simp] theorem crc32Ogg_nil : crc32Ogg [] = 0x00000000#32 := rfl

theorem crcTablePart0_eq :
    crcTablePart0 = (List.range' 0 32).map fun i => crcTableEntry (BitVec.ofNat 8 i) := by
  decide +kernel
theorem crcTablePart1_eq :
    crcTablePart1 = (List.range' 32 32).map fun i => crcTableEntry (BitVec.ofNat 8 i) := by
  decide +kernel
theorem crcTablePart2_eq :
    crcTablePart2 = (List.range' 64 32).map fun i => crcTableEntry (BitVec.ofNat 8 i) := by
  decide +kernel
theorem crcTablePart3_eq :
    crcTablePart3 = (List.range' 96 32).map fun i => crcTableEntry (BitVec.ofNat 8 i) := by
  decide +kernel
theorem crcTablePart4_eq :
    crcTablePart4 = (List.range' 128 32).map fun i => crcTableEntry (BitVec.ofNat 8 i) := by
  decide +kernel
theorem crcTablePart5_eq :
    crcTablePart5 = (List.range' 160 32).map fun i => crcTableEntry (BitVec.ofNat 8 i) := by
  decide +kernel
theorem crcTablePart6_eq :
    crcTablePart6 = (List.range' 192 32).map fun i => crcTableEntry (BitVec.ofNat 8 i) := by
  decide +kernel
theorem crcTablePart7_eq :
    crcTablePart7 = (List.range' 224 32).map fun i => crcTableEntry (BitVec.ofNat 8 i) := by
  decide +kernel

end Sys2Proof.Machine
end

