-- ==== Sys2Proof/Laws/Decode.lean ====
section
/-! SUPPORT. The fields of a command word: reading them, and putting a word together from them. -/

namespace Sys2Proof

theorem append_toNat (a b : Byte) : (show Half from a ++ b).toNat = a.toNat * 256 + b.toNat := by
  have h := BitVec.toNat_append a b
  rw [← Nat.shiftLeft_add_eq_or_of_lt b.isLt, Nat.shiftLeft_eq] at h
  exact h

theorem opField_toNat (w : Half) : (opField w).toNat = w.toNat / 256 := by
  have := w.isLt
  simp only [opField, BitVec.extractLsb'_toNat, Nat.shiftRight_eq_div_pow]
  omega

theorem argField_toNat (w : Half) : (argField w).toNat = w.toNat % 256 := by
  simp [argField, BitVec.extractLsb'_toNat]

@[simp] theorem opField_append (a b : Byte) : opField (a ++ b) = a := by
  apply BitVec.eq_of_toNat_eq
  rw [opField_toNat, append_toNat]
  have := b.isLt
  omega

@[simp] theorem argField_append (a b : Byte) : argField (a ++ b) = b := by
  apply BitVec.eq_of_toNat_eq
  rw [argField_toNat, append_toNat]
  have := b.isLt
  omega

/-- A word is its two fields (R70). -/
theorem append_fields (w : Half) : opField w ++ argField w = w := by
  apply BitVec.eq_of_toNat_eq
  rw [append_toNat, opField_toNat, argField_toNat]
  omega

theorem formatOf_append (a b : Byte) : formatOf (a ++ b) = { op := a, arg := b } := by
  simp [formatOf]

/-- The word that an instruction encodes to has the instruction's two fields. -/
theorem formatOf_encode (i : Instr) : formatOf (encode i) = { op := opcodeOf i, arg := operandOf i } :=
  formatOf_append _ _

end Sys2Proof
end

