-- ==== Sys2Proof/Laws/Memory.lean ====
section
/-! SUPPORT. The laws of the buffers: a read after a write, the canonical form, and the bytes at the
front of a buffer. -/

namespace Sys2Proof.Machine.Memory

/-- A write sets its own byte and changes no other (R57). -/
theorem read_write (m : Memory) (i j : Nat) (b : Byte) :
    read (write m i b) j = if i = j then some b else read m j := by
  induction m with
  | nil => simp [write, read]
  | cons e m ih =>
    obtain ⟨a, c⟩ := e
    simp only [write]
    split
    · simp [read]
    · split
      · subst_vars; simp only [read]; split <;> simp_all
      · simp only [read, ih]; split <;> split <;> simp_all

@[simp] theorem read_write_same (m : Memory) (i : Nat) (b : Byte) :
    read (write m i b) i = some b := by simp [read_write]

theorem read_write_other (m : Memory) {i j : Nat} (b : Byte) (h : i ≠ j) :
    read (write m i b) j = read m j := by simp [read_write, h]

/-- Every index below `lo` is unlisted. -/
theorem read_of_risesWithin {lo size : Nat} {m : Memory} (h : risesWithin lo size m = true)
    {i : Nat} (hi : i < lo) : read m i = none := by
  induction m generalizing lo with
  | nil => rfl
  | cons e m ih =>
    obtain ⟨a, c⟩ := e
    simp only [risesWithin, Bool.and_eq_true, decide_eq_true_eq] at h
    have := ih h.2 (by omega)
    simp only [read, this]
    split <;> first | omega | rfl

/-- A write inside the space keeps the canonical form. -/
theorem risesWithin_write {lo size : Nat} {m : Memory} (h : risesWithin lo size m = true)
    {i : Nat} (b : Byte) (hlo : lo ≤ i) (hi : i < size) :
    risesWithin lo size (write m i b) = true := by
  induction m generalizing lo with
  | nil => simp [write, risesWithin, hlo, hi]
  | cons e m ih =>
    obtain ⟨a, c⟩ := e
    simp only [risesWithin, Bool.and_eq_true, decide_eq_true_eq] at h
    obtain ⟨⟨h1, h2⟩, h3⟩ := h
    simp only [write]
    split
    · simp only [risesWithin, Bool.and_eq_true, decide_eq_true_eq]; exact ⟨⟨hlo, hi⟩, ⟨by omega, h2⟩, h3⟩
    · split
      · subst_vars; simp only [risesWithin, Bool.and_eq_true, decide_eq_true_eq]; exact ⟨⟨h1, h2⟩, h3⟩
      · simp only [risesWithin, Bool.and_eq_true, decide_eq_true_eq]
        exact ⟨⟨h1, h2⟩, ih h3 (by omega)⟩

theorem wf_write {size : Nat} {m : Memory} (h : wf size m = true) {i : Nat} (b : Byte)
    (hi : i < size) : wf size (write m i b) = true :=
  risesWithin_write h b (Nat.zero_le i) hi

@[simp] theorem wf_nil (size : Nat) : wf size [] = true := rfl

/-- A canonical buffer lists no index outside its space. -/
theorem read_of_wf {size : Nat} {m : Memory} (h : wf size m = true) {i : Nat} (hi : size ≤ i) :
    read m i = none := by
  suffices ∀ lo, risesWithin lo size m = true → read m i = none from this 0 h
  clear h
  induction m with
  | nil => intros; rfl
  | cons e m ih =>
    obtain ⟨a, c⟩ := e
    intro lo h
    simp only [risesWithin, Bool.and_eq_true, decide_eq_true_eq] at h
    simp only [read, ih _ h.2]
    split <;> first | omega | rfl

/-- `firstBytes` answers the list whose bytes are the reads. -/
theorem firstBytes_eq_some {m : Memory} {n : Nat} {bs : List Byte} :
    firstBytes m n = some bs ↔ bs.length = n ∧ ∀ i, i < n → read m i = bs[i]? := by
  induction n generalizing bs with
  | zero => simp [firstBytes, @eq_comm _ [] bs]
  | succ n ih =>
    rw [firstBytes]
    constructor
    · intro h
      split at h
      · rename_i as b h1 h2
        obtain ⟨hl, hr⟩ := ih.1 h1
        simp only [Option.some.injEq] at h
        subst h
        refine ⟨by simp [hl], fun i hi => ?_⟩
        by_cases e : i = n
        · subst e; rw [h2]; simp [← hl]
        · rw [hr i (by omega), List.getElem?_append_left (by omega)]
      · exact absurd h (by simp)
    · rintro ⟨hl, hr⟩
      have h1 : firstBytes m n = some (bs.take n) :=
        ih.2 ⟨by simp [hl], fun i hi => by rw [hr i (by omega), List.getElem?_take]; simp [hi]⟩
      have h2 : read m n = some bs[n] := by rw [hr n (by omega)]; simp [hl]
      rw [h1, h2]
      simp [hl.le]

/-- A write after the front bytes appends to them. -/
theorem firstBytes_write_succ {m : Memory} {n : Nat} {bs : List Byte} (b : Byte)
    (h : firstBytes m n = some bs) : firstBytes (write m n b) (n + 1) = some (bs ++ [b]) := by
  obtain ⟨hl, hr⟩ := firstBytes_eq_some.1 h
  refine firstBytes_eq_some.2 ⟨by simp [hl], fun i hi => ?_⟩
  by_cases e : i = n
  · subst e; simp [← hl]
  · rw [read_write_other m b (Ne.symm e), hr i (by omega), List.getElem?_append_left (by omega)]

@[simp] theorem firstBytes_zero (m : Memory) : firstBytes m 0 = some [] := rfl

end Sys2Proof.Machine.Memory
end

