-- ==== Sys2Proof/Laws/State.lean ====
section
/-! SUPPORT. One lemma per field per update of the state, so that no later proof unfolds a record
update. -/

namespace Sys2Proof.Machine.State

variable (s : State)

/-! ### `absorb` -/

@[simp] theorem absorb_phase (b : Byte) : (s.absorb b).phase = s.phase := rfl
@[simp] theorem absorb_err (b : Byte) : (s.absorb b).err = s.err := rfl
@[simp] theorem absorb_idx (b : Byte) : (s.absorb b).idx = s.idx := rfl
@[simp] theorem absorb_acc (b : Byte) : (s.absorb b).acc = crcStep s.acc b := rfl
@[simp] theorem absorb_hdr (b : Byte) : (s.absorb b).hdr = s.hdr := rfl
@[simp] theorem absorb_payLen (b : Byte) : (s.absorb b).payLen = s.payLen := rfl
@[simp] theorem absorb_npktDone (b : Byte) : (s.absorb b).npktDone = s.npktDone := rfl
@[simp] theorem absorb_laceOpen (b : Byte) : (s.absorb b).laceOpen = s.laceOpen := rfl
@[simp] theorem absorb_seg (b : Byte) : (s.absorb b).seg = s.seg := rfl
@[simp] theorem absorb_pay (b : Byte) : (s.absorb b).pay = s.pay := rfl
@[simp] theorem absorb_cfg (b : Byte) : (s.absorb b).cfg = s.cfg := rfl
@[simp] theorem absorb_inputs (b : Byte) : (s.absorb b).inputs = s.inputs := rfl

/-! ### `advance` -/

@[simp] theorem advance_phase : (s.advance).phase = s.phase := rfl
@[simp] theorem advance_err : (s.advance).err = s.err := rfl
@[simp] theorem advance_idx : (s.advance).idx = s.idx + 1#16 := rfl
@[simp] theorem advance_acc : (s.advance).acc = s.acc := rfl
@[simp] theorem advance_hdr : (s.advance).hdr = s.hdr := rfl
@[simp] theorem advance_payLen : (s.advance).payLen = s.payLen := rfl
@[simp] theorem advance_npktDone : (s.advance).npktDone = s.npktDone := rfl
@[simp] theorem advance_laceOpen : (s.advance).laceOpen = s.laceOpen := rfl
@[simp] theorem advance_seg : (s.advance).seg = s.seg := rfl
@[simp] theorem advance_pay : (s.advance).pay = s.pay := rfl
@[simp] theorem advance_cfg : (s.advance).cfg = s.cfg := rfl
@[simp] theorem advance_inputs : (s.advance).inputs = s.inputs := rfl

/-! ### `setIdx` -/

@[simp] theorem setIdx_phase (n : Half) : (s.setIdx n).phase = s.phase := rfl
@[simp] theorem setIdx_err (n : Half) : (s.setIdx n).err = s.err := rfl
@[simp] theorem setIdx_idx (n : Half) : (s.setIdx n).idx = n := rfl
@[simp] theorem setIdx_acc (n : Half) : (s.setIdx n).acc = s.acc := rfl
@[simp] theorem setIdx_hdr (n : Half) : (s.setIdx n).hdr = s.hdr := rfl
@[simp] theorem setIdx_payLen (n : Half) : (s.setIdx n).payLen = s.payLen := rfl
@[simp] theorem setIdx_npktDone (n : Half) : (s.setIdx n).npktDone = s.npktDone := rfl
@[simp] theorem setIdx_laceOpen (n : Half) : (s.setIdx n).laceOpen = s.laceOpen := rfl
@[simp] theorem setIdx_seg (n : Half) : (s.setIdx n).seg = s.seg := rfl
@[simp] theorem setIdx_pay (n : Half) : (s.setIdx n).pay = s.pay := rfl
@[simp] theorem setIdx_cfg (n : Half) : (s.setIdx n).cfg = s.cfg := rfl
@[simp] theorem setIdx_inputs (n : Half) : (s.setIdx n).inputs = s.inputs := rfl

/-! ### `setPhase` -/

@[simp] theorem setPhase_phase (p : Phase) : (s.setPhase p).phase = p := rfl
@[simp] theorem setPhase_err (p : Phase) : (s.setPhase p).err = s.err := rfl
@[simp] theorem setPhase_idx (p : Phase) : (s.setPhase p).idx = s.idx := rfl
@[simp] theorem setPhase_acc (p : Phase) : (s.setPhase p).acc = s.acc := rfl
@[simp] theorem setPhase_hdr (p : Phase) : (s.setPhase p).hdr = s.hdr := rfl
@[simp] theorem setPhase_payLen (p : Phase) : (s.setPhase p).payLen = s.payLen := rfl
@[simp] theorem setPhase_npktDone (p : Phase) : (s.setPhase p).npktDone = s.npktDone := rfl
@[simp] theorem setPhase_laceOpen (p : Phase) : (s.setPhase p).laceOpen = s.laceOpen := rfl
@[simp] theorem setPhase_seg (p : Phase) : (s.setPhase p).seg = s.seg := rfl
@[simp] theorem setPhase_pay (p : Phase) : (s.setPhase p).pay = s.pay := rfl
@[simp] theorem setPhase_cfg (p : Phase) : (s.setPhase p).cfg = s.cfg := rfl
@[simp] theorem setPhase_inputs (p : Phase) : (s.setPhase p).inputs = s.inputs := rfl

/-! ### `setSeq` -/

@[simp] theorem setSeq_phase (p : Phase) (n : Half) : (s.setSeq p n).phase = p := rfl
@[simp] theorem setSeq_err (p : Phase) (n : Half) : (s.setSeq p n).err = s.err := rfl
@[simp] theorem setSeq_idx (p : Phase) (n : Half) : (s.setSeq p n).idx = n := rfl
@[simp] theorem setSeq_acc (p : Phase) (n : Half) : (s.setSeq p n).acc = s.acc := rfl
@[simp] theorem setSeq_hdr (p : Phase) (n : Half) : (s.setSeq p n).hdr = s.hdr := rfl
@[simp] theorem setSeq_payLen (p : Phase) (n : Half) : (s.setSeq p n).payLen = s.payLen := rfl
@[simp] theorem setSeq_npktDone (p : Phase) (n : Half) : (s.setSeq p n).npktDone = s.npktDone := rfl
@[simp] theorem setSeq_laceOpen (p : Phase) (n : Half) : (s.setSeq p n).laceOpen = s.laceOpen := rfl
@[simp] theorem setSeq_seg (p : Phase) (n : Half) : (s.setSeq p n).seg = s.seg := rfl
@[simp] theorem setSeq_pay (p : Phase) (n : Half) : (s.setSeq p n).pay = s.pay := rfl
@[simp] theorem setSeq_cfg (p : Phase) (n : Half) : (s.setSeq p n).cfg = s.cfg := rfl
@[simp] theorem setSeq_inputs (p : Phase) (n : Half) : (s.setSeq p n).inputs = s.inputs := rfl

/-! ### `setAcc` -/

@[simp] theorem setAcc_phase (v : Word) : (s.setAcc v).phase = s.phase := rfl
@[simp] theorem setAcc_err (v : Word) : (s.setAcc v).err = s.err := rfl
@[simp] theorem setAcc_idx (v : Word) : (s.setAcc v).idx = s.idx := rfl
@[simp] theorem setAcc_acc (v : Word) : (s.setAcc v).acc = v := rfl
@[simp] theorem setAcc_hdr (v : Word) : (s.setAcc v).hdr = s.hdr := rfl
@[simp] theorem setAcc_payLen (v : Word) : (s.setAcc v).payLen = s.payLen := rfl
@[simp] theorem setAcc_npktDone (v : Word) : (s.setAcc v).npktDone = s.npktDone := rfl
@[simp] theorem setAcc_laceOpen (v : Word) : (s.setAcc v).laceOpen = s.laceOpen := rfl
@[simp] theorem setAcc_seg (v : Word) : (s.setAcc v).seg = s.seg := rfl
@[simp] theorem setAcc_pay (v : Word) : (s.setAcc v).pay = s.pay := rfl
@[simp] theorem setAcc_cfg (v : Word) : (s.setAcc v).cfg = s.cfg := rfl
@[simp] theorem setAcc_inputs (v : Word) : (s.setAcc v).inputs = s.inputs := rfl

/-! ### `raise` -/

@[simp] theorem raise_phase (c : ErrCode) : (s.raise c).phase = .err := rfl
@[simp] theorem raise_err (c : ErrCode) : (s.raise c).err = c := rfl
@[simp] theorem raise_idx (c : ErrCode) : (s.raise c).idx = s.idx := rfl
@[simp] theorem raise_acc (c : ErrCode) : (s.raise c).acc = s.acc := rfl
@[simp] theorem raise_hdr (c : ErrCode) : (s.raise c).hdr = s.hdr := rfl
@[simp] theorem raise_payLen (c : ErrCode) : (s.raise c).payLen = s.payLen := rfl
@[simp] theorem raise_npktDone (c : ErrCode) : (s.raise c).npktDone = s.npktDone := rfl
@[simp] theorem raise_laceOpen (c : ErrCode) : (s.raise c).laceOpen = s.laceOpen := rfl
@[simp] theorem raise_seg (c : ErrCode) : (s.raise c).seg = s.seg := rfl
@[simp] theorem raise_pay (c : ErrCode) : (s.raise c).pay = s.pay := rfl
@[simp] theorem raise_cfg (c : ErrCode) : (s.raise c).cfg = s.cfg := rfl
@[simp] theorem raise_inputs (c : ErrCode) : (s.raise c).inputs = s.inputs := rfl

/-! ### `raiseIllegal` -/

@[simp] theorem raiseIllegal_phase : (s.raiseIllegal).phase = .err := rfl
@[simp] theorem raiseIllegal_err : (s.raiseIllegal).err = .illegalCmd := rfl
@[simp] theorem raiseIllegal_idx : (s.raiseIllegal).idx = s.idx := rfl
@[simp] theorem raiseIllegal_acc : (s.raiseIllegal).acc = s.acc := rfl
@[simp] theorem raiseIllegal_hdr : (s.raiseIllegal).hdr = s.hdr := rfl
@[simp] theorem raiseIllegal_payLen : (s.raiseIllegal).payLen = s.payLen := rfl
@[simp] theorem raiseIllegal_npktDone : (s.raiseIllegal).npktDone = s.npktDone := rfl
@[simp] theorem raiseIllegal_laceOpen : (s.raiseIllegal).laceOpen = s.laceOpen := rfl
@[simp] theorem raiseIllegal_seg : (s.raiseIllegal).seg = s.seg := rfl
@[simp] theorem raiseIllegal_pay : (s.raiseIllegal).pay = s.pay := rfl
@[simp] theorem raiseIllegal_cfg : (s.raiseIllegal).cfg = s.cfg := rfl
@[simp] theorem raiseIllegal_inputs : (s.raiseIllegal).inputs = s.inputs := rfl

/-! ### `resetRegisters` -/

@[simp] theorem resetRegisters_phase : (s.resetRegisters).phase = .idle := rfl
@[simp] theorem resetRegisters_err : (s.resetRegisters).err = .none := rfl
@[simp] theorem resetRegisters_idx : (s.resetRegisters).idx = 0#16 := rfl
@[simp] theorem resetRegisters_acc : (s.resetRegisters).acc = 0x00000000#32 := rfl
@[simp] theorem resetRegisters_hdr : (s.resetRegisters).hdr = Vector.replicate 27 0x00#8 := rfl
@[simp] theorem resetRegisters_payLen : (s.resetRegisters).payLen = 0#16 := rfl
@[simp] theorem resetRegisters_npktDone : (s.resetRegisters).npktDone = 0#8 := rfl
@[simp] theorem resetRegisters_laceOpen : (s.resetRegisters).laceOpen = false := rfl
@[simp] theorem resetRegisters_seg : (s.resetRegisters).seg = s.seg := rfl
@[simp] theorem resetRegisters_pay : (s.resetRegisters).pay = s.pay := rfl
@[simp] theorem resetRegisters_cfg : (s.resetRegisters).cfg = s.cfg := rfl
@[simp] theorem resetRegisters_inputs : (s.resetRegisters).inputs = s.inputs := rfl

/-! ### `hardwareReset` -/

@[simp] theorem hardwareReset_phase : (s.hardwareReset).phase = .idle := rfl
@[simp] theorem hardwareReset_err : (s.hardwareReset).err = .none := rfl
@[simp] theorem hardwareReset_idx : (s.hardwareReset).idx = 0#16 := rfl
@[simp] theorem hardwareReset_acc : (s.hardwareReset).acc = 0x00000000#32 := rfl
@[simp] theorem hardwareReset_hdr : (s.hardwareReset).hdr = Vector.replicate 27 0x00#8 := rfl
@[simp] theorem hardwareReset_payLen : (s.hardwareReset).payLen = 0#16 := rfl
@[simp] theorem hardwareReset_npktDone : (s.hardwareReset).npktDone = 0#8 := rfl
@[simp] theorem hardwareReset_laceOpen : (s.hardwareReset).laceOpen = false := rfl
@[simp] theorem hardwareReset_seg : (s.hardwareReset).seg = [] := rfl
@[simp] theorem hardwareReset_pay : (s.hardwareReset).pay = [] := rfl
@[simp] theorem hardwareReset_cfg : (s.hardwareReset).cfg = s.cfg := rfl
@[simp] theorem hardwareReset_inputs : (s.hardwareReset).inputs = s.inputs := rfl

/-! ### `present` -/

@[simp] theorem present_phase (x : HostInput) : (s.present x).phase = s.phase := rfl
@[simp] theorem present_err (x : HostInput) : (s.present x).err = s.err := rfl
@[simp] theorem present_idx (x : HostInput) : (s.present x).idx = s.idx := rfl
@[simp] theorem present_acc (x : HostInput) : (s.present x).acc = s.acc := rfl
@[simp] theorem present_hdr (x : HostInput) : (s.present x).hdr = s.hdr := rfl
@[simp] theorem present_payLen (x : HostInput) : (s.present x).payLen = s.payLen := rfl
@[simp] theorem present_npktDone (x : HostInput) : (s.present x).npktDone = s.npktDone := rfl
@[simp] theorem present_laceOpen (x : HostInput) : (s.present x).laceOpen = s.laceOpen := rfl
@[simp] theorem present_seg (x : HostInput) : (s.present x).seg = s.seg := rfl
@[simp] theorem present_pay (x : HostInput) : (s.present x).pay = s.pay := rfl
@[simp] theorem present_cfg (x : HostInput) : (s.present x).cfg = s.cfg := rfl
@[simp] theorem present_inputs (x : HostInput) : (s.present x).inputs = x :: s.inputs := rfl

/-! ### `pageClear` -/

@[simp] theorem pageClear_phase : (s.pageClear).phase = s.phase := rfl
@[simp] theorem pageClear_err : (s.pageClear).err = s.err := rfl
@[simp] theorem pageClear_idx : (s.pageClear).idx = 0#16 := rfl
@[simp] theorem pageClear_acc : (s.pageClear).acc = 0x00000000#32 := rfl
@[simp] theorem pageClear_hdr : (s.pageClear).hdr = Vector.replicate 27 0x00#8 := rfl
@[simp] theorem pageClear_payLen : (s.pageClear).payLen = 0#16 := rfl
@[simp] theorem pageClear_npktDone : (s.pageClear).npktDone = 0#8 := rfl
@[simp] theorem pageClear_laceOpen : (s.pageClear).laceOpen = false := rfl
@[simp] theorem pageClear_seg : (s.pageClear).seg = s.seg := rfl
@[simp] theorem pageClear_pay : (s.pageClear).pay = s.pay := rfl
@[simp] theorem pageClear_cfg : (s.pageClear).cfg = s.cfg := rfl
@[simp] theorem pageClear_inputs : (s.pageClear).inputs = s.inputs := rfl

/-! ### `putByte` and `laceEntry` -/

@[simp] theorem putByte_phase (sp : Space) (i : Nat) (b : Byte) : (s.putByte sp i b).phase = s.phase := by
  cases sp <;> rfl
@[simp] theorem putByte_err (sp : Space) (i : Nat) (b : Byte) : (s.putByte sp i b).err = s.err := by
  cases sp <;> rfl
@[simp] theorem putByte_idx (sp : Space) (i : Nat) (b : Byte) : (s.putByte sp i b).idx = s.idx := by
  cases sp <;> rfl
@[simp] theorem putByte_acc (sp : Space) (i : Nat) (b : Byte) : (s.putByte sp i b).acc = s.acc := by
  cases sp <;> rfl
@[simp] theorem putByte_payLen (sp : Space) (i : Nat) (b : Byte) : (s.putByte sp i b).payLen = s.payLen := by
  cases sp <;> rfl
@[simp] theorem putByte_npktDone (sp : Space) (i : Nat) (b : Byte) : (s.putByte sp i b).npktDone = s.npktDone := by
  cases sp <;> rfl
@[simp] theorem putByte_laceOpen (sp : Space) (i : Nat) (b : Byte) : (s.putByte sp i b).laceOpen = s.laceOpen := by
  cases sp <;> rfl
@[simp] theorem putByte_cfg (sp : Space) (i : Nat) (b : Byte) : (s.putByte sp i b).cfg = s.cfg := by
  cases sp <;> rfl
@[simp] theorem putByte_inputs (sp : Space) (i : Nat) (b : Byte) : (s.putByte sp i b).inputs = s.inputs := by
  cases sp <;> rfl
@[simp] theorem putByte_hdr_hdr (i : Nat) (b : Byte) :
    (s.putByte .hdr i b).hdr = s.hdr.setIfInBounds i b := rfl
@[simp] theorem putByte_hdr_seg (i : Nat) (b : Byte) :
    (s.putByte .hdr i b).seg = s.seg := rfl
@[simp] theorem putByte_hdr_pay (i : Nat) (b : Byte) :
    (s.putByte .hdr i b).pay = s.pay := rfl
@[simp] theorem putByte_seg_hdr (i : Nat) (b : Byte) :
    (s.putByte .seg i b).hdr = s.hdr := rfl
@[simp] theorem putByte_seg_seg (i : Nat) (b : Byte) :
    (s.putByte .seg i b).seg = Memory.write s.seg i b := rfl
@[simp] theorem putByte_seg_pay (i : Nat) (b : Byte) :
    (s.putByte .seg i b).pay = s.pay := rfl
@[simp] theorem putByte_pay_hdr (i : Nat) (b : Byte) :
    (s.putByte .pay i b).hdr = s.hdr := rfl
@[simp] theorem putByte_pay_seg (i : Nat) (b : Byte) :
    (s.putByte .pay i b).seg = s.seg := rfl
@[simp] theorem putByte_pay_pay (i : Nat) (b : Byte) :
    (s.putByte .pay i b).pay = Memory.write s.pay i b := rfl
@[simp] theorem laceEntry_phase (b : Byte) : (s.laceEntry b).phase = s.phase := by
  unfold laceEntry; split <;> simp_all
@[simp] theorem laceEntry_err (b : Byte) : (s.laceEntry b).err = s.err := by
  unfold laceEntry; split <;> simp_all
@[simp] theorem laceEntry_idx (b : Byte) : (s.laceEntry b).idx = s.idx := by
  unfold laceEntry; split <;> simp_all
@[simp] theorem laceEntry_acc (b : Byte) : (s.laceEntry b).acc = s.acc := by
  unfold laceEntry; split <;> simp_all
@[simp] theorem laceEntry_hdr (b : Byte) : (s.laceEntry b).hdr = s.hdr := by
  unfold laceEntry; split <;> simp_all
@[simp] theorem laceEntry_payLen (b : Byte) : (s.laceEntry b).payLen = s.payLen + zext16 b := by
  unfold laceEntry; split <;> simp_all
@[simp] theorem laceEntry_npktDone (b : Byte) : (s.laceEntry b).npktDone = if b = 255#8 then s.npktDone else s.npktDone + 1#8 := by
  unfold laceEntry; split <;> simp_all
@[simp] theorem laceEntry_laceOpen (b : Byte) : (s.laceEntry b).laceOpen = decide (b = 255#8) := by
  unfold laceEntry; split <;> simp_all
@[simp] theorem laceEntry_seg (b : Byte) : (s.laceEntry b).seg = s.seg := by
  unfold laceEntry; split <;> simp_all
@[simp] theorem laceEntry_pay (b : Byte) : (s.laceEntry b).pay = s.pay := by
  unfold laceEntry; split <;> simp_all
@[simp] theorem laceEntry_cfg (b : Byte) : (s.laceEntry b).cfg = s.cfg := by
  unfold laceEntry; split <;> simp_all
@[simp] theorem laceEntry_inputs (b : Byte) : (s.laceEntry b).inputs = s.inputs := by
  unfold laceEntry; split <;> simp_all

/-- The commands that raise ILLEGAL_CMD do so by the one fault entry. -/
theorem raiseIllegal_eq : s.raiseIllegal = s.raise .illegalCmd := rfl

end Sys2Proof.Machine.State
end

