-- ==== Sys2Proof/Laws/Ops.lean ====
section
/-! SUPPORT. What each shared operation can do, said once: the byte write, the end of a step, the
checks at the ends of the header, the table, the payload and the page, and the host's input. -/

namespace Sys2Proof.Machine

/-- The byte write succeeds exactly inside the space (R57, R60). -/
theorem storeByte_ok {sp : Space} {i : Nat} {b : Byte} {s t : State} :
    s.storeByte sp i b = .ok t ↔ i < sp.size ∧ t = s.putByte sp i b := by
  unfold State.storeByte
  split <;> simp_all [eq_comm]

theorem storeByte_of_lt {sp : Space} {i : Nat} (b : Byte) (s : State) (h : i < sp.size) :
    s.storeByte sp i b = .ok (s.putByte sp i b) := storeByte_ok.2 ⟨h, rfl⟩

/-- The byte write fails exactly outside the space (R60). -/
theorem storeByte_error {sp : Space} {i : Nat} {b : Byte} {s : State} {f : Fault} :
    s.storeByte sp i b = .error f ↔ sp.size ≤ i ∧ f = .noSuchByte sp i := by
  unfold State.storeByte
  split <;> simp_all [eq_comm]

/-- The stored bytes after a byte write: the one written, and every other as before (R57). -/
theorem byteAt_putByte (s : State) (sp sp' : Space) (i j : Nat) (b : Byte) (h : i < sp.size) :
    (s.putByte sp i b).byteAt sp' j = if sp = sp' ∧ i = j then some b else s.byteAt sp' j := by
  cases sp <;> cases sp' <;>
    simp [State.byteAt, State.putByte, Memory.read_write, Space.size] at h ⊢
  rw [Vector.getElem?_setIfInBounds]
  split
  · simp
  · rfl

theorem afterStore_next {r : Except Fault State} {k : State → State} {t : State} :
    afterStore r k = .next t ↔ ∃ u, r = .ok u ∧ t = k u := by
  cases r <;> simp [afterStore, eq_comm]

theorem afterStore_fault {r : Except Fault State} {k : State → State} {f : Fault} :
    afterStore r k = .fault f ↔ r = .error f := by
  cases r <;> simp [afterStore]

theorem afterStore_ne_refused (r : Except Fault State) (k : State → State) (e : Refusal) :
    afterStore r k ≠ .refused e := by
  cases r <;> simp [afterStore]

/-- `page_end` takes one of three ways (R131). -/
theorem pageEnd_cases (s : State) :
    (s.acc ≠ s.crcStored ∧ s.pageEnd = s.raise .crcMismatch) ∨
    (s.acc = s.crcStored ∧ (s.fCont = true ∨ 1 < s.npkt) ∧ s.pageEnd = s.raise .unsupportedPage) ∨
    (s.acc = s.crcStored ∧ s.fCont = false ∧ s.npkt ≤ 1 ∧ s.pageEnd = s.setPhase .done) := by
  unfold State.pageEnd
  split
  · exact .inl ⟨‹_›, rfl⟩
  · split
    · exact .inr (.inl ⟨not_not.1 ‹_›, ‹_›, rfl⟩)
    · rename_i h1 h2
      simp only [not_or, not_lt, Bool.not_eq_true] at h2
      exact .inr (.inr ⟨not_not.1 h1, h2.1, h2.2, rfl⟩)

/-- `header_end` takes one of four ways (R126). -/
theorem headerEnd_cases (s : State) :
    (s.magic ≠ s.cfg.pMagic ∧ s.headerEnd = s.raise .invalidSignature) ∨
    (s.magic = s.cfg.pMagic ∧ s.cfg.pVersionCheck = true ∧ s.version ≠ 0x00#8 ∧
      s.headerEnd = s.raise .unsupportedVersion) ∨
    (s.magic = s.cfg.pMagic ∧ (s.cfg.pVersionCheck = true → s.version = 0x00#8) ∧
      s.nseg = 0x00#8 ∧ s.headerEnd = (s.setIdx 0#16).pageEnd) ∨
    (s.magic = s.cfg.pMagic ∧ (s.cfg.pVersionCheck = true → s.version = 0x00#8) ∧
      s.nseg ≠ 0x00#8 ∧ s.headerEnd = s.setSeq .seg 0#16) := by
  unfold State.headerEnd
  split
  · exact .inl ⟨‹_›, rfl⟩
  · rename_i h1
    have h1 := not_not.1 h1
    split
    · rename_i h2; exact .inr (.inl ⟨h1, h2.1, h2.2, rfl⟩)
    · rename_i h2
      have h2 : s.cfg.pVersionCheck = true → s.version = 0x00#8 := fun h =>
        not_not.1 fun h' => h2 ⟨h, h'⟩
      split
      · exact .inr (.inr (.inl ⟨h1, h2, ‹_›, rfl⟩))
      · exact .inr (.inr (.inr ⟨h1, h2, ‹_›, rfl⟩))

/-- What ends a step in SEG (R127, R129). -/
theorem tableBoundary_cases (s : State) :
    (s.idx ≠ zext16 s.nseg ∧ s.tableBoundary = s) ∨
    (s.idx = zext16 s.nseg ∧ s.payLen = 0#16 ∧ s.tableBoundary = (s.setIdx 0#16).pageEnd) ∨
    (s.idx = zext16 s.nseg ∧ s.payLen ≠ 0#16 ∧ s.tableBoundary = s.setSeq .pay 0#16) := by
  unfold State.tableBoundary
  split
  · split
    · exact .inr (.inl ⟨‹_›, ‹_›, rfl⟩)
    · exact .inr (.inr ⟨‹_›, ‹_›, rfl⟩)
  · exact .inl ⟨‹_›, rfl⟩

/-- What the end of a page leaves alone: everything but `phase` and `err` (R131). -/
theorem pageEnd_keeps (s : State) :
    ∃ p e, s.pageEnd = { s with phase := p, err := e } := by
  rcases pageEnd_cases s with h | h | h
  · exact ⟨.err, .crcMismatch, h.2⟩
  · exact ⟨.err, .unsupportedPage, h.2.2⟩
  · exact ⟨.done, s.err, h.2.2.2⟩

/-- What the end of the header leaves alone: everything but the sequencer and `err` (R126). -/
theorem headerEnd_keeps (s : State) :
    ∃ p e n, s.headerEnd = { s with phase := p, err := e, idx := n } := by
  rcases headerEnd_cases s with h | h | h | h
  · exact ⟨_, _, s.idx, h.2⟩
  · exact ⟨_, _, s.idx, h.2.2.2⟩
  · obtain ⟨p, e, hp⟩ := pageEnd_keeps (s.setIdx 0#16)
    exact ⟨p, e, 0#16, h.2.2.2.trans hp⟩
  · exact ⟨_, s.err, _, h.2.2.2⟩

/-- What the end of the table leaves alone: everything but the sequencer and `err` (R127). -/
theorem tableBoundary_keeps (s : State) :
    ∃ p e n, s.tableBoundary = { s with phase := p, err := e, idx := n } := by
  rcases tableBoundary_cases s with h | h | h
  · exact ⟨s.phase, s.err, s.idx, h.2⟩
  · obtain ⟨p, e, hp⟩ := pageEnd_keeps (s.setIdx 0#16)
    exact ⟨p, e, 0#16, h.2.2.trans hp⟩
  · exact ⟨_, s.err, _, h.2.2⟩

/-- The next input of the host, if there is one (R8). -/
theorem takeInput_cons {s : State} {x : HostInput} {rest : List HostInput}
    (h : s.inputs = x :: rest) : s.takeInput = some (x, { s with inputs := rest }) := by
  simp [State.takeInput, h]

theorem takeInput_nil {s : State} (h : s.inputs = []) : s.takeInput = none := by
  simp [State.takeInput, h]

end Sys2Proof.Machine
end

