-- ==== Sys2Proof/Laws/Meanings.lean ====
section
/-! SUPPORT. One inversion lemma per meaning and for the step: everything that a next state can be. -/

namespace Sys2Proof.Machine

/-- The four ways in which BYTE captures a byte, and the two in which it does not (R121). -/
theorem execByte_next {b : Byte} {s t : State} (h : execByte b s = .next t) :
    (s.phase = .idle ∧ t = ((s.pageClear.putByte .hdr 0 b).absorb b).setSeq .hdr 1#16) ∨
    (s.phase = .hdr ∧ s.idx.toNat < 27 ∧
      t = (((s.putByte .hdr s.idx.toNat b).absorb (headerAbsorbed s.idx.toNat b)).advance).headerBoundary) ∨
    (s.phase = .seg ∧ s.idx.toNat < 255 ∧
      t = ((((s.putByte .seg s.idx.toNat b).absorb b).laceEntry b).advance).tableBoundary) ∨
    (s.phase = .pay ∧ s.idx.toNat < 65025 ∧
      t = (((s.putByte .pay s.idx.toNat b).absorb b).advance).payloadBoundary) ∨
    ((s.phase = .done ∨ s.phase = .ended) ∧ t = s.raise .illegalCmd) ∨
    (s.phase = .err ∧ t = s) := by
  unfold execByte at h
  split at h <;> rename_i hp
  · obtain ⟨u, hu, rfl⟩ := afterStore_next.1 h
    obtain ⟨-, rfl⟩ := storeByte_ok.1 hu
    exact .inl ⟨hp, rfl⟩
  · obtain ⟨u, hu, rfl⟩ := afterStore_next.1 h
    obtain ⟨hi, rfl⟩ := storeByte_ok.1 hu
    exact .inr (.inl ⟨hp, hi, rfl⟩)
  · obtain ⟨u, hu, rfl⟩ := afterStore_next.1 h
    obtain ⟨hi, rfl⟩ := storeByte_ok.1 hu
    exact .inr (.inr (.inl ⟨hp, hi, rfl⟩))
  · obtain ⟨u, hu, rfl⟩ := afterStore_next.1 h
    obtain ⟨hi, rfl⟩ := storeByte_ok.1 hu
    exact .inr (.inr (.inr (.inl ⟨hp, hi, rfl⟩)))
  · cases h; exact .inr (.inr (.inr (.inr (.inl ⟨.inl hp, rfl⟩))))
  · cases h; exact .inr (.inr (.inr (.inr (.inl ⟨.inr hp, rfl⟩))))
  · cases h; exact .inr (.inr (.inr (.inr (.inr ⟨hp, rfl⟩))))

/-- EOS by phase (R135). -/
theorem execEos_next {s t : State} (h : execEos s = .next t) :
    (s.phase = .idle ∧ t = s.setPhase .ended) ∨
    ((s.phase = .hdr ∨ s.phase = .seg ∨ s.phase = .pay) ∧ t = s.raise .shortRead) ∨
    ((s.phase = .done ∨ s.phase = .ended) ∧ t = s.raise .illegalCmd) ∨
    (s.phase = .err ∧ t = s) := by
  unfold execEos at h
  split at h <;> cases h <;> simp_all [State.raiseIllegal_eq]

/-- NEXT by phase (R162). -/
theorem execNext_next {s t : State} (h : execNext s = .next t) :
    (s.phase = .done ∧ t = s.setPhase .idle) ∨
    (s.phase ≠ .done ∧ s.phase ≠ .err ∧ t = s.raise .illegalCmd) ∨
    (s.phase = .err ∧ t = s) := by
  unfold execNext at h
  split at h <;> cases h <;> simp_all [State.raiseIllegal_eq]

/-- CRC.CLR by phase (R108). -/
theorem execCrcClr_next {s t : State} (h : execCrcClr s = .next t) :
    (s.phase = .idle ∧ t = s.setAcc 0x00000000#32) ∨
    (s.phase ≠ .idle ∧ s.phase ≠ .err ∧ t = s.raise .illegalCmd) ∨
    (s.phase = .err ∧ t = s) := by
  unfold execCrcClr at h
  split at h <;> cases h <;> simp_all [State.raiseIllegal_eq]

/-- CRC.ABS by phase (R109). -/
theorem execCrcAbs_next {b : Byte} {s t : State} (h : execCrcAbs b s = .next t) :
    (s.phase = .idle ∧ t = s.absorb b) ∨
    (s.phase ≠ .idle ∧ s.phase ≠ .err ∧ t = s.raise .illegalCmd) ∨
    (s.phase = .err ∧ t = s) := by
  unfold execCrcAbs at h
  split at h <;> cases h <;> simp_all [State.raiseIllegal_eq]

/-- The illegal word by phase (R73, R74). -/
theorem execIllegalWord_next {s t : State} (h : execIllegalWord s = .next t) :
    (s.phase ≠ .err ∧ t = s.raise .illegalCmd) ∨ (s.phase = .err ∧ t = s) := by
  unfold execIllegalWord at h
  split at h <;> cases h <;> simp_all [State.raiseIllegal_eq]

/-- Everything that a step can be: a wait, a reset pulse, a command, or an illegal word (R74). -/
theorem step_next {s t : State} (h : step s = .next t) :
    (s.inputs = [] ∧ t = s) ∨
    (∃ rest, s.inputs = .hardwareReset :: rest ∧ t = ({ s with inputs := rest } : State).hardwareReset) ∨
    (∃ w i rest, s.inputs = .command w :: rest ∧ decode w = .ok i ∧
      exec i { s with inputs := rest } = .next t) ∨
    (∃ w e rest, s.inputs = .command w :: rest ∧ decode w = .error e ∧
      execIllegalWord { s with inputs := rest } = .next t) := by
  unfold step runNextInput at h
  rcases hs : s.inputs with _ | ⟨x, rest⟩
  · rw [takeInput_nil hs] at h
    cases h
    exact .inl ⟨rfl, rfl⟩
  · rw [takeInput_cons hs] at h
    rcases x with w | _
    · simp only [runInput, runWord] at h
      rcases hd : decode w with e | i
      · rw [hd] at h; exact .inr (.inr (.inr ⟨w, e, rest, rfl, hd, h⟩))
      · rw [hd] at h; exact .inr (.inr (.inl ⟨w, i, rest, rfl, hd, h⟩))
    · cases h; exact .inr (.inl ⟨rest, rfl, rfl⟩)

end Sys2Proof.Machine
end

