-- ==== Sys2Proof/Laws/Page.lean ====
section
/-! SUPPORT. The counters of a segment table, one entry at a time, the header as the accumulator
absorbs it, and a command stream, one command at a time. -/

namespace Sys2Proof.Safety

open Sys2Proof.Machine

/-- A 16-bit counter below its last value counts exactly (R9). -/
theorem toNat_succ (x : Half) (h : x.toNat < 65535) : (x + 1#16).toNat = x.toNat + 1 := by
  rw [BitVec.toNat_add, show (1#16).toNat = 1 from rfl]
  omega

@[simp] theorem zext16_toNat (b : Byte) : (zext16 b).toNat = b.toNat := by
  have := b.isLt
  simp only [zext16, BitVec.toNat_setWidth]
  omega

theorem tableSum_snoc (t : List Byte) (b : Byte) : tableSum (t ++ [b]) = tableSum t + b.toNat := by
  simp [tableSum]

theorem terminatedRuns_snoc (t : List Byte) (b : Byte) :
    terminatedRuns (t ++ [b]) = terminatedRuns t + (if b = 255#8 then 0 else 1) := by
  simp [terminatedRuns, List.countP_cons]

theorem endsOpen_snoc (t : List Byte) (b : Byte) : endsOpen (t ++ [b]) = (b == 255#8) := by
  simp [endsOpen]

theorem tableSum_le (t : List Byte) : tableSum t ≤ 255 * t.length := by
  induction t with
  | nil => simp [tableSum]
  | cons b t ih =>
    have := b.isLt
    simp [tableSum] at ih ⊢
    omega

/-- A table has at most as many packets as entries (R151). -/
theorem packetCount_le (t : List Byte) : packetCount t ≤ t.length ∧ terminatedRuns t ≤ t.length := by
  induction t using List.reverseRecOn with
  | nil => simp [packetCount, terminatedRuns, endsOpen]
  | append_singleton t b ih =>
    have h1 : terminatedRuns t ≤ t.length := ih.2
    unfold packetCount
    rw [terminatedRuns_snoc, endsOpen_snoc]
    by_cases e : b = 255#8
    · simp [e]; omega
    · simp [e, beq_eq_false_iff_ne.2 e]; omega

/-- One entry more, below 255 of them, keeps the counters those of the table (R128, R151). -/
theorem laced_laceEntry {s : State} {t : List Byte} (b : Byte) (h : Laced s t)
    (hl : t.length < 255) : Laced (s.laceEntry b) (t ++ [b]) := by
  have h1 := tableSum_le t
  have h2 := (packetCount_le t).2
  have hb := b.isLt
  refine ⟨?_, ?_, ?_⟩
  · rw [State.laceEntry_payLen, BitVec.toNat_add, tableSum_snoc, h.payLen, zext16_toNat]
    omega
  · rw [State.laceEntry_npktDone, terminatedRuns_snoc]
    split
    · simpa using h.npktDone
    · rw [BitVec.toNat_add, h.npktDone, show (1#8).toNat = 1 from rfl]
      omega
  · rw [State.laceEntry_laceOpen, endsOpen_snoc]
    rfl

theorem laced_npkt {s : State} {t : List Byte} (h : Laced s t) : s.npkt = packetCount t := by
  simp [State.npkt, packetCount, h.npktDone, h.laceOpen]

/-- The counters of a table depend on three registers alone. -/
theorem laced_congr {s t : State} {table : List Byte} (h : Laced s table)
    (h1 : t.payLen = s.payLen) (h2 : t.npktDone = s.npktDone) (h3 : t.laceOpen = s.laceOpen) :
    Laced t table :=
  ⟨h1 ▸ h.payLen, h2 ▸ h.npktDone, h3 ▸ h.laceOpen⟩

/-- A captured page depends on the header, the two buffers and the counters alone: the phase, `err`,
`idx`, `acc` and the inputs may change under it. -/
theorem pageCaptured_congr {s t : State} {table body : List Byte} (h : PageCaptured s table body)
    (hh : t.hdr = s.hdr) (hs : t.seg = s.seg) (hp : t.pay = s.pay) (h1 : t.payLen = s.payLen)
    (h2 : t.npktDone = s.npktDone) (h3 : t.laceOpen = s.laceOpen) : PageCaptured t table body :=
  ⟨by simpa only [hs, State.nseg, State.hdrAt, hh] using h.entries, laced_congr h.laced h1 h2 h3,
    by simpa only [hp, h1] using h.payload⟩

/-- The page between pages depends on what a captured page depends on and on `idx`. -/
theorem pageReleased_congr {s t : State} (h : PageReleased s) (hi : t.idx = s.idx)
    (hh : t.hdr = s.hdr) (hs : t.seg = s.seg) (hp : t.pay = s.pay) (h1 : t.payLen = s.payLen)
    (h2 : t.npktDone = s.npktDone) (h3 : t.laceOpen = s.laceOpen) : PageReleased t := by
  obtain ⟨table, body, hc, ha⟩ := h.captured
  exact ⟨by rw [hi, h1, h.idx], table, body, pageCaptured_congr hc hh hs hp h1 h2 h3,
    by simpa only [State.crcStored, hh] using ha⟩

/-- A table with no packet has no entry (R31). -/
theorem eq_nil_of_packetCount_eq_zero {table : List Byte} (h : packetCount table = 0) :
    table = [] := by
  rcases List.eq_nil_or_concat table with e | ⟨t, b, e⟩
  · exact e
  · rw [e, List.concat_eq_append] at h
    unfold packetCount at h
    rw [terminatedRuns_snoc, endsOpen_snoc] at h
    by_cases hb : b = 255#8 <;> simp [hb] at h

/-- A captured page with no packet has an empty table and no payload (R136). -/
theorem pageCaptured_npkt_zero {s : State} {table body : List Byte} (h : PageCaptured s table body)
    (h0 : s.npkt = 0) : table = [] ∧ s.payLen = 0#16 := by
  have ht := eq_nil_of_packetCount_eq_zero ((laced_npkt h.laced).symm.trans h0)
  refine ⟨ht, BitVec.eq_of_toNat_eq ?_⟩
  rw [h.laced.payLen, ht]
  rfl

/-- Between pages, in a state with every register of the page clear: no page was held (R43). An all-zero
message has checksum 0 (R106). -/
theorem pageReleased_of_clear {s : State} (hi : s.idx = 0#16)
    (hh : s.hdr = Vector.replicate 27 0x00#8) (h1 : s.payLen = 0#16) (h2 : s.npktDone = 0#8)
    (h3 : s.laceOpen = false) : PageReleased s := by
  refine ⟨hi.trans h1.symm, [], [], ⟨?_, ⟨by rw [h1]; rfl, by rw [h2]; rfl, by rw [h3]; rfl⟩,
    by rw [h1]; rfl⟩, ?_⟩
  · simp [State.nseg, State.hdrAt, hh]
  · simp only [State.crcStored, hh, List.append_nil]
    decide +kernel

/-! The windows of R42. -/

/-- A header with a signature other than zero is held. -/
theorem headerHeld_of_magic {s : State} (h : s.magic ≠ 0x00000000#32) : s.headerHeld = true := by
  simp only [State.headerHeld, decide_eq_true_eq]
  intro e
  apply h
  unfold State.magic
  rw [e]
  decide

/-- A header with a table is held. -/
theorem headerHeld_of_nseg {s : State} (h : s.nseg ≠ 0x00#8) : s.headerHeld = true := by
  simp only [State.headerHeld, decide_eq_true_eq]
  intro e
  apply h
  unfold State.nseg State.hdrAt
  rw [e]
  decide

/-- The header window after a fault that leaves the registers as they were (R175, R176). -/
theorem headerWindowOf_raise {s : State} {c : ErrCode} (k : HeldPage)
    (hc : c = .shortRead ∨ c = .illegalCmd) :
    (s.raise c).headerWindowOf k = if k = .noPage then s.idx.toNat else 27 := by
  rcases hc with rfl | rfl <;> rfl

/-- What the state tells after such a fault. -/
theorem heldPage_raise {s : State} {c : ErrCode} (hc : c = .shortRead ∨ c = .illegalCmd) :
    (s.raise c).heldPage =
      if s.npkt = 0 ∧ s.idx ≠ 0#16 then .noPage
      else if s.headerHeld then .current else .noPage := by
  rcases hc with rfl | rfl <;> rfl

/-- What the host knows after such a fault is what it knew before, where no reset was presented. -/
theorem after_raise {s : State} {c : ErrCode} {x : HostInput} (k : HeldPage)
    (hx : x ≠ .hardwareReset) (hx' : x ≠ .command 0x0100#16)
    (hc : c = .shortRead ∨ c = .illegalCmd) : k.after x (s.raise c) = k := by
  unfold HeldPage.after
  rw [if_neg (by simp [hx, hx'])]
  rcases hc with rfl | rfl <;> rfl

/-- The header window after a fault of `page_end`: the header is whole (R131). -/
theorem headerWindowOf_pageEnd {s : State} (k : HeldPage) (h : s.pageEnd.phase = .err) :
    s.pageEnd.headerWindowOf k = 27 := by
  rcases pageEnd_cases s with ⟨-, hh⟩ | ⟨-, -, hh⟩ | ⟨-, -, -, hh⟩ <;> rw [hh] at h ⊢
  · rfl
  · rfl
  · cases h

/-- A state that the host has followed is reachable. -/
theorem reachable_of_known {k : HeldPage} {s : State} (h : Known k s) : Reachable s := by
  induction h with
  | reset cfg inputs => exact .reset cfg inputs
  | step k s t x rest _ _ hs ih => exact .step s t ih hs

theorem crcHeader_length (h : Vector Byte 27) : (crcHeader h).length = 27 := by simp [crcHeader]

/-- Header byte `i`, captured, extends the absorbed front of the header by what R125 absorbs. -/
theorem crcHeader_setIfInBounds (h : Vector Byte 27) {i : Nat} (hi : i < 27) (b : Byte) :
    (crcHeader (h.setIfInBounds i b)).take (i + 1) =
      (crcHeader h).take i ++ [headerAbsorbed i b] := by
  apply List.ext_getElem?
  intro k
  rcases lt_trichotomy k i with hk | hk | hk
  · rw [List.getElem?_append_left (by simp [crcHeader]; omega)]
    simp [crcHeader, hk, show k < i + 1 by omega, show i ≠ k by omega]
  · subst hk
    rw [List.getElem?_append_right (by simp [crcHeader])]
    simp [crcHeader, hi, show min k 27 = k by omega]
  · rw [List.getElem?_eq_none (by simp [crcHeader]; omega),
      List.getElem?_eq_none (by simp [crcHeader]; omega)]

/-- A run of one step more is a step and a run. -/
theorem run_succ (M : Host.Core) {n : Nat} {s t : M.State} :
    M.run (n + 1) s = .next t ↔ ∃ u, M.step s = .next u ∧ M.run n u = .next t := by
  rw [show M.run (n + 1) s = (match M.step s with
    | .next u => M.run n u
    | .fault r => .fault r
    | .refused r => .refused r) from rfl]
  cases M.step s <;> simp

/-- A run of the machine from a reachable state ends in a reachable state. -/
theorem reachable_run {n : Nat} {s t : State} (hs : Reachable s)
    (h : Sys2Proof.core.run n s = .next t) : Reachable t := by
  induction n generalizing s with
  | zero => cases h; exact hs
  | succ n ih =>
    obtain ⟨u, hu, hn⟩ := (run_succ Sys2Proof.core).1 h
    exact ih (Reachable.step s u hs hu) hn

/-- The buffers of the reset state are canonical. -/
theorem reset_buffers_wf :
    Memory.wf 255 State.reset.seg = true ∧ Memory.wf 65025 State.reset.pay = true := ⟨rfl, rfl⟩

/-- Every write of a byte that the block makes keeps both buffers canonical. -/
theorem putByte_buffers_wf {s : State} {sp : Space} {i : Nat} (b : Byte) (hi : i < sp.size)
    (hs : Memory.wf 255 s.seg = true) (hp : Memory.wf 65025 s.pay = true) :
    Memory.wf 255 (s.putByte sp i b).seg = true ∧ Memory.wf 65025 (s.putByte sp i b).pay = true := by
  cases sp
  · exact ⟨hs, hp⟩
  · exact ⟨Memory.wf_write hs b hi, hp⟩
  · exact ⟨hs, Memory.wf_write hp b hi⟩

end Sys2Proof.Safety
end

