-- ==== Sys2Proof/Laws/PerInstr.lean ====
section
/-! SUPPORT. The families of statements about the instructions as syntax. -/

namespace Sys2Proof.Laws.EncodesLegal

/-- The word of every instruction is one that R73 does not make illegal. -/
def Statement (i : Instr) : Prop := (formatOf (encode i)).wf = true

theorem nop : Statement .nop := rfl
theorem reset : Statement .reset := rfl
theorem next : Statement .next := rfl
theorem crcClr : Statement .crcClr := rfl
theorem crcAbs (b : Byte) : Statement (.crcAbs b) := by
  rw [Statement, formatOf_encode]; rfl
theorem byte (b : Byte) : Statement (.byte b) := by
  rw [Statement, formatOf_encode]; rfl
theorem eos : Statement .eos := rfl

end Sys2Proof.Laws.EncodesLegal
end

