-- ==== Sys2Proof/Tests/Slice0.lean ====
section
/-! SUPPORT. The model's own tests. Expected values are those of the spec (95_test_vectors.md, and the
rule named beside each test), none the model's. After them, for each statement that has hypotheses,
a state and operands that meet them. -/

namespace Sys2Proof.Tests

/-! One theorem after the other: each kernel evaluation at once on a thread of its own outgrows the memory
that a compile of the package as one text may use. -/
set_option Elab.async false

open Sys2Proof.Machine Sys2Proof.Safety

/-- The next state of an outcome, if it is one. -/
def after (o : Host.Outcome State Fault Refusal) : Option State :=
  match o with
  | .next s => some s
  | .fault _ => none
  | .refused _ => none

/-! ### The smoke test of well-formedness: one ill-formed term for each check (R73) -/

theorem test_undefined_opcode_refused :
    FormatC.opcodeDefined { op := 0x30, arg := 0x00 } = false := by decide
theorem test_undefined_opcode_illformed : FormatC.wf { op := 0x30, arg := 0x00 } = false := by decide
theorem test_operand_not_zero_refused :
    FormatC.operandAllowed { op := 0x21, arg := 0x01 } = false := by decide
theorem test_operand_not_zero_illformed : FormatC.wf { op := 0x21, arg := 0x01 } = false := by decide
theorem test_operand_byte_wellformed : FormatC.wf { op := 0x20, arg := 0xFF } = true := by decide

/-! ### Decoding: words written bit by bit from R71 and `opcode_table.json` -/

theorem test_decode_nop : decode 0b0000000000000000#16 = .ok .nop := by decide
theorem test_decode_reset : decode 0b0000000100000000#16 = .ok .reset := by decide
theorem test_decode_next : decode 0b0000001000000000#16 = .ok .next := by decide
theorem test_decode_crcClr : decode 0b0001000000000000#16 = .ok .crcClr := by decide
theorem test_decode_crcAbs : decode 0b0001000100110001#16 = .ok (.crcAbs 0x31) := by decide
theorem test_decode_byte : decode 0b0010000001001111#16 = .ok (.byte 0x4F) := by decide
theorem test_decode_eos : decode 0b0010000100000000#16 = .ok .eos := by decide
theorem test_decode_rejects_opcode :
    decode 0b0011000000000000#16 = .error (.undefinedOpcode 0x30) := by decide
theorem test_decode_rejects_operand :
    decode 0b0001000000000001#16 = .error (.operandNotZero 0x10 0x01) := by decide
theorem test_decodeTableWord : decodeTableWord 16 0x204F = some (.byte 0x4F) := by decide
/-- R85. -/
theorem test_asmLine : asmLine (.byte 0x4F) = "BYTE 0x4F" ∧ asmLine .crcClr = "CRC.CLR" := by decide

/-! ### The CRC engine -/

/-- V-STEP-1, V-STEP-2, V-STEP-3. -/
theorem test_crcStep : crcStep 0x00000000#32 0x01 = 0x04C11DB7#32 ∧
    crcStep 0x00000000#32 0x80 = 0x690CE0EE#32 ∧ crcStep 0xFFFFFFFF#32 0x00 = 0x4E08BFB4#32 := by
  decide +kernel
/-- V-STEP-11, both forms. -/
theorem test_crcStep_forms : crcStep 0xDEADBEEF#32 0x5A = 0xD7B67932#32 ∧
    crcStepByTable 0xDEADBEEF#32 0x5A = 0xD7B67932#32 := by decide +kernel
/-- V-CRC-9. -/
theorem test_crc32Ogg : crc32Ogg [0x31, 0x32, 0x33, 0x34, 0x35, 0x36, 0x37, 0x38, 0x39] =
    0x89A1897F#32 := by decide +kernel

/-! ### The states of V-PG-1 that the single-step tests start from -/

/-- The 27 header bytes of page P1. -/
def p1Header : Vector Byte 27 :=
  #v[0x4F, 0x67, 0x67, 0x53, 0x00, 0x02, 0x01, 0x02, 0x03, 0x04, 0x05, 0x06, 0x07, 0x08,
    0xAA, 0xBB, 0xCC, 0xDD, 0x01, 0x00, 0x00, 0x00, 0x49, 0xDC, 0x91, 0xF0, 0x01]

/-- The first `n` header bytes of P1, the rest clear. -/
def p1Front (n : Nat) : Vector Byte 27 := p1Header.mapIdx fun i b => if i < n then b else 0x00

/-- In HDR, `n` bytes of P1 consumed. -/
def inHeader (n : Nat) (acc : Word) : State :=
  { State.reset with phase := .hdr, idx := BitVec.ofNat 16 n, acc := acc, hdr := p1Front n }

/-- After byte 26 of P1. -/
def inTable : State := { State.reset with phase := .seg, acc := 0x7C21FA49, hdr := p1Header }

/-- After byte 29 of P1. -/
def inPayload : State :=
  { inTable with
    phase := .pay, idx := 2, acc := 0x5029E097, payLen := 3, npktDone := 1
    seg := [(0, 0x03)], pay := [(0, 0x61), (1, 0x62)] }

/-- After byte 28 of P1. -/
def inPayload1 : State := { inPayload with idx := 1, acc := 0x02FC8C26, pay := [(0, 0x61)] }

/-- After byte 30 of P1: the page is held. -/
def pageHeld : State :=
  { inPayload with
    phase := .done, idx := 3, acc := 0xF091DC49, pay := [(0, 0x61), (1, 0x62), (2, 0x63)] }

/-! ### The instructions -/

/-- V-SEQ-5. -/
theorem test_nop : (after (exec .nop (inHeader 5 0xF07159BA))).map
    (fun t => (t.phase, t.idx, t.acc, t.magic)) = some (.hdr, 5, 0xF07159BA, 0x5367674F) := by
  decide +kernel
/-- V-SEQ-6. -/
theorem test_reset : after (exec .reset (inHeader 5 0xF07159BA)) = some State.reset := by
  decide +kernel
/-- V-E2E and V-SEQ-10: only `phase` changes. -/
theorem test_next : (after (exec .next pageHeld)).map
    (fun t => (t.phase, t.idx, t.acc, t.crcStored)) = some (.idle, 3, 0xF091DC49, 0xF091DC49) := by
  decide +kernel
/-- V-SEQ-2. -/
theorem test_next_illegal : (after (exec .next State.reset)).map State.statusReg =
    some 0x00002037 := by decide +kernel
/-- V-SEQ-10: only `acc` changes. -/
theorem test_crcClr : (after (exec .crcClr { pageHeld with phase := .idle })).map
    (fun t => (t.acc, t.idx, t.statusReg)) = some (0, 3, 0x00010200) := by decide +kernel
/-- V-DIR-6: not cleared in DONE. -/
theorem test_crcClr_illegal : (after (exec .crcClr pageHeld)).map
    (fun t => (t.acc, t.statusReg)) = some (0xF091DC49, 0x00012237) := by decide +kernel
/-- V-DIR-2. -/
theorem test_crcAbs : (after (exec (.crcAbs 0x31) State.reset)).map
    (fun t => (t.phase, t.acc, t.statusReg)) = some (.idle, 0xD0F37027, 0) := by decide +kernel
/-- V-DIR-5. -/
theorem test_crcAbs_illegal : (after (exec (.crcAbs 0x31) (inHeader 2 0x4E23C7F6))).map
    (fun t => (t.acc, t.magic, t.statusReg)) = some (0x4E23C7F6, 0x0000674F, 0x00000037) := by
  decide +kernel
/-- V-PG-1, byte 22: captured as received, absorbed as zero. -/
theorem test_byte_checksum_field : (after (exec (.byte 0x49) (inHeader 22 0xF0940689))).map
    (fun t => (t.idx, t.acc, t.crcStored)) = some (23, 0x1DBE7409, 0x00000049) := by decide +kernel
/-- V-PG-1, byte 30: the page is accepted. -/
theorem test_byte_last : after (exec (.byte 0x63) inPayload) = some pageHeld ∧
    pageHeld.statusReg = 0x00012204 := by decide +kernel
/-- V-PG-9e. -/
theorem test_eos : (after (exec .eos State.reset)).map (fun t => (t.err, t.statusReg, t.outEnded)) =
    some (.none, 0x00002005, true) := by decide +kernel
/-- V-PG-9a. -/
theorem test_eos_short_read : (after (exec .eos inPayload1)).map
    (fun t => (t.idx, t.acc, t.statusReg)) = some (1, 0x02FC8C26, 0x0001022F) := by decide +kernel
/-- V-SEQ-7: an illegal word. -/
theorem test_illegal_word : (after (runWord 0x0105 State.reset)).map State.statusReg =
    some 0x00002037 := by decide +kernel
/-- V-SEQ-12: ignored in ERR. -/
theorem test_illegal_word_in_err : (after (runWord 0x0101 (State.reset.raise .illegalCmd))) =
    some (State.reset.raise .illegalCmd) := by decide +kernel
/-- A word presented by the host is the next one to run (V-PG-1, byte 0). -/
theorem test_step_fetches : (after (step (State.reset.withFetchWord 16 0x204F))).map
    (fun t => (t.phase, t.idx, t.acc, t.inputs)) = some (.hdr, 1, 0x0CC9CDCA, []) := by decide
/-- R200: the hardware reset input clears the buffers' values as well. -/
theorem test_hardware_reset : after (step (inPayload.present .hardwareReset)) = some State.reset := by
  decide +kernel

/-! ### The read port and the wire format -/

/-- V-PG-1, end state. -/
theorem test_read_port : pageHeld.readReg 0x5 = .ok 0x00010200 ∧
    pageHeld.readReg 0x6 = .ok 0x04030201 ∧ pageHeld.readReg 0x7 = .ok 0x08070605 ∧
    pageHeld.readReg 0x8 = .ok 0xDDCCBBAA ∧ pageHeld.readReg 0x9 = .ok 1 ∧
    pageHeld.readReg 0xA = .ok 0x00010003 ∧ pageHeld.packet = some [0x61, 0x62, 0x63] := by
  decide +kernel
/-- R62, R60: a byte never written, and an index outside the space. -/
theorem test_mem_read : State.reset.memRead .seg 0 = .error (.neverWritten .seg 0) ∧
    State.reset.memRead .hdr 27 = .error (.indexOutOfRange .hdr 27) ∧
    pageHeld.memRead .pay 2 = .ok 0x63 := by decide +kernel
/-- R140. -/
theorem test_packet_counts : packetCount [0] = 1 ∧ packetCount [0, 0] = 2 ∧
    packetCount [255, 0] = 1 ∧ packetCount [5, 0] = 2 ∧ packetCount [5, 255] = 2 := by decide

/-- The fields of page P1 (V-PG-1). -/
def p1 : PageFields :=
  { magic := 0x5367674F, version := 0x00, flags := 0x02, granule := 0x0807060504030201
    serial := 0xDDCCBBAA, seqno := 1, table := [3], payload := [0x61, 0x62, 0x63] }

/-- V-PG-1: the checksum and the stream bytes of P1. -/
theorem test_page_bytes : p1.checksum = 0xF091DC49 ∧
    p1.bytes = p1Header.toList ++ [0x03, 0x61, 0x62, 0x63] := by decide +kernel

/-! ### Witnesses: every hypothesis of a statement can be met -/

theorem witness_WordSelectsItsRow : (∃ w i, decode w = .ok i) ∧ (∃ w e, decode w = .error e) :=
  ⟨⟨0x204F, .byte 0x4F, by decide⟩, ⟨0x3000, .undefinedOpcode 0x30, by decide⟩⟩
theorem witness_DecodeEncodeRoundTrip : ∃ w i, decode w = .ok i := ⟨0x2100, .eos, by decide⟩
theorem witness_IllegalWordsRaiseIllegalCmd : ∃ w, (formatOf w).wf = false := ⟨0x0001, by decide⟩
theorem witness_StepRunsDecodedCommand :
    (∃ (s : State) (w : Half) (rest : List HostInput), s.inputs = .command w :: rest) ∧
    (∃ (s : State) (w : Half) (i : Instr) (rest : List HostInput),
      s.inputs = .command w :: rest ∧ decode w = .ok i) ∧
    (∃ (s : State) (w : Half) (e : DecodeError) (rest : List HostInput),
      s.inputs = .command w :: rest ∧ decode w = .error e) ∧
    (∃ n i, decodeTableWord 16 n = some i) :=
  ⟨⟨{ State.reset with inputs := [.command 0xFFFF] }, 0xFFFF, [], rfl⟩,
    ⟨{ State.reset with inputs := [.command 0x1131] }, 0x1131, .crcAbs 0x31, [], rfl, by decide⟩,
    ⟨{ State.reset with inputs := [.command 0x2101] }, 0x2101, .operandNotZero 0x21 0x01, [], rfl,
      by decide⟩,
    ⟨0x0200, .next, by decide⟩⟩
theorem witness_StepWaitsForTheHost : ∃ s : State, s.inputs = [] := ⟨pageHeld, rfl⟩
theorem witness_StepTakesOneInputAndKeepsConfiguration : ∃ s t, step s = .next t :=
  ⟨State.reset, State.reset, rfl⟩
theorem witness_ErrPhaseIgnoresAllButReset : ∃ s : State, s.phase = .err :=
  ⟨pageHeld.raise .illegalCmd, rfl⟩
theorem witness_ErrPhaseIsLeftOnlyByReset : ∃ s t, s.phase = .err ∧ step s = .next t ∧
    t.phase = .idle :=
  ⟨(pageHeld.raise .illegalCmd).present (.command 0x0100), _, rfl, rfl, rfl⟩
theorem witness_HardwareResetGivesResetState :
    ∃ (s : State) (rest : List HostInput), s.inputs = .hardwareReset :: rest :=
  ⟨pageHeld.present .hardwareReset, [], rfl⟩
theorem witness_ResetStateValues :
    ∃ (s : State) (rest : List HostInput), s.inputs = .hardwareReset :: rest :=
  ⟨inPayload.present .hardwareReset, [], rfl⟩
theorem witness_ResetCommandGivesResetState : ∃ a : Byte, a ≠ 0x00#8 := ⟨0x05, by decide⟩
theorem witness_NopChangesNothing : ∃ a : Byte, a ≠ 0x00#8 := ⟨0x01, by decide⟩
theorem witness_NextReleasesThePage : ∃ a : Byte, a ≠ 0x00#8 := ⟨0xFF, by decide⟩
theorem witness_EosEndsTheStreamOrFaults : ∃ a : Byte, a ≠ 0x00#8 := ⟨0x80, by decide⟩
theorem witness_CrcClrClearsAccumulator : ∃ a : Byte, a ≠ 0x00#8 := ⟨0x10, by decide⟩
theorem witness_CrcDetectsOneByteErrors :
    (∃ m e : List Byte, m.length = e.length) ∧ (∃ b : Byte, b ≠ 0x00#8) ∧
    (∃ (m : List Byte) (k : Nat) (v : Byte) (h : k < m.length), v ≠ m[k]) :=
  ⟨⟨[1], [2], rfl⟩, ⟨1, by decide⟩, ⟨[7], 0, 8, by decide, by decide⟩⟩
theorem witness_CrcMessageThroughTheCommands : ∃ s : State, s.phase = .idle := ⟨State.reset, rfl⟩
theorem witness_ByteInIdleStartsPage : ∃ s : State, s.phase = .idle :=
  ⟨{ pageHeld with phase := .idle }, rfl⟩
theorem witness_ByteInHeaderIsCaptured :
    (∃ s : State, s.phase = .hdr ∧ s.idx.toNat = 1) ∧ (∃ s : State, s.phase = .hdr ∧ s.idx.toNat = 21) ∧
    (∃ s : State, s.phase = .hdr ∧ s.idx.toNat = 22) ∧
    (∃ s : State, s.phase = .hdr ∧ s.idx.toNat = 25) :=
  ⟨⟨inHeader 1 0, rfl, rfl⟩, ⟨inHeader 21 0, rfl, rfl⟩, ⟨inHeader 22 0, rfl, rfl⟩,
    ⟨inHeader 25 0, rfl, rfl⟩⟩
theorem witness_HeaderEndChecksInOrder : ∃ s : State, s.phase = .hdr ∧ s.idx = 26#16 :=
  ⟨inHeader 26 0x32A550B1, rfl, rfl⟩
theorem witness_ByteInTableRunsLacing :
    (∃ s : State, s.phase = .seg ∧ s.idx.toNat = 0) ∧ (∃ s : State, s.phase = .seg ∧ s.idx.toNat = 254) :=
  ⟨⟨inTable, rfl, rfl⟩, ⟨{ inTable with idx := 254 }, rfl, rfl⟩⟩
theorem witness_ByteInPayloadIsCaptured :
    (∃ s : State, s.phase = .pay ∧ s.idx.toNat = 2) ∧
    (∃ s : State, s.phase = .pay ∧ s.idx.toNat = 65024) :=
  ⟨⟨inPayload, rfl, rfl⟩, ⟨{ inPayload with idx := 65024 }, rfl, rfl⟩⟩
theorem witness_ByteAfterThePageFaults : (∃ s : State, s.phase = .done) ∧
    (∃ s : State, s.phase = .ended) ∧ (∃ s : State, s.phase = .err) :=
  ⟨⟨pageHeld, rfl⟩, ⟨State.reset.setPhase .ended, rfl⟩, ⟨State.reset.raise .shortRead, rfl⟩⟩
theorem witness_ByteStopsOnlyOutsideItsSpace :
    (∃ s : State, s.phase = .hdr ∧ s.idx.toNat = 27) ∧
    (∃ s : State, s.phase = .seg ∧ s.idx.toNat = 255) ∧
    (∃ s : State, s.phase = .pay ∧ s.idx.toNat = 65025) ∧
    (∃ (b : Byte) (s : State) (f : Fault), exec (.byte b) s = .fault f) :=
  ⟨⟨inHeader 27 0, rfl, rfl⟩, ⟨{ inTable with idx := 255 }, rfl, rfl⟩,
    ⟨{ inPayload with idx := 65025 }, rfl, rfl⟩,
    ⟨0x00, { inTable with idx := 255 }, .noSuchByte .seg 255, rfl⟩⟩
theorem witness_PageEndChecksInOrder :
    (∃ s : State, s.acc ≠ s.crcStored) ∧
    (∃ s : State, s.acc = s.crcStored ∧ s.fCont = true) ∧
    (∃ s : State, s.acc = s.crcStored ∧ s.fCont = false ∧ s.npkt = 2) ∧
    (∃ s : State, s.acc = s.crcStored ∧ s.fCont = false ∧ s.npkt = 1) :=
  ⟨⟨inPayload, by decide +kernel⟩,
    ⟨{ State.reset with hdr := (Vector.replicate 27 0).setIfInBounds 5 1 }, by decide +kernel⟩,
    ⟨{ State.reset with npktDone := 2 }, by decide +kernel⟩, ⟨pageHeld, by decide +kernel⟩⟩
theorem witness_LacingMachineCountsPackets : ∃ (s : State) (table : List Byte),
    table.length = 255 ∧ s.payLen = 0#16 ∧ s.npktDone = 0#8 ∧ s.laceOpen = false :=
  ⟨inTable, List.replicate 255 255, List.length_replicate, rfl, rfl, rfl⟩
theorem witness_ByteWritesOneByte : ∃ (b : Byte) (s t : State), exec (.byte b) s = .next t ∧
    storeTarget s = some (.hdr, 0) :=
  ⟨0x4F, State.reset, _, rfl, rfl⟩
theorem witness_OtherCommandsWriteNoByte :
    (∃ (i : Instr) (s t : State), (∀ b, i ≠ .byte b) ∧ exec i s = .next t ∧ i ≠ .reset) ∧
    (∃ (s t : State), (∀ b, Instr.reset ≠ .byte b) ∧ exec .reset s = .next t) :=
  ⟨⟨.next, pageHeld, _, (fun b h => by cases h), rfl, by decide⟩,
    ⟨pageHeld, _, (fun b h => by cases h), rfl⟩⟩
theorem witness_FaultEntryKeepsTheRest : ∃ (i : Instr) (s t : State),
    (∀ b, i = .byte b → s.phase = .done ∨ s.phase = .ended) ∧ s.phase ≠ .err ∧
    exec i s = .next t ∧ t.phase = .err :=
  ⟨.byte 0, pageHeld, _, fun _ _ => .inl rfl, by decide, rfl, rfl⟩
theorem witness_EndOnlyThroughEos : ∃ s t : State, s.phase ≠ .ended ∧ step s = .next t ∧
    t.phase = .ended :=
  ⟨State.reset.present (.command 0x2100), _, by decide, rfl, rfl⟩
theorem witness_BuffersChangeNoOutcome : ∃ s t, step s = .next t :=
  ⟨inTable, inTable, rfl⟩
theorem witness_FirstByteForgetsTheRegisters : ∃ s u : State, s.phase = .idle ∧ u.phase = .idle ∧
    s.err = u.err ∧ s.seg = u.seg ∧ s.pay = u.pay ∧ s.cfg = u.cfg ∧ s.inputs = u.inputs ∧ s ≠ u :=
  ⟨State.reset, State.reset.setAcc 1, rfl, rfl, rfl, rfl, rfl, rfl, rfl, by decide⟩

/-! The states of V-PG-1 satisfy the invariant. -/

theorem inv_reset : BlockInv State.reset :=
  ⟨by decide, rfl, rfl, by decide, by decide, by decide,
    pageReleased_of_clear rfl rfl rfl rfl rfl, trivial⟩

theorem p1_header_accepted {s : State} (h : s.hdr = p1Header) (hc : s.cfg = Config.default) :
    HeaderAccepted s :=
  ⟨by simp only [State.magic, h, hc]; decide +kernel, by simp [hc, Config.default]⟩

theorem witness_InHeader : BlockInv (inHeader 22 0xF0940689) ∧
    (inHeader 22 0xF0940689).phase = .hdr :=
  ⟨⟨by decide, rfl, rfl, by decide, by decide, by decide,
    show InHeader _ from ⟨by decide, by decide, by
      have h : ∀ i : Fin 27, 22 ≤ i.val → (inHeader 22 0xF0940689).hdr[i.val]? = some 0x00#8 := by
        decide +kernel
      exact fun i h1 h2 => h ⟨i, h2⟩ h1, ⟨by decide, by decide, by decide⟩, by decide +kernel⟩,
    trivial⟩, rfl⟩

theorem witness_InTable : BlockInv inTable ∧ inTable.phase = .seg :=
  ⟨⟨by decide, rfl, rfl, by decide, by decide, by decide,
    show InTable _ from ⟨p1_header_accepted rfl rfl, by decide +kernel,
      [], rfl, ⟨by decide, by decide, by decide⟩, by decide +kernel⟩, trivial⟩, rfl⟩

theorem witness_InPayload : BlockInv inPayload ∧ inPayload.phase = .pay :=
  ⟨⟨by decide, by decide, by decide, by decide, by decide, by decide,
    show InPayload _ from ⟨p1_header_accepted rfl rfl, by decide +kernel,
      [0x03], [0x61, 0x62], by decide +kernel, ⟨by decide, by decide, by decide⟩,
      by decide +kernel, by decide +kernel⟩, trivial⟩, rfl⟩

theorem witness_PageHeld : BlockInv pageHeld ∧ pageHeld.phase = .done :=
  ⟨⟨by decide, by decide, by decide, by decide, by decide, by decide,
    show PageHeld _ from ⟨p1_header_accepted rfl rfl, by decide,
      ⟨[0x03], [0x61, 0x62, 0x63],
        ⟨by decide +kernel, ⟨by decide, by decide, by decide⟩, by decide +kernel⟩, by decide +kernel⟩,
      by decide +kernel, by decide +kernel, by decide⟩, trivial⟩, rfl⟩

theorem witness_ForbiddenCommandsFault :
    (∃ (i : Instr) (s : State), s.phase ≠ .err ∧ permitted s.phase i = false) ∧
    (∃ (i : Instr) (s t : State), s.phase ≠ .err ∧ permitted s.phase i = true ∧ exec i s = .next t) ∧
    (∃ (i : Instr) (s : State), BlockInv s ∧ s.phase ≠ .err ∧ permitted s.phase i = true ∧
      i ≠ .eos) ∧
    (∃ s : State, BlockInv s ∧ s.phase = .idle ∧ permitted s.phase .eos = true) ∧
    (∃ s : State, BlockInv s ∧ s.phase = .pay ∧ permitted s.phase .eos = true) ∧
    (∃ (i : Instr) (s : State), s.phase = .err ∧ i ≠ .reset) ∧
    (∃ s : State, s.phase = .err) :=
  ⟨⟨.eos, pageHeld, by decide, rfl⟩, ⟨.next, pageHeld, _, by decide, rfl, rfl⟩,
    ⟨.next, _, witness_PageHeld.1, by decide, rfl, by decide⟩, ⟨_, inv_reset, rfl, rfl⟩,
    ⟨_, witness_InPayload.1, rfl, rfl⟩, ⟨.byte 0, State.reset.raise .shortRead, rfl, by decide⟩,
    ⟨State.reset.raise .shortRead, rfl⟩⟩

/-- The host presents the last payload byte of P1. -/
theorem inv_lastByte : BlockInv (inPayload.present (.command 0x2063)) :=
  ⟨by decide, by decide, by decide, by decide, by decide, by decide,
    show InPayload _ from ⟨p1_header_accepted rfl rfl, by decide +kernel,
      [0x03], [0x61, 0x62], by decide +kernel, ⟨by decide, by decide, by decide⟩,
      by decide +kernel, by decide +kernel⟩, trivial⟩

theorem witness_DoneOnlyThroughTheChecks : ∃ s t : State, s.phase ≠ .done ∧ step s = .next t ∧
    t.phase = .done ∧ BlockInv s := by
  have h : (after (step (inPayload.present (.command 0x2063)))).map State.phase = some .done := by
    decide +kernel
  revert h
  rcases hs : step (inPayload.present (.command 0x2063)) with t | f | r <;> simp only [after]
  · intro h
    exact ⟨_, t, by decide, hs, by simpa using h, inv_lastByte⟩
  · intro h; simp at h
  · intro h; simp at h

theorem witness_StepKeepsInvariant : ∃ s t, BlockInv s ∧ step s = .next t :=
  ⟨inTable, inTable, witness_InTable.1, rfl⟩
theorem witness_StepAlwaysCompletes : ∃ s, BlockInv s ∧ s.phase = .pay :=
  ⟨inPayload, witness_InPayload⟩
theorem witness_SequencerFollowsTransitionTable :
    (∃ w e, decode w = .error e) ∧
    (∃ (i : Instr) (s t : State), s.phase = .err ∧ exec i s = .next t) ∧
    (∃ (i : Instr) (s t : State), BlockInv s ∧ s.phase ≠ .err ∧ exec i s = .next t ∧ s.phase = .hdr) ∧
    (∃ (i : Instr) (s t : State), BlockInv s ∧ s.phase ≠ .err ∧ exec i s = .next t ∧ s.phase = .seg) :=
  ⟨⟨0x0001, .operandNotZero 0x00 0x01, by decide⟩,
    ⟨.eos, State.reset.raise .shortRead, _, rfl, rfl⟩,
    ⟨.eos, _, _, witness_InHeader.1, by decide, rfl, rfl⟩,
    ⟨.eos, _, _, witness_InTable.1, by decide, rfl, rfl⟩⟩
theorem witness_CanonicalBuffersAreEqualByReads : ∃ (n : Nat) (m : Memory), Memory.wf n m = true ∧
    m ≠ [] := ⟨255, [(0, 0x03), (254, 0xFF)], by decide, by decide⟩

/-- The states that a run over the front of page P1 reaches. -/
theorem reachable_front (n : Nat) {t : State} (h : after (runCommands (asmBytes
    ((p1Header.toList ++ [0x03, 0x61, 0x62, 0x63]).take n)) State.reset) = some t) :
    Reachable t := by
  rcases hr : runCommands (asmBytes ((p1Header.toList ++ [0x03, 0x61, 0x62, 0x63]).take n))
    State.reset with u | f | r <;> rw [hr] at h <;> cases h
  exact reachable_run (Reachable.reset Config.default _) hr

theorem reaches_phase (n : Nat) (p : Phase) (h : (after (runCommands (asmBytes
    ((p1Header.toList ++ [0x03, 0x61, 0x62, 0x63]).take n)) State.reset)).map State.phase = some p) :
    ∃ s, Reachable s ∧ s.phase = p := by
  rcases hs : after (runCommands (asmBytes
    ((p1Header.toList ++ [0x03, 0x61, 0x62, 0x63]).take n)) State.reset) with _ | t
  · rw [hs] at h; cases h
  · rw [hs] at h
    exact ⟨t, reachable_front n hs, by simpa using h⟩

/-- A reachable state in each phase that a clause of R44, R151 or R42 speaks of. The runs are over
the front of one page of 31 bytes: SEG is no nearer to reset than 27 commands. -/
theorem witness_ReachableStatesMeetRuleInvariants :
    (∃ s, Reachable s ∧ s.phase = .hdr) ∧ (∃ s, Reachable s ∧ s.phase = .seg) ∧
    (∃ s, Reachable s ∧ s.phase = .pay) ∧ (∃ s, Reachable s ∧ s.phase = .done) :=
  ⟨reaches_phase 26 .hdr (by decide +kernel), reaches_phase 27 .seg (by decide +kernel),
    reaches_phase 28 .pay (by decide +kernel), reaches_phase 31 .done (by decide +kernel)⟩

theorem witness_CountersNeverWrap : (∃ s, Reachable s ∧ s.phase = .hdr) ∧
    (∃ s, Reachable s ∧ s.phase = .seg) ∧ (∃ s, Reachable s ∧ s.phase = .pay) ∧
    (∃ s, Reachable s ∧ s.phase = .done) :=
  witness_ReachableStatesMeetRuleInvariants

/-- The block run on its next `n` inputs, with what the host knows of the page. -/
def followed : Nat → HeldPage → State → Option (HeldPage × State)
  | 0, k, s => some (k, s)
  | n + 1, k, s =>
    match s.inputs, step s with
    | x :: _, .next t => followed n (k.after x t) t
    | _, _ => none

theorem known_of_followed {n : Nat} {k k' : HeldPage} {s s' : State} (hk : Known k s)
    (h : followed n k s = some (k', s')) : Known k' s' := by
  induction n generalizing k s with
  | zero => cases h; exact hk
  | succ n ih =>
    unfold followed at h
    split at h
    · rename_i x rest t hi ht
      exact ih (Known.step k s t x rest hk hi ht) h
    · cases h

/-- The first `n` bytes of page P1 from reset, and the words `ws` after them, of which the first `m` are
run. -/
def p1Followed (n : Nat) (ws : List Half) (m : Nat) : Option (HeldPage × State) :=
  followed (n + m) .noPage { State.reset with
    inputs := asCommands (asmBytes ((p1Header.toList ++ [0x03, 0x61, 0x62, 0x63]).take n)) ++
      ws.map HostInput.command }

/-- A state that the host has followed over `n` bytes of P1, in the phase `p`, with the word `w` next,
which leads to the phase `q`. -/
theorem known_before (n : Nat) (w : Half) (p q : Phase)
    (h : ((p1Followed n [w] 0).bind fun x => (after (step x.2)).map fun t =>
      (x.2.phase, x.2.inputs, t.phase)) = some (p, [.command w], q)) :
    ∃ k s t, Known k s ∧ s.inputs = [.command w] ∧ s.phase = p ∧ step s = .next t ∧ t.phase = q := by
  rcases hf : p1Followed n [w] 0 with _ | ⟨k, s⟩
  · rw [hf] at h; cases h
  · rw [hf] at h
    rcases hs : step s with t | f | r <;> simp [hs, after] at h
    exact ⟨k, s, t, known_of_followed (Known.reset Config.default _) hf, h.2.1, h.1, hs, h.2.2⟩

/-- P1 released by NEXT, with what the host then knows. -/
theorem known_released : ∃ s, Known .released s ∧ s.phase = .idle ∧ s.heldPage = .released ∧
    s.checksumHeld = true := by
  have h : (p1Followed 31 [0x0200] 1).map (fun x =>
      (x.1, x.2.phase, x.2.heldPage, x.2.checksumHeld)) = some (.released, .idle, .released, true) := by
    decide +kernel
  rcases hf : p1Followed 31 [0x0200] 1 with _ | ⟨k, s⟩ <;> rw [hf] at h
  · cases h
  · simp at h
    exact ⟨s, h.1 ▸ known_of_followed (Known.reset Config.default _) hf, h.2⟩

theorem witness_CurrentPageBytesAreReadable : (∃ s, Reachable s ∧ 26 < s.windowOf s.heldPage .hdr) ∧
    (∃ s k, Known k s ∧ 26 < s.windowOf k .hdr) := by
  obtain ⟨s, hs, hp⟩ := witness_ReachableStatesMeetRuleInvariants.2.1
  obtain ⟨u, hu, hq, -⟩ := known_released
  exact ⟨⟨s, hs, by simp [State.windowOf, State.headerWindowOf, hp]⟩,
    ⟨u, .released, hu, by simp [State.windowOf, State.headerWindowOf, hq]⟩⟩

/-- One byte before the end of P1's header. -/
theorem witness_InHeaderLast : BlockInv (inHeader 26 0x32A550B1) :=
  ⟨by decide, rfl, rfl, by decide, by decide, by decide,
    show InHeader _ from ⟨by decide, by decide, by
      have h : ∀ i : Fin 27, 26 ≤ i.val → (inHeader 26 0x32A550B1).hdr[i.val]? = some 0x00#8 := by
        decide +kernel
      exact fun i h1 h2 => h ⟨i, h2⟩ h1, ⟨by decide, by decide, by decide⟩, by decide +kernel⟩,
    trivial⟩

/-- An outcome that is a next state in phase ERR. -/
theorem next_err {o : Host.Outcome State Fault Refusal} (h : (after o).map State.phase = some .err) :
    ∃ t, o = .next t ∧ t.phase = .err := by
  rcases o with t | f | r
  · exact ⟨t, rfl, by simpa [after] using h⟩
  · simp [after] at h
  · simp [after] at h

/-- One fault for each clause: a short read in HDR, SEG and PAY, the byte's own fault at the end of the
header (no entries, a wrong checksum), and a command not allowed in DONE and in IDLE. -/
theorem witness_FaultKeepsTheHeaderWindow :
    (∃ s, BlockInv s ∧ s.phase = .hdr ∧ ∃ t, runWord 0x2100 s = .next t ∧ t.phase = .err) ∧
    (∃ s, BlockInv s ∧ s.phase = .hdr ∧ ∃ t, runWord 0x2000 s = .next t ∧ t.phase = .err) ∧
    (∃ s, BlockInv s ∧ s.phase = .seg ∧ ∃ t, runWord 0x2100 s = .next t ∧ t.phase = .err) ∧
    (∃ s, BlockInv s ∧ s.phase = .pay ∧ ∃ t, runWord 0x2100 s = .next t ∧ t.phase = .err) ∧
    (∃ s, BlockInv s ∧ s.phase = .done ∧ s.cfg.pMagic ≠ 0x00000000#32 ∧
      ∃ t, runWord 0x2100 s = .next t ∧ t.phase = .err) ∧
    (∃ s, BlockInv s ∧ s.phase = .idle ∧ ∃ t, runWord 0x0200 s = .next t ∧ t.phase = .err) :=
  ⟨⟨_, witness_InHeader.1, rfl, next_err (by decide)⟩,
    ⟨_, witness_InHeaderLast, rfl, next_err (by decide +kernel)⟩,
    ⟨_, witness_InTable.1, rfl, next_err (by decide)⟩,
    ⟨_, witness_InPayload.1, rfl, next_err (by decide)⟩,
    ⟨_, witness_PageHeld.1, rfl, by decide, next_err (by decide)⟩,
    ⟨_, inv_reset, rfl, next_err (by decide)⟩⟩

theorem witness_PageTotalsAndChecksumAreThePages :
    (∃ s, Reachable s ∧ s.totalsHeldOf s.heldPage = true) ∧
    (∃ s, Reachable s ∧ s.checksumHeldOf s.heldPage = true) ∧
    (∃ s k, Known k s ∧ s.totalsHeldOf k = true) ∧ (∃ s k, Known k s ∧ s.checksumHeldOf k = true) := by
  obtain ⟨s, hs, hp⟩ := witness_ReachableStatesMeetRuleInvariants.2.2.2
  obtain ⟨u, hu, hq, hk, hc⟩ := known_released
  exact ⟨⟨s, hs, by simp [State.totalsHeldOf, hp]⟩, ⟨s, hs, by simp [State.checksumHeldOf, hp]⟩,
    ⟨u, .released, hu, by simp [State.totalsHeldOf, hq]⟩,
    ⟨u, .released, hu, by rw [← hk]; exact hc⟩⟩

/-- NEXT in DONE, a short read in HDR, SEG and PAY, the byte's own fault at the end of the header, and a
command not allowed in DONE and in IDLE. -/
theorem witness_KnownWindowsAfterNextAndFaults :
    (∃ k s t, Known k s ∧ s.inputs = [.command 0x0200] ∧ s.phase = .done ∧ step s = .next t ∧
      t.phase = .idle) ∧
    (∃ k s t, Known k s ∧ s.inputs = [.command 0x2100] ∧ s.phase = .hdr ∧ step s = .next t ∧
      t.phase = .err) ∧
    (∃ k s t, Known k s ∧ s.inputs = [.command 0x2000] ∧ s.phase = .hdr ∧ step s = .next t ∧
      t.phase = .err) ∧
    (∃ k s t, Known k s ∧ s.inputs = [.command 0x2100] ∧ s.phase = .seg ∧ step s = .next t ∧
      t.phase = .err) ∧
    (∃ k s t, Known k s ∧ s.inputs = [.command 0x2100] ∧ s.phase = .pay ∧ step s = .next t ∧
      t.phase = .err) ∧
    (∃ k s t, Known k s ∧ s.inputs = [.command 0x2100] ∧ s.phase = .done ∧ step s = .next t ∧
      t.phase = .err) ∧
    (∃ k s t, Known k s ∧ s.inputs = [.command 0x0200] ∧ s.phase = .idle ∧ step s = .next t ∧
      t.phase = .err) :=
  ⟨known_before 31 0x0200 .done .idle (by decide +kernel),
    known_before 10 0x2100 .hdr .err (by decide +kernel),
    known_before 26 0x2000 .hdr .err (by decide +kernel),
    known_before 27 0x2100 .seg .err (by decide +kernel),
    known_before 28 0x2100 .pay .err (by decide +kernel),
    known_before 31 0x2100 .done .err (by decide +kernel),
    known_before 0 0x0200 .idle .err (by decide +kernel)⟩

theorem witness_StateTellsTheHeldPage :
    (∃ k s, Known k s ∧ s.cfg.pMagic ≠ 0x00000000#32) ∧
    (∃ s, Known .released s ∧ s.cfg.pMagic ≠ 0x00000000#32 ∧ s.phase = .err) := by
  have h : (p1Followed 31 [0x0200, 0x0200] 2).map (fun x => (x.1, x.2.cfg.pMagic, x.2.phase)) =
      some (.released, 0x5367674F#32, .err) := by decide +kernel
  rcases hf : p1Followed 31 [0x0200, 0x0200] 2 with _ | ⟨k, s⟩ <;> rw [hf] at h
  · cases h
  · simp at h
    exact ⟨⟨.noPage, _, Known.reset Config.default [], by decide⟩,
      ⟨s, h.1 ▸ known_of_followed (Known.reset Config.default _) hf, by rw [h.2.1]; decide, h.2.2⟩⟩

/-- The numbers of R21 and R170. -/
theorem test_phase_and_error_codes :
    [Phase.idle, .hdr, .seg, .pay, .done, .ended, .err].map Phase.code =
      [0b000, 0b001, 0b010, 0b011, 0b100, 0b101, 0b111] ∧
    [ErrCode.none, .invalidSignature, .unsupportedVersion, .crcMismatch, .unsupportedPage, .shortRead,
      .illegalCmd].map ErrCode.code = [0b000, 0b001, 0b010, 0b011, 0b100, 0b101, 0b110] := by decide

/-- R42, after V-PG-9b (EOS after ten header bytes), V-PG-9c (after 27 bytes) and V-DIR-6 (a command not
allowed in DONE). -/
theorem test_window_in_err : ((inHeader 10 0x4B3BC7A2).raise .shortRead).window .hdr = 10 ∧
    (inTable.raise .shortRead).window .hdr = 27 ∧ (pageHeld.raise .illegalCmd).window .hdr = 27 ∧
    (State.reset.raise .illegalCmd).window .hdr = 0 := by decide +kernel
/-- R42, the last row: after NEXT the values are still the released page's, its checksum too. -/
theorem test_window_after_next : (pageHeld.setPhase .idle).window .hdr = 27 ∧
    (pageHeld.setPhase .idle).window .seg = 1 ∧ (pageHeld.setPhase .idle).window .pay = 3 ∧
    (pageHeld.setPhase .idle).totalsHeld = true ∧ (pageHeld.setPhase .idle).checksumHeld = true ∧
    State.reset.window .hdr = 0 := by decide +kernel
/-- R42 under a P_MAGIC of 0: 27 bytes of zero are a page (the checksum of zeros is 0, R106), and after
NEXT they are its header. -/
theorem test_window_all_zero_header :
    (followed 28 .noPage { State.reset with
      cfg := { Config.default with pMagic := 0x00000000 },
      inputs := asCommands (List.replicate 27 (.byte 0x00) ++ [.next]) }).map
        (fun x => (x.1, x.2.phase, x.2.windowOf x.1 .hdr, x.2.totalsHeldOf x.1, x.2.checksumHeldOf x.1)) =
      some (.released, .idle, 27, true, true) := by decide +kernel
/-- One page and checksum for each verdict. -/
theorem witness_PageMeetsItsVerdict : ∀ e : ErrCode, e ≠ .shortRead → e ≠ .illegalCmd →
    ∃ (s : State) (p : PageFields) (crc : Word), s.phase = .idle ∧ s.err = .none ∧ p.wf = true ∧
      verdict s.cfg p crc = e := by
  intro e h1 h2
  cases e with
  | none => exact ⟨State.reset, p1, 0xF091DC49, rfl, rfl, by decide, by decide +kernel⟩
  | invalidSignature =>
    exact ⟨State.reset, { p1 with magic := 0x5867674F }, 0xF889A77C, rfl, rfl, by decide,
      by decide +kernel⟩
  | unsupportedVersion =>
    exact ⟨{ State.reset with cfg := { Config.default with pVersionCheck := true } },
      { p1 with version := 0x01 }, 0x00000000, rfl, rfl, by decide, by decide +kernel⟩
  | crcMismatch => exact ⟨State.reset, p1, 0x00000000, rfl, rfl, by decide, by decide +kernel⟩
  | unsupportedPage =>
    exact ⟨State.reset, { p1 with flags := 0x01 }, ({ p1 with flags := 0x01 } : PageFields).checksum,
      rfl, rfl, by decide, by decide +kernel⟩
  | shortRead => exact absurd rfl h1
  | illegalCmd => exact absurd rfl h2
theorem p1_acceptable : p1.wf = true ∧ verdict State.reset.cfg p1 p1.checksum = .none := by
  decide +kernel
theorem witness_AcceptedPageIsHeldWhole : ∃ (s : State) (p : PageFields), s.phase = .idle ∧
    s.err = .none ∧ p.wf = true ∧ verdict s.cfg p p.checksum = .none :=
  ⟨State.reset, p1, rfl, rfl, p1_acceptable.1, p1_acceptable.2⟩
theorem witness_StreamOfPagesDeliversEveryPacket :
    (∃ (s : State) (ps : List PageFields), ps ≠ [] ∧ s.phase = .idle ∧ s.err = .none ∧
      (∀ p ∈ ps, p.wf = true ∧ verdict s.cfg p p.checksum = .none)) ∧
    (∃ (s : State) (ps : List PageFields), ps ≠ [] ∧ s.phase = .err ∧
      (∀ p ∈ ps, p.wf = true ∧ verdict s.cfg p p.checksum = .none)) := by
  have h : ∀ p ∈ [p1, p1], p.wf = true ∧ verdict Config.default p p.checksum = .none := by
    intro p hp
    have h : p = p1 := by simpa using hp
    rw [h]
    exact p1_acceptable
  exact ⟨⟨State.reset, [p1, p1], by decide, rfl, rfl, h⟩,
    ⟨State.reset.raise .shortRead, [p1, p1], by decide, rfl, h⟩⟩
theorem witness_TruncatedPageIsShortRead :
    (∃ (s : State) (p : PageFields) (n : Nat), s.phase = .idle ∧ s.err = .none ∧ p.wf = true ∧
      verdict s.cfg p p.checksum = .none ∧ n < p.bytes.length ∧ 0 < n) ∧
    (∃ (s : State) (p : PageFields), s.phase = .idle ∧ s.err = .none ∧ p.wf = true ∧
      verdict s.cfg p p.checksum = .none ∧ 0 < p.bytes.length) :=
  ⟨⟨State.reset, p1, 30, rfl, rfl, p1_acceptable.1, p1_acceptable.2, by decide +kernel, by decide⟩,
    ⟨State.reset, p1, rfl, rfl, p1_acceptable.1, p1_acceptable.2, by decide +kernel⟩⟩
theorem witness_OneByteMutationIsNeverAccepted :
    ∃ (s : State) (p : PageFields) (v : Byte), s.phase = .idle ∧ s.err = .none ∧ p.wf = true ∧
      verdict s.cfg p p.checksum = .none ∧
      p.bytes[3]? = some 0x53 ∧ v ≠ 0x53 ∧ p.bytes[4]? = some 0x00 ∧ v ≠ 0x00 ∧
      p.bytes[22]? = some 0x49 ∧ v ≠ 0x49 ∧ p.bytes[25]? = some 0xF0 ∧ v ≠ 0xF0 ∧
      p.bytes[30]? = some 0x63 ∧ v ≠ 0x63 ∧ 27 + p.table.length = 28 :=
  ⟨State.reset, p1, 0x58, rfl, rfl, p1_acceptable.1, p1_acceptable.2, by decide +kernel⟩
theorem witness_MemReadReturnsStoredByte :
    pageHeld.hdr[26]? = some 0x01 ∧ Memory.read pageHeld.seg 0 = some 0x03 ∧
    Memory.read pageHeld.pay 2 = some 0x63 ∧ Memory.read pageHeld.seg 254 = none ∧
    Memory.read pageHeld.pay 65024 = none := by decide +kernel
theorem witness_ReadSelectorsShowTheState : ∃ sel : BitVec 4, 0xB#4 ≤ sel := ⟨0xB, by decide⟩

end Sys2Proof.Tests
end

section
/-! The rules of a step: which word it runs (R8, R74), and what no meaning writes, the queue of the host's
inputs and the configuration (R34). -/

namespace Sys2Proof.Machine

/-! ### The word a step runs -/

theorem step_command {s : State} {w : Half} {rest : List HostInput}
    (h : s.inputs = .command w :: rest) : step s = runWord w { s with inputs := rest } := by
  unfold step runNextInput
  rw [takeInput_cons h]
  rfl

theorem runWord_of_ok {w : Half} {i : Instr} (h : decode w = .ok i) (s : State) :
    runWord w s = exec i s := by
  unfold runWord
  rw [h]

theorem runWord_of_error {w : Half} {e : DecodeError} (h : decode w = .error e) (s : State) :
    runWord w s = execIllegalWord s := by
  unfold runWord
  rw [h]

/-- The illegal word, in every phase (R73, R74). -/
theorem execIllegalWord_eq (s : State) : execIllegalWord s =
    if s.phase = .err then .next s else .next { s with phase := .err, err := .illegalCmd } := by
  unfold execIllegalWord
  cases h : s.phase <;> rfl

theorem tableWord_sixteen (n : Nat) : tableWord 16 n = BitVec.ofNat 16 n := by
  apply BitVec.eq_of_toNat_eq
  simp [tableWord]

theorem decode_of_decodeTableWord {n : Nat} {i : Instr} (h : decodeTableWord 16 n = some i) :
    decode (BitVec.ofNat 16 n) = .ok i := by
  unfold decodeTableWord at h
  rw [tableWord_sixteen] at h
  cases hd : decode (BitVec.ofNat 16 n) with
  | ok j => rw [hd] at h; cases h; rfl
  | error e => rw [hd] at h; cases h

/-- A presented word is the very next one to run. -/
theorem step_withFetchWord (s : State) (n : Nat) :
    step (s.withFetchWord 16 n) = runWord (BitVec.ofNat 16 n) s := by
  rw [← tableWord_sixteen]
  exact step_command rfl

/-! ### What no meaning writes -/

namespace State

variable (s : State)

@[simp] theorem pageEnd_cfg : s.pageEnd.cfg = s.cfg := by
  obtain ⟨p, e, h⟩ := pageEnd_keeps s
  rw [h]
@[simp] theorem pageEnd_inputs : s.pageEnd.inputs = s.inputs := by
  obtain ⟨p, e, h⟩ := pageEnd_keeps s
  rw [h]
@[simp] theorem headerBoundary_cfg : s.headerBoundary.cfg = s.cfg := by
  obtain ⟨p, e, n, h⟩ := headerEnd_keeps s
  unfold headerBoundary
  split <;> simp [h]
@[simp] theorem headerBoundary_inputs : s.headerBoundary.inputs = s.inputs := by
  obtain ⟨p, e, n, h⟩ := headerEnd_keeps s
  unfold headerBoundary
  split <;> simp [h]
@[simp] theorem tableBoundary_cfg : s.tableBoundary.cfg = s.cfg := by
  obtain ⟨p, e, n, h⟩ := tableBoundary_keeps s
  rw [h]
@[simp] theorem tableBoundary_inputs : s.tableBoundary.inputs = s.inputs := by
  obtain ⟨p, e, n, h⟩ := tableBoundary_keeps s
  rw [h]
@[simp] theorem payloadBoundary_cfg : s.payloadBoundary.cfg = s.cfg := by
  unfold payloadBoundary
  split <;> simp
@[simp] theorem payloadBoundary_inputs : s.payloadBoundary.inputs = s.inputs := by
  unfold payloadBoundary
  split <;> simp

end State

theorem execByte_keeps {b : Byte} {s t : State} (h : execByte b s = .next t) :
    t.inputs = s.inputs ∧ t.cfg = s.cfg := by
  rcases execByte_next h with
    ⟨-, rfl⟩ | ⟨-, -, rfl⟩ | ⟨-, -, rfl⟩ | ⟨-, -, rfl⟩ | ⟨-, rfl⟩ | ⟨-, rfl⟩ <;> simp

theorem execIllegalWord_keeps {s t : State} (h : execIllegalWord s = .next t) :
    t.inputs = s.inputs ∧ t.cfg = s.cfg := by
  rcases execIllegalWord_next h with ⟨-, rfl⟩ | ⟨-, rfl⟩ <;> exact ⟨rfl, rfl⟩

/-- No command writes the queue of inputs or the configuration (R34, R203). -/
theorem exec_keeps {i : Instr} {s t : State} (h : exec i s = .next t) :
    t.inputs = s.inputs ∧ t.cfg = s.cfg := by
  cases i with
  | nop => cases h; exact ⟨rfl, rfl⟩
  | reset => cases h; exact ⟨rfl, rfl⟩
  | next => rcases execNext_next h with ⟨-, rfl⟩ | ⟨-, -, rfl⟩ | ⟨-, rfl⟩ <;> exact ⟨rfl, rfl⟩
  | crcClr => rcases execCrcClr_next h with ⟨-, rfl⟩ | ⟨-, -, rfl⟩ | ⟨-, rfl⟩ <;> exact ⟨rfl, rfl⟩
  | crcAbs b => rcases execCrcAbs_next h with ⟨-, rfl⟩ | ⟨-, -, rfl⟩ | ⟨-, rfl⟩ <;> exact ⟨rfl, rfl⟩
  | byte b => exact execByte_keeps h
  | eos =>
    rcases execEos_next h with ⟨-, rfl⟩ | ⟨-, rfl⟩ | ⟨-, rfl⟩ | ⟨-, rfl⟩ <;> exact ⟨rfl, rfl⟩

end Sys2Proof.Machine

namespace Sys2Proof.Proofs

open Sys2Proof.Machine

/-- Settles O5: the word is taken off the queue, and runs as what it decodes to. -/
theorem stepRunsDecodedCommand : Obligations.StepRunsDecodedCommand := by
  unfold Obligations.StepRunsDecodedCommand
  refine ⟨fun s w rest h => step_command h, fun s w i rest h hd => ?_, fun s w e rest h hd => ?_,
    step_withFetchWord, fun s n i hd => ?_⟩
  · rw [step_command h, runWord_of_ok hd]
  · rw [step_command h, runWord_of_error hd, execIllegalWord_eq]
  · rw [step_withFetchWord, runWord_of_ok (decode_of_decodeTableWord hd)]

/-- Settles O7, by what a step can be: a wait, a reset pulse, a command or an illegal word. -/
theorem stepTakesOneInputAndKeepsConfiguration :
    Obligations.StepTakesOneInputAndKeepsConfiguration := by
  intro s t h
  rcases step_next h with ⟨hi, rfl⟩ | ⟨rest, hi, rfl⟩ | ⟨w, i, rest, hi, -, hx⟩ |
    ⟨w, e, rest, hi, -, hx⟩ <;> rw [hi]
  · exact ⟨rfl, rfl⟩
  · exact ⟨rfl, rfl⟩
  · exact exec_keeps hx
  · exact execIllegalWord_keeps hx

end Sys2Proof.Proofs
end

section
/-! A page through BYTE commands, part by part: what the block holds of a page whose first bytes it has
captured, and how the last byte of the page leads to `page_end`. The stream of a page is followed up to
that point whatever `page_end` then answers. -/

namespace Sys2Proof.Machine

/-! ### One byte captured in each phase, before the boundary is tested (R124, R127, R130) -/

namespace State

/-- A header byte captured and absorbed (R124). -/
def captureHdr (b : Byte) (s : State) : State :=
  ((s.putByte .hdr s.idx.toNat b).absorb (headerAbsorbed s.idx.toNat b)).advance

@[simp] theorem captureHdr_idx (b : Byte) (s : State) : (s.captureHdr b).idx = s.idx + 1#16 := rfl
@[simp] theorem captureHdr_acc (b : Byte) (s : State) :
    (s.captureHdr b).acc = crcStep s.acc (headerAbsorbed s.idx.toNat b) := rfl
@[simp] theorem captureHdr_hdr (b : Byte) (s : State) :
    (s.captureHdr b).hdr = s.hdr.setIfInBounds s.idx.toNat b := rfl

/-- A table entry captured, absorbed and classified (R127). -/
def captureSeg (b : Byte) (s : State) : State :=
  (((s.putByte .seg s.idx.toNat b).absorb b).laceEntry b).advance

@[simp] theorem captureSeg_phase (b : Byte) (s : State) : (s.captureSeg b).phase = s.phase := by
  simp [captureSeg]
@[simp] theorem captureSeg_idx (b : Byte) (s : State) : (s.captureSeg b).idx = s.idx + 1#16 := by
  simp [captureSeg]
@[simp] theorem captureSeg_acc (b : Byte) (s : State) : (s.captureSeg b).acc = crcStep s.acc b := by
  simp [captureSeg]
@[simp] theorem captureSeg_hdr (b : Byte) (s : State) : (s.captureSeg b).hdr = s.hdr := by
  simp [captureSeg]
@[simp] theorem captureSeg_seg (b : Byte) (s : State) :
    (s.captureSeg b).seg = Memory.write s.seg s.idx.toNat b := by
  simp [captureSeg]
@[simp] theorem captureSeg_nseg (b : Byte) (s : State) : (s.captureSeg b).nseg = s.nseg := by
  simp [nseg, hdrAt]

/-- A payload byte captured and absorbed (R130). -/
def capturePay (b : Byte) (s : State) : State :=
  ((s.putByte .pay s.idx.toNat b).absorb b).advance

@[simp] theorem capturePay_idx (b : Byte) (s : State) : (s.capturePay b).idx = s.idx + 1#16 := rfl
@[simp] theorem capturePay_acc (b : Byte) (s : State) : (s.capturePay b).acc = crcStep s.acc b := rfl
@[simp] theorem capturePay_hdr (b : Byte) (s : State) : (s.capturePay b).hdr = s.hdr := rfl
@[simp] theorem capturePay_pay (b : Byte) (s : State) :
    (s.capturePay b).pay = Memory.write s.pay s.idx.toNat b := rfl

end State

/-- The first byte of a page is captured at index 0 of a header that is clear (R122, R123). -/
theorem exec_byte_idle {s : State} (b : Byte) (h : s.phase = .idle) :
    exec (.byte b) s = .next ((s.pageClear.captureHdr b).setPhase .hdr) := by
  simp only [exec, execByte, h]
  rfl

theorem exec_byte_hdr {s : State} (b : Byte) (h : s.phase = .hdr) (hi : s.idx.toNat < 27) :
    exec (.byte b) s = .next (s.captureHdr b).headerBoundary := by
  simp only [exec, execByte, h, byteHdr, storeByte_of_lt (sp := .hdr) b _ hi, afterStore,
    State.captureHdr]

theorem exec_byte_seg {s : State} (b : Byte) (h : s.phase = .seg) (hi : s.idx.toNat < 255) :
    exec (.byte b) s = .next (s.captureSeg b).tableBoundary := by
  simp only [exec, execByte, h, byteSeg, storeByte_of_lt (sp := .seg) b _ hi, afterStore,
    State.captureSeg]

theorem exec_byte_pay {s : State} (b : Byte) (h : s.phase = .pay) (hi : s.idx.toNat < 65025) :
    exec (.byte b) s = .next (s.capturePay b).payloadBoundary := by
  simp only [exec, execByte, h, bytePay, storeByte_of_lt (sp := .pay) b _ hi, afterStore,
    State.capturePay]

/-- A page that passes the checks of `page_end` (R131). -/
theorem pageEnd_accepts {s : State} (ha : s.acc = s.crcStored) (hc : s.fCont = false)
    (hn : s.npkt ≤ 1) : s.pageEnd = s.setPhase .done := by
  rcases pageEnd_cases s with ⟨h, -⟩ | ⟨-, h, -⟩ | ⟨-, -, -, h⟩
  · exact absurd ha h
  · exact absurd (h.resolve_left (by simp [hc])) (not_lt.2 hn)
  · exact h

/-! ### A fault is the only thing that writes the error code while bytes arrive -/

namespace State

theorem pageEnd_err {s : State} (h : s.pageEnd.phase ≠ .err) : s.pageEnd.err = s.err := by
  rcases pageEnd_cases s with ⟨-, hp⟩ | ⟨-, -, hp⟩ | ⟨-, -, -, hp⟩ <;> rw [hp] at h ⊢
  · exact absurd rfl h
  · exact absurd rfl h
  · rfl

theorem headerEnd_err {s : State} (h : s.headerEnd.phase ≠ .err) : s.headerEnd.err = s.err := by
  rcases headerEnd_cases s with ⟨-, hp⟩ | ⟨-, -, -, hp⟩ | ⟨-, -, -, hp⟩ | ⟨-, -, -, hp⟩ <;>
    rw [hp] at h ⊢
  · exact absurd rfl h
  · exact absurd rfl h
  · exact pageEnd_err h
  · rfl

theorem headerBoundary_err {s : State} (h : s.headerBoundary.phase ≠ .err) :
    s.headerBoundary.err = s.err := by
  unfold headerBoundary at h ⊢
  split at h
  · rw [if_pos ‹_›, headerEnd_err h]
  · rw [if_neg ‹_›]

theorem tableBoundary_err {s : State} (h : s.tableBoundary.phase ≠ .err) :
    s.tableBoundary.err = s.err := by
  rcases tableBoundary_cases s with ⟨-, hp⟩ | ⟨-, -, hp⟩ | ⟨-, -, hp⟩ <;> rw [hp] at h ⊢
  · exact pageEnd_err h
  · rfl

theorem payloadBoundary_err {s : State} (h : s.payloadBoundary.phase ≠ .err) :
    s.payloadBoundary.err = s.err := by
  unfold payloadBoundary at h ⊢
  split at h
  · rw [if_pos ‹_›, pageEnd_err h]
  · rw [if_neg ‹_›]

end State

theorem exec_byte_err {b : Byte} {s t : State} (h : exec (.byte b) s = .next t)
    (hp : t.phase ≠ .err) : t.err = s.err := by
  rcases execByte_next h with
    ⟨-, rfl⟩ | ⟨-, -, rfl⟩ | ⟨-, -, rfl⟩ | ⟨-, -, rfl⟩ | ⟨-, rfl⟩ | ⟨-, rfl⟩
  · simp
  · rw [State.headerBoundary_err hp]; simp
  · rw [State.tableBoundary_err hp]; simp
  · rw [State.payloadBoundary_err hp]; simp
  · exact absurd rfl hp
  · rfl

end Sys2Proof.Machine

namespace Sys2Proof.Safety

open Sys2Proof.Machine

/-! ### Streams inside a page -/

/-- The block is inside a page (R175): another byte is expected. -/
def InsidePage (s : State) : Prop := s.phase = .hdr ∨ s.phase = .seg ∨ s.phase = .pay

/-- The bytes, as BYTE commands, lead from one state to the other, and the block is inside a page after
each of them. -/
def Captures : List Byte → State → State → Prop
  | [], s, t => s = t
  | b :: bs, s, t => ∃ u, exec (.byte b) s = .next u ∧ InsidePage u ∧ Captures bs u t

/-- The bytes, as BYTE commands, lead to `page_end` in the state `u`: the last of them runs it, and the
block is inside a page after each of the others. -/
def EndsPage (bs : List Byte) (s u : State) : Prop :=
  ∃ front last v, bs = front ++ [last] ∧ Captures front s v ∧ exec (.byte last) v = .next u.pageEnd

theorem captures_singleton {b : Byte} {s t : State} (h : exec (.byte b) s = .next t)
    (ht : InsidePage t) : Captures [b] s t := ⟨t, h, ht, rfl⟩

theorem captures_append {as bs : List Byte} {s t u : State} (h : Captures as s t)
    (h' : Captures bs t u) : Captures (as ++ bs) s u := by
  induction as generalizing s with
  | nil => cases h; exact h'
  | cons a as ih =>
    obtain ⟨v, hv, hi, hr⟩ := h
    exact ⟨v, hv, hi, ih hr⟩

theorem endsPage_singleton {b : Byte} {s u : State} (h : exec (.byte b) s = .next u.pageEnd) :
    EndsPage [b] s u := ⟨[], b, s, rfl, rfl, h⟩

theorem endsPage_append {as bs : List Byte} {s t u : State} (h : Captures as s t)
    (h' : EndsPage bs t u) : EndsPage (as ++ bs) s u := by
  obtain ⟨front, last, v, rfl, hc, hl⟩ := h'
  exact ⟨as ++ front, last, v, by simp, captures_append h hc, hl⟩

theorem endsPage_cons {b : Byte} {bs : List Byte} {s t u : State} (h : exec (.byte b) s = .next t)
    (ht : InsidePage t) (h' : EndsPage bs t u) : EndsPage (b :: bs) s u :=
  endsPage_append (captures_singleton h ht) h'

theorem insidePage_ne_err {s : State} (h : InsidePage s) : s.phase ≠ .err := by
  rcases h with h | h | h <;> rw [h] <;> decide

/-- Inside a page the bytes write neither the configuration nor the error code. -/
theorem captures_keeps {bs : List Byte} {s t : State} (h : Captures bs s t) :
    t.cfg = s.cfg ∧ t.inputs = s.inputs ∧ t.err = s.err := by
  induction bs generalizing s with
  | nil => cases h; exact ⟨rfl, rfl, rfl⟩
  | cons b bs ih =>
    obtain ⟨u, hu, hi, hr⟩ := h
    obtain ⟨hin, hcfg⟩ := exec_keeps hu
    obtain ⟨h1, h2, h3⟩ := ih hr
    exact ⟨h1.trans hcfg, h2.trans hin, h3.trans (exec_byte_err hu (insidePage_ne_err hi))⟩

/-! ### What the block has read of a page -/

/-- The bytes `front` of a header have been read: captured, absorbed as R125 says, and the rest of the
page's registers clear. -/
structure HeaderRead (s : State) (front : List Byte) : Prop where
  idx : s.idx.toNat = front.length
  bytes : s.hdr.toList.take front.length = front
  clear : ∀ i, front.length ≤ i → i < 27 → s.hdr[i]? = some 0x00#8
  laced : Laced s []
  acc : s.acc = crc32Ogg ((crcHeader s.hdr).take front.length)

/-- The header and the entries `table` have been read: captured, summed, classified and absorbed. -/
structure TableRead (s : State) (table : List Byte) : Prop where
  idx : s.idx.toNat = table.length
  entries : Memory.firstBytes s.seg table.length = some table
  laced : Laced s table
  acc : s.acc = crc32Ogg (crcHeader s.hdr ++ table)

/-- The header, the whole table and the payload bytes `body` have been read. -/
structure PayloadRead (s : State) (table body : List Byte) : Prop where
  idx : s.idx.toNat = body.length
  entries : Memory.firstBytes s.seg s.nseg.toNat = some table
  laced : Laced s table
  payload : Memory.firstBytes s.pay body.length = some body
  acc : s.acc = crc32Ogg (crcHeader s.hdr ++ table ++ body)

/-! Such states satisfy what the invariant says of their phase (R44). -/

theorem HeaderRead.inHeader {s : State} {front : List Byte} (h : HeaderRead s front)
    (h1 : 1 ≤ front.length) (h2 : front.length ≤ 26) : InHeader s where
  idx_pos := h.idx ▸ h1
  idx_le := h.idx ▸ h2
  clear := h.idx ▸ h.clear
  laced := h.laced
  acc := h.idx ▸ h.acc

theorem TableRead.inTable {s : State} {table : List Byte} (h : TableRead s table)
    (hh : HeaderAccepted s) (hi : table.length < s.nseg.toNat) : InTable s where
  header := hh
  idx_lt := h.idx ▸ hi
  entries := ⟨table, h.idx ▸ h.entries, h.laced, h.acc⟩

theorem PayloadRead.inPayload {s : State} {table body : List Byte} (h : PayloadRead s table body)
    (hh : HeaderAccepted s) (hi : body.length < s.payLen.toNat) : InPayload s where
  header := hh
  idx_lt := h.idx ▸ hi
  entries := ⟨table, body, h.entries, h.laced, h.idx ▸ h.payload, h.acc⟩

/-- A payload as long as the table says makes a captured page (R42). -/
theorem PayloadRead.pageCaptured {s : State} {table body : List Byte} (h : PayloadRead s table body)
    (hl : s.idx = s.payLen) : PageCaptured s table body where
  entries := h.entries
  laced := h.laced
  payload := by rw [← hl, h.idx]; exact h.payload

theorem PayloadRead.table_length {s : State} {table body : List Byte}
    (h : PayloadRead s table body) : table.length = s.nseg.toNat :=
  (Memory.firstBytes_eq_some.1 h.entries).1

/-- The payload that a table announces fits the counter (R151). -/
theorem PayloadRead.tableSum_le {s : State} {table body : List Byte} (h : PayloadRead s table body) :
    tableSum table ≤ 65025 := by
  have h1 := Safety.tableSum_le table
  have h2 := h.table_length
  have h3 := s.nseg.isLt
  omega

/-! ### One byte more -/

theorem headerRead_pageClear (s : State) : HeaderRead s.pageClear [] where
  idx := rfl
  bytes := rfl
  clear i _ hi := by simp [hi]
  laced := ⟨rfl, rfl, rfl⟩
  acc := rfl

theorem HeaderRead.setPhase {s : State} {front : List Byte} (h : HeaderRead s front) (p : Phase) :
    HeaderRead (s.setPhase p) front := ⟨h.idx, h.bytes, h.clear, laced_congr h.laced rfl rfl rfl, h.acc⟩

theorem HeaderRead.captureHdr {s : State} {front : List Byte} (h : HeaderRead s front)
    (hl : front.length < 27) (b : Byte) : HeaderRead (s.captureHdr b) (front ++ [b]) where
  idx := by
    rw [State.captureHdr_idx, toNat_succ _ (by rw [h.idx]; omega), h.idx, List.length_append]
    rfl
  bytes := by
    have hs : front.length < s.hdr.toList.length := by simpa using hl
    rw [State.captureHdr_hdr, h.idx, Vector.toList_setIfInBounds, List.length_append,
      List.length_singleton, List.take_succ_eq_append_getElem (by simpa using hl),
      List.take_set_of_le le_rfl, h.bytes, List.getElem_set_self]
  clear i h1 h2 := by
    rw [List.length_append, List.length_singleton] at h1
    rw [State.captureHdr_hdr, h.idx, Vector.getElem?_setIfInBounds_ne (by omega)]
    exact h.clear i (by omega) h2
  laced := laced_congr h.laced rfl rfl rfl
  acc := by
    rw [State.captureHdr_acc, State.captureHdr_hdr, h.acc, h.idx, List.length_append,
      List.length_singleton, crcHeader_setIfInBounds s.hdr hl, crc32Ogg_snoc]

theorem TableRead.captureSeg {s : State} {table : List Byte} (h : TableRead s table)
    (hl : table.length < 255) (b : Byte) : TableRead (s.captureSeg b) (table ++ [b]) where
  idx := by
    rw [State.captureSeg_idx, toNat_succ _ (by rw [h.idx]; omega), h.idx, List.length_append]
    rfl
  entries := by
    rw [State.captureSeg_seg, h.idx, List.length_append]
    exact Memory.firstBytes_write_succ b h.entries
  laced :=
    have h' : Laced ((s.putByte .seg s.idx.toNat b).absorb b) table :=
      laced_congr h.laced rfl rfl rfl
    laced_congr (laced_laceEntry b h' hl) rfl rfl rfl
  acc := by
    rw [State.captureSeg_acc, State.captureSeg_hdr, h.acc, ← crc32Ogg_snoc, List.append_assoc]

theorem PayloadRead.capturePay {s : State} {table body : List Byte} (h : PayloadRead s table body)
    (hl : body.length < 65535) (b : Byte) : PayloadRead (s.capturePay b) table (body ++ [b]) where
  idx := by
    rw [State.capturePay_idx, toNat_succ _ (by rw [h.idx]; omega), h.idx, List.length_append]
    rfl
  entries := h.entries
  laced := laced_congr h.laced rfl rfl rfl
  payload := by
    rw [State.capturePay_pay, h.idx, List.length_append]
    exact Memory.firstBytes_write_succ b h.payload
  acc := by
    rw [State.capturePay_acc, State.capturePay_hdr, h.acc, ← crc32Ogg_snoc, List.append_assoc]

/-! ### From one part of the page to the next -/

theorem HeaderRead.tableRead {s : State} {header : List Byte} (h : HeaderRead s header)
    (hl : header.length = 27) : TableRead (s.setIdx 0#16) [] where
  idx := rfl
  entries := rfl
  laced := laced_congr h.laced rfl rfl rfl
  acc := by
    rw [State.setIdx_acc, State.setIdx_hdr, h.acc, hl, List.append_nil,
      List.take_of_length_le (crcHeader_length s.hdr).le]

theorem HeaderRead.hdr_toList {s : State} {header : List Byte} (h : HeaderRead s header)
    (hl : header.length = 27) : s.hdr.toList = header := by
  rw [← h.bytes, hl, List.take_of_length_le (by simp)]

theorem TableRead.payloadRead {s : State} {table : List Byte} (h : TableRead s table)
    (hl : table.length = s.nseg.toNat) : PayloadRead (s.setIdx 0#16) table [] where
  idx := rfl
  entries := hl ▸ h.entries
  laced := laced_congr h.laced rfl rfl rfl
  payload := rfl
  acc := by rw [State.setIdx_acc, State.setIdx_hdr, h.acc, List.append_nil]

theorem TableRead.setPhase {s : State} {table : List Byte} (h : TableRead s table) (p : Phase) :
    TableRead (s.setPhase p) table := 
  ⟨h.idx, h.entries, laced_congr h.laced rfl rfl rfl, h.acc⟩

theorem PayloadRead.setPhase {s : State} {table body : List Byte} (h : PayloadRead s table body)
    (p : Phase) : PayloadRead (s.setPhase p) table body :=
  ⟨h.idx, h.entries, laced_congr h.laced rfl rfl rfl, h.payload, h.acc⟩

/-! ### Where each part ends -/

theorem HeaderRead.idx_eq_iff {s : State} {front : List Byte} (h : HeaderRead s front) :
    s.idx = 27#16 ↔ front.length = 27 := by
  rw [← BitVec.toNat_inj, h.idx]
  rfl

theorem TableRead.idx_eq_iff {s : State} {table : List Byte} (h : TableRead s table) :
    s.idx = zext16 s.nseg ↔ table.length = s.nseg.toNat := by
  rw [← BitVec.toNat_inj, h.idx, zext16_toNat]

theorem TableRead.payLen_eq_zero_iff {s : State} {table : List Byte} (h : TableRead s table) :
    s.payLen = 0#16 ↔ tableSum table = 0 := by
  rw [← BitVec.toNat_inj, h.laced.payLen]
  rfl

theorem PayloadRead.idx_eq_iff {s : State} {table body : List Byte} (h : PayloadRead s table body) :
    s.idx = s.payLen ↔ body.length = tableSum table := by
  rw [← BitVec.toNat_inj, h.idx, h.laced.payLen]

/-! ### The rest of a page, from each part of it on -/

/-- The header bytes up to the last but one are captured without a check (R124). -/
theorem HeaderRead.captures {s : State} {front rest : List Byte} (hp : s.phase = .hdr)
    (h : HeaderRead s front) (hl : front.length + rest.length ≤ 26) :
    ∃ t, Captures rest s t ∧ t.phase = .hdr ∧ HeaderRead t (front ++ rest) := by
  induction rest generalizing s front with
  | nil => exact ⟨s, rfl, hp, by simpa using h⟩
  | cons b rest ih =>
    rw [List.length_cons] at hl
    have hc := h.captureHdr (by omega) b
    have hx := exec_byte_hdr b hp (by rw [h.idx]; omega)
    rw [State.headerBoundary, if_neg (mt hc.idx_eq_iff.1 (by simp; omega))] at hx
    obtain ⟨t, ht, htp, htr⟩ := ih (s := s.captureHdr b) hp hc (by simp; omega)
    exact ⟨t, captures_append (captures_singleton hx (.inl hp)) ht, htp, by simpa using htr⟩

/-- The front of a header, from IDLE on, whatever the block held before (R122, R123). -/
theorem captures_header {s : State} {front : List Byte} (hp : s.phase = .idle) (hne : front ≠ [])
    (hl : front.length ≤ 26) :
    ∃ t, Captures front s t ∧ t.phase = .hdr ∧ HeaderRead t front := by
  obtain ⟨b, rest, rfl⟩ := List.exists_cons_of_ne_nil hne
  have h1 := ((headerRead_pageClear s).captureHdr (by decide) b).setPhase .hdr
  obtain ⟨t, ht, htp, htr⟩ := h1.captures (rest := rest) rfl ((Nat.add_comm _ _).trans_le hl)
  exact ⟨t, captures_append (captures_singleton (exec_byte_idle b hp) (.inl rfl)) ht, htp, htr⟩

/-- From inside the payload its last byte leads to `page_end` (R130). -/
theorem PayloadRead.endsPage {s : State} {table body rest : List Byte} (hp : s.phase = .pay)
    (h : PayloadRead s table body) (hr : rest ≠ [])
    (hl : (body ++ rest).length = tableSum table) :
    ∃ u, EndsPage rest s u ∧ PayloadRead u table (body ++ rest) ∧ u.idx = u.payLen ∧
      u.hdr = s.hdr := by
  induction rest generalizing s body with
  | nil => exact absurd rfl hr
  | cons b rest ih =>
    rw [List.append_cons] at hl ⊢
    have hlt : body.length < 65025 := by
      have := h.tableSum_le
      rw [List.length_append, List.length_append, List.length_singleton] at hl
      omega
    have hc := h.capturePay (by omega) b
    have hx := exec_byte_pay b hp (h.idx ▸ hlt)
    by_cases e : rest = []
    · subst e
      rw [List.append_nil] at hl ⊢
      have hi := hc.idx_eq_iff.2 hl
      rw [State.payloadBoundary, if_pos hi] at hx
      exact ⟨s.capturePay b, endsPage_singleton hx, hc, hi, rfl⟩
    · have hi : (body ++ [b]).length ≠ tableSum table := by
        have := List.length_pos_of_ne_nil e
        rw [List.length_append] at hl
        omega
      rw [State.payloadBoundary, if_neg (mt hc.idx_eq_iff.1 hi)] at hx
      obtain ⟨u, hu, hur, hui, huh⟩ := ih (s := s.capturePay b) hp hc e hl
      exact ⟨u, endsPage_cons hx (.inr (.inr hp)) hu, hur, hui, huh⟩

/-- The last entry of the table leads to the payload, or to `page_end` where the payload is empty
(R127, R129). -/
theorem TableRead.endsPage_of_last {s : State} {table body : List Byte} {b : Byte}
    (hp : s.phase = .seg) (h : TableRead s table) (hn : (table ++ [b]).length = s.nseg.toNat)
    (hl : body.length = tableSum (table ++ [b])) :
    ∃ u, EndsPage (b :: body) s u ∧ PayloadRead u (table ++ [b]) body ∧ u.idx = u.payLen ∧
      u.hdr = s.hdr := by
  have hlt : table.length < 255 := by
    have := s.nseg.isLt
    rw [List.length_append, List.length_singleton] at hn
    omega
  have hc := h.captureSeg hlt b
  have hn' : (table ++ [b]).length = (s.captureSeg b).nseg.toNat := by rwa [State.captureSeg_nseg]
  have hw := hc.payloadRead hn'
  have hx := exec_byte_seg b hp (h.idx ▸ hlt)
  rw [State.tableBoundary, if_pos (hc.idx_eq_iff.2 hn')] at hx
  by_cases e : body = []
  · subst e
    rw [if_pos (hc.payLen_eq_zero_iff.2 hl.symm)] at hx
    exact ⟨_, endsPage_singleton hx, hw, hw.idx_eq_iff.2 hl, State.captureSeg_hdr b s⟩
  · have hz : tableSum (table ++ [b]) ≠ 0 := hl ▸ (List.length_pos_of_ne_nil e).ne'
    rw [if_neg (mt hc.payLen_eq_zero_iff.1 hz)] at hx
    obtain ⟨u, hu, hur, hui, huh⟩ := (hw.setPhase .pay).endsPage rfl e hl
    exact ⟨u, endsPage_cons hx (.inr (.inr rfl)) hu, hur, hui, huh.trans (State.captureSeg_hdr b s)⟩

/-- From inside the table, with the payload it announces, the last byte of the page leads to
`page_end` (R127 to R130). -/
theorem TableRead.endsPage {s : State} {table rest body : List Byte} (hp : s.phase = .seg)
    (h : TableRead s table) (hr : rest ≠ []) (hn : (table ++ rest).length = s.nseg.toNat)
    (hl : body.length = tableSum (table ++ rest)) :
    ∃ u, EndsPage (rest ++ body) s u ∧ PayloadRead u (table ++ rest) body ∧ u.idx = u.payLen ∧
      u.hdr = s.hdr := by
  induction rest generalizing s table with
  | nil => exact absurd rfl hr
  | cons b rest ih =>
    by_cases e : rest = []
    · subst e
      exact h.endsPage_of_last hp hn hl
    · rw [List.append_cons] at hn hl ⊢
      have hpos := List.length_pos_of_ne_nil e
      have hlt := s.nseg.isLt
      have hi : (table ++ [b]).length < s.nseg.toNat := by
        rw [List.length_append] at hn
        omega
      rw [List.length_append, List.length_singleton] at hi
      have hc := h.captureSeg (by omega) b
      have hx := exec_byte_seg b hp (by rw [h.idx]; omega)
      have hne : (table ++ [b]).length ≠ (s.captureSeg b).nseg.toNat := by
        rw [State.captureSeg_nseg, List.length_append, List.length_singleton]
        omega
      have hp' : (s.captureSeg b).phase = .seg := (State.captureSeg_phase b s).trans hp
      rw [State.tableBoundary, if_neg (mt hc.idx_eq_iff.1 hne)] at hx
      obtain ⟨u, hu, hur, hui, huh⟩ := ih hp' hc e (by rwa [State.captureSeg_nseg]) hl
      exact ⟨u, endsPage_cons hx (.inr (.inl hp')) hu, hur, hui,
        huh.trans (State.captureSeg_hdr b s)⟩

/-- From the last byte of a header that passes `header_end`, with the table and the payload it
announces, the last byte of the page leads to `page_end` (R126, R136). -/
theorem HeaderRead.endsPage {s : State} {front table body : List Byte} {b : Byte}
    (hp : s.phase = .hdr) (h : HeaderRead s front) (hf : front.length = 26)
    (ha : HeaderAccepted (s.captureHdr b)) (hn : table.length = b.toNat)
    (hl : body.length = tableSum table) :
    ∃ u, EndsPage (b :: (table ++ body)) s u ∧ PayloadRead u table body ∧ u.idx = u.payLen ∧
      u.hdr = (s.captureHdr b).hdr := by
  have hc := h.captureHdr (by omega) b
  have hlen : (front ++ [b]).length = 27 := by simp [hf]
  have hx := exec_byte_hdr b hp (by rw [h.idx]; omega)
  rw [State.headerBoundary, if_pos (hc.idx_eq_iff.2 hlen)] at hx
  have hseg : (s.captureHdr b).nseg = b := by simp [State.nseg, State.hdrAt, h.idx, hf]
  have hn' : table.length = (s.captureHdr b).nseg.toNat := by rw [hseg, hn]
  have hw := hc.tableRead hlen
  rcases headerEnd_cases (s.captureHdr b) with ⟨hm, -⟩ | ⟨-, hv, hv', -⟩ | ⟨-, -, h0, he⟩ |
    ⟨-, -, h0, he⟩
  · exact absurd ha.magic hm
  · exact absurd (ha.version hv) hv'
  · rw [he] at hx
    obtain rfl : table = [] := List.eq_nil_of_length_eq_zero (by rw [hn', h0]; rfl)
    obtain rfl : body = [] := List.eq_nil_of_length_eq_zero hl
    have hr := hw.payloadRead hn'
    exact ⟨_, endsPage_singleton hx, hr, hr.idx_eq_iff.2 rfl, rfl⟩
  · rw [he] at hx
    have hne : table ≠ [] := by
      rintro rfl
      exact h0 (BitVec.eq_of_toNat_eq hn'.symm)
    obtain ⟨u, hu, hur, hui, huh⟩ := (hw.setPhase .seg).endsPage rfl hne hn' hl
    exact ⟨u, endsPage_cons hx (.inr (.inl rfl)) hu, hur, hui, huh⟩

end Sys2Proof.Safety
end

section
/-! A whole page of the wire format through BYTE commands, and a stream of such pages through the host
protocol. -/

namespace Sys2Proof.Machine

/-! ### Little-endian fields (R55) -/

theorem leNat_leBytes (n v : Nat) : leNat (leBytes n v) = v % 256 ^ n := by
  induction n generalizing v with
  | zero => simp [leBytes, leNat, Nat.mod_one]
  | succ n ih =>
    simp only [leBytes, leNat, ih, BitVec.toNat_ofNat]
    rw [show 256 ^ (n + 1) = 256 * 256 ^ n from Nat.pow_succ', Nat.mod_mul]

/-- A word written least significant byte first reads back. -/
theorem ofNat_leNat_leBytes (n : Nat) (v : BitVec (8 * n)) :
    BitVec.ofNat (8 * n) (leNat (leBytes n v.toNat)) = v := by
  apply BitVec.eq_of_toNat_eq
  rw [leNat_leBytes, BitVec.toNat_ofNat, show 256 ^ n = 2 ^ (8 * n) by rw [pow_mul]; norm_num, Nat.mod_mod,
    Nat.mod_eq_of_lt v.isLt]

/-! ### The header of a page (R76), as the header registers show it (R27) -/

theorem hdrAt_of_getElem? {s : State} {i : Fin 27} {b : Byte} (h : s.hdr.toList[i.val]? = some b) :
    s.hdrAt i = b := by
  simpa [State.hdrAt] using h

section Views

variable {s : State} {p : PageFields} {crc : Word}

theorem magic_of_header (h : s.hdr.toList = p.header crc) : s.magic = p.magic := by
  unfold State.magic le
  rw [h]
  exact ofNat_leNat_leBytes 4 p.magic

theorem crcStored_of_header (h : s.hdr.toList = p.header crc) : s.crcStored = crc := by
  unfold State.crcStored le
  rw [h]
  exact ofNat_leNat_leBytes 4 crc

theorem version_of_header (h : s.hdr.toList = p.header crc) : s.version = p.version :=
  hdrAt_of_getElem? (by rw [h]; rfl)

theorem flags_of_header (h : s.hdr.toList = p.header crc) : s.flags = p.flags :=
  hdrAt_of_getElem? (by rw [h]; rfl)

end Views

/-- The header is 26 bytes and the count of segments (R76). -/
theorem header_eq_append (p : PageFields) (crc : Word) :
    ∃ front, front.length = 26 ∧ p.header crc = front ++ [BitVec.ofNat 8 p.table.length] :=
  ⟨_, rfl, rfl⟩

end Sys2Proof.Machine

namespace Sys2Proof.Safety

open Sys2Proof.Machine

/-- The accumulator absorbs the header with its checksum field zero (R83, R125). -/
theorem crcHeader_of_header {s : State} {p : PageFields} {crc : Word}
    (h : s.hdr.toList = p.header crc) : crcHeader s.hdr = p.header 0x00000000#32 := by
  unfold crcHeader
  rw [h]
  simp [PageFields.header, leBytes, headerAbsorbed]

theorem wf_iff {p : PageFields} :
    p.wf = true ↔ p.table.length ≤ 255 ∧ p.payload.length = tableSum p.table := by
  simp [PageFields.wf]

/-- The pages that meet no error (R126, R131). -/
theorem verdict_eq_none {cfg : Config} {p : PageFields} {crc : Word} :
    verdict cfg p crc = .none ↔
      p.magic = cfg.pMagic ∧ (cfg.pVersionCheck = true → p.version = 0x00#8) ∧ crc = p.checksum ∧
        p.flags.getLsbD 0 = false ∧ packetCount p.table ≤ 1 := by
  unfold verdict
  split_ifs with h1 h2 h3 h4
  · simp [h1]
  · simp [h2.1, h2.2]
  · simp [h3]
  · rcases h4 with h4 | h4
    · simp [h4]
    · simp [not_le.2 h4]
  · rw [not_or, Bool.not_eq_true, not_lt] at h4
    exact iff_of_true rfl ⟨not_not.1 h1, fun hc => not_not.1 fun hv => h2 ⟨hc, hv⟩, not_not.1 h3, h4⟩

/-- A well-formed page whose header passes `header_end`, with any checksum in its field, leads from IDLE
to `page_end`, with the whole page read (R122 to R130). -/
theorem page_endsPage {s : State} {p : PageFields} (crc : Word) (hp : s.phase = .idle)
    (hwf : p.wf = true) (hm : p.magic = s.cfg.pMagic)
    (hv : s.cfg.pVersionCheck = true → p.version = 0x00#8) :
    ∃ u, EndsPage (p.bytesWith crc) s u ∧ PayloadRead u p.table p.payload ∧ u.idx = u.payLen ∧
      u.hdr.toList = p.header crc := by
  obtain ⟨htl, hpl⟩ := wf_iff.1 hwf
  obtain ⟨front, hfl, hf⟩ := header_eq_append p crc
  obtain ⟨v, hc, hvp, hvr⟩ := captures_header hp (List.ne_nil_of_length_pos (by omega)) hfl.le
  have hh : (v.captureHdr (BitVec.ofNat 8 p.table.length)).hdr.toList = p.header crc :=
    hf ▸ (hvr.captureHdr (by omega) _).hdr_toList (by simp [hfl])
  have hcfg : (v.captureHdr (BitVec.ofNat 8 p.table.length)).cfg = s.cfg := (captures_keeps hc).1
  have ha : HeaderAccepted (v.captureHdr (BitVec.ofNat 8 p.table.length)) :=
    ⟨by rw [magic_of_header hh, hcfg, hm], by rwa [version_of_header hh, hcfg]⟩
  have hn : p.table.length = (BitVec.ofNat 8 p.table.length).toNat := by
    rw [BitVec.toNat_ofNat, Nat.mod_eq_of_lt (by omega)]
  obtain ⟨u, hu, hur, hui, huh⟩ := hvr.endsPage hvp hfl ha hn hpl
  refine ⟨u, ?_, hur, hui, huh ▸ hh⟩
  rw [PageFields.bytesWith, hf, List.append_assoc, List.append_assoc]
  exact endsPage_append hc hu

/-- The accumulator at the end of a page is the page's checksum (R83, R125). -/
theorem PayloadRead.acc_eq_checksum {u : State} {p : PageFields} {crc : Word}
    (h : PayloadRead u p.table p.payload) (hh : u.hdr.toList = p.header crc) :
    u.acc = p.checksum := by
  rw [h.acc, crcHeader_of_header hh]
  rfl

/-- An acceptable page leads from IDLE to DONE, with its payload held as the packet (R131, R137). -/
theorem acceptable_page_endsPage {s : State} {p : PageFields} (hp : s.phase = .idle)
    (hwf : p.wf = true) (hv : verdict s.cfg p p.checksum = .none) :
    ∃ u, EndsPage p.bytes s u ∧ u.pageEnd = u.setPhase .done ∧
      (u.setPhase .done).packet = some p.payload := by
  obtain ⟨hm, hver, -, hcont, hcount⟩ := verdict_eq_none.1 hv
  obtain ⟨u, hu, hr, hi, hh⟩ := page_endsPage p.checksum hp hwf hm hver
  refine ⟨u, hu, pageEnd_accepts ?_ ?_ ?_, (hr.pageCaptured hi).payload⟩
  · rw [hr.acc_eq_checksum hh, crcStored_of_header hh]
  · rw [State.fCont, flags_of_header hh, hcont]
  · rw [laced_npkt hr.laced]
    exact hcount

/-! ### The host protocol (R17) -/

theorem hostStream_captures {front : List Byte} {s t : State} (bs : List Byte)
    (h : Captures front s t) : hostStream (front ++ bs) s = hostStream bs t := by
  induction front generalizing s with
  | nil => cases h; rfl
  | cons b front ih =>
    obtain ⟨u, hu, hi, hr⟩ := h
    rw [List.cons_append, hostStream, hu, ← ih hr]
    rcases hi with hi | hi | hi <;> simp only [hi]

/-- In DONE the host takes the packet, releases the page and goes on. -/
theorem hostStream_done {b : Byte} {bs : List Byte} {s t v : State} {packets : List (List Byte)}
    (hx : exec (.byte b) s = .next t) (ht : t.phase = .done)
    (h : hostStream bs (t.setPhase .idle) = .next (packets, v)) :
    hostStream (b :: bs) s = .next (t.packet.toList ++ packets, v) := by
  have hn : exec .next t = .next (t.setPhase .idle) := by simp only [exec, execNext, ht]
  rw [hostStream, hx]
  simp only [ht, hn, h]

/-- The end of the stream between pages (R135, R142). -/
theorem hostStream_nil {s : State} (hp : s.phase = .idle) :
    hostStream [] s = .next ([], s.setPhase .ended) := by
  simp only [hostStream, exec, execEos, hp]

/-- A page that passes `page_end` hands over its packet, and the host goes on from IDLE. -/
theorem hostStream_endsPage {page bs : List Byte} {s u v : State} {packets : List (List Byte)}
    (hu : EndsPage page s u) (hd : u.pageEnd = u.setPhase .done)
    (h : hostStream bs (u.setPhase .idle) = .next (packets, v)) :
    hostStream (page ++ bs) s = .next ((u.setPhase .done).packet.toList ++ packets, v) := by
  obtain ⟨front, last, w, rfl, hc, hx⟩ := hu
  rw [hd] at hx
  rw [List.append_assoc, hostStream_captures _ hc]
  exact hostStream_done hx rfl h

/-- A page that passes `page_end` writes neither the configuration nor the error code. -/
theorem endsPage_keeps {bs : List Byte} {s u : State} (hu : EndsPage bs s u)
    (hd : u.pageEnd = u.setPhase .done) : u.cfg = s.cfg ∧ u.err = s.err := by
  obtain ⟨front, last, w, -, hc, hx⟩ := hu
  rw [hd] at hx
  obtain ⟨hcfg, -, herr⟩ := captures_keeps hc
  exact ⟨(exec_keeps hx).2.trans hcfg, (exec_byte_err hx (show Phase.done ≠ .err by decide)).trans herr⟩

/-- A stream of acceptable pages, from a block in IDLE. -/
theorem hostStream_pages {s : State} {ps : List PageFields} (hp : s.phase = .idle)
    (he : s.err = .none) (hps : ∀ p ∈ ps, p.wf = true ∧ verdict s.cfg p p.checksum = .none) :
    ∃ t, hostStream (ps.flatMap PageFields.bytes) s = .next (ps.map PageFields.payload, t) ∧
      t.phase = .ended ∧ t.err = .none := by
  induction ps generalizing s with
  | nil => exact ⟨_, hostStream_nil hp, rfl, he⟩
  | cons p ps ih =>
    obtain ⟨hwf, hv⟩ := hps p List.mem_cons_self
    obtain ⟨u, hu, hd, hpk⟩ := acceptable_page_endsPage hp hwf hv
    obtain ⟨hcfg, herr⟩ := endsPage_keeps hu hd
    obtain ⟨t, ht, htp, hte⟩ := ih (s := u.setPhase .idle) rfl (herr.trans he) fun q hq => by
      rw [State.setPhase_cfg, hcfg]
      exact hps q (List.mem_cons_of_mem p hq)
    have := hostStream_endsPage hu hd ht
    rw [hpk] at this
    exact ⟨t, this, htp, hte⟩

/-- A RESET before a stream gives a block in IDLE with no fault, under the same configuration (R161). -/
theorem hostDecode_eq (bs : List Byte) (s : State) :
    hostDecode bs s = hostStream bs s.resetRegisters := rfl

end Sys2Proof.Safety

namespace Sys2Proof.Proofs

open Sys2Proof.Machine Sys2Proof.Safety

/-- Settles O49, by induction on the pages: each leads from IDLE to DONE, and NEXT back to IDLE. -/
theorem streamOfPagesDeliversEveryPacket : Obligations.StreamOfPagesDeliversEveryPacket := by
  intro s ps hps
  refine ⟨fun hp he => hostStream_pages hp he hps, ?_⟩
  rw [hostDecode_eq]
  exact hostStream_pages rfl rfl hps

end Sys2Proof.Proofs
end

section
/-! The invariant of the block (R44, R125, R151): it holds after reset, and every step keeps it. A BYTE is
followed by what the block has read of its page (`HeaderRead`, `TableRead`, `PayloadRead`). -/

namespace Sys2Proof.Safety

open Sys2Proof.Machine

/-! ### What the invariant says of each phase -/

theorem phaseInv_idle {s : State} (hp : s.phase = .idle) : PhaseInv s ↔ PageReleased s := by
  rw [PhaseInv, hp]
theorem phaseInv_hdr {s : State} (hp : s.phase = .hdr) : PhaseInv s ↔ InHeader s := by
  rw [PhaseInv, hp]
theorem phaseInv_seg {s : State} (hp : s.phase = .seg) : PhaseInv s ↔ InTable s := by
  rw [PhaseInv, hp]
theorem phaseInv_pay {s : State} (hp : s.phase = .pay) : PhaseInv s ↔ InPayload s := by
  rw [PhaseInv, hp]
theorem phaseInv_done {s : State} (hp : s.phase = .done) : PhaseInv s ↔ PageHeld s := by
  rw [PhaseInv, hp]
theorem phaseInv_ended {s : State} (hp : s.phase = .ended) : PhaseInv s ↔ PageReleased s := by
  rw [PhaseInv, hp]

/-- The header's checks depend on the header and the configuration alone. -/
theorem headerAccepted_congr {s t : State} (h : HeaderAccepted s) (hh : t.hdr = s.hdr)
    (hc : t.cfg = s.cfg) : HeaderAccepted t :=
  ⟨by simpa only [State.magic, hh, hc] using h.magic,
    by simpa only [State.version, State.hdrAt, hh, hc] using h.version⟩

/-! ### The phases of a page as parts of it that have been read -/

theorem InHeader.headerRead {s : State} (h : InHeader s) :
    HeaderRead s (s.hdr.toList.take s.idx.toNat) := by
  have hl : (s.hdr.toList.take s.idx.toNat).length = s.idx.toNat := by
    have := h.idx_le
    simp only [List.length_take, Vector.length_toList]
    omega
  exact ⟨hl.symm, by rw [hl], hl.symm ▸ h.clear, h.laced, hl.symm ▸ h.acc⟩

theorem InTable.tableRead {s : State} (h : InTable s) : ∃ table, TableRead s table := by
  obtain ⟨table, ht, hl, ha⟩ := h.entries
  have hn := (Memory.firstBytes_eq_some.1 ht).1
  exact ⟨table, hn.symm, hn.symm ▸ ht, hl, ha⟩

theorem InPayload.payloadRead {s : State} (h : InPayload s) :
    ∃ table body, PayloadRead s table body := by
  obtain ⟨table, body, ht, hl, hb, ha⟩ := h.entries
  have hn := (Memory.firstBytes_eq_some.1 hb).1
  exact ⟨table, body, hn.symm, ht, hl, hn.symm ▸ hb, ha⟩

theorem PageHeld.pageReleased {s : State} (h : PageHeld s) : PageReleased s := by
  obtain ⟨table, body, hc, ha⟩ := h.absorbed
  exact ⟨h.idx, table, body, hc, h.checksum ▸ ha⟩

/-! ### The counters -/

/-- The bounds of R151 on a table that fits its header's count. -/
theorem laced_bounds {s : State} {table : List Byte} (h : Laced s table)
    (hl : table.length ≤ s.nseg.toNat) : s.payLen.toNat ≤ 65025 ∧ s.npkt ≤ s.nseg.toNat := by
  have h1 := tableSum_le table
  have h2 := (packetCount_le table).1
  have h3 := s.nseg.isLt
  rw [h.payLen, laced_npkt h]
  omega

theorem laced_nil {s : State} (h : Laced s []) : s.payLen = 0#16 ∧ s.npkt = 0 :=
  ⟨BitVec.eq_of_toNat_eq h.payLen, laced_npkt h⟩

/-- Outside ERR the block is in one part of a page, or holds a whole one. -/
theorem phaseInv_cases {s : State} (hp : s.phase ≠ .err) (h : PhaseInv s) :
    (s.phase = .hdr ∧ InHeader s) ∨ (s.phase = .seg ∧ InTable s) ∨
      (s.phase = .pay ∧ InPayload s) ∨ (s.phase ≠ .hdr ∧ PageReleased s) := by
  cases hs : s.phase with
  | hdr => exact .inl ⟨rfl, (phaseInv_hdr hs).1 h⟩
  | seg => exact .inr (.inl ⟨rfl, (phaseInv_seg hs).1 h⟩)
  | pay => exact .inr (.inr (.inl ⟨rfl, (phaseInv_pay hs).1 h⟩))
  | idle => exact .inr (.inr (.inr ⟨by decide, (phaseInv_idle hs).1 h⟩))
  | done => exact .inr (.inr (.inr ⟨by decide, ((phaseInv_done hs).1 h).pageReleased⟩))
  | ended => exact .inr (.inr (.inr ⟨by decide, (phaseInv_ended hs).1 h⟩))
  | err => exact absurd hs hp

/-- Outside ERR the counters are those of some of the table's entries; with none of them `idx` is 0, but
in the header. -/
theorem phaseInv_entries {s : State} (hp : s.phase ≠ .err) (h : PhaseInv s) :
    ∃ table, Laced s table ∧ table.length ≤ s.nseg.toNat ∧ s.idx.toNat ≤ 65025 ∧
      (table = [] → s.phase ≠ .hdr → s.idx = 0#16) := by
  rcases phaseInv_cases hp h with ⟨hs, hi⟩ | ⟨-, hi⟩ | ⟨-, hi⟩ | ⟨-, hi⟩
  · exact ⟨[], hi.laced, Nat.zero_le _, hi.idx_le.trans (by decide), fun _ e => absurd hs e⟩
  · obtain ⟨table, ht⟩ := hi.tableRead
    have hlt := hi.idx_lt
    have hn := s.nseg.isLt
    refine ⟨table, ht.laced, ht.idx ▸ hlt.le, by omega, fun e _ => BitVec.eq_of_toNat_eq ?_⟩
    rw [ht.idx, e]
    rfl
  · obtain ⟨table, body, hb⟩ := hi.payloadRead
    have hl := hb.table_length.le
    have hlt := hi.idx_lt
    refine ⟨table, hb.laced, hl, hlt.le.trans (laced_bounds hb.laced hl).1, fun e _ => ?_⟩
    rw [(laced_nil (e ▸ hb.laced)).1] at hlt
    exact absurd hlt (Nat.not_lt_zero _)
  · obtain ⟨table, body, hc, -⟩ := hi.captured
    have hl := (Memory.firstBytes_eq_some.1 hc.entries).1.le
    exact ⟨table, hc.laced, hl, hi.idx ▸ (laced_bounds hc.laced hl).1,
      fun e _ => hi.idx.trans (laced_nil (e ▸ hc.laced)).1⟩

theorem phaseInv_bounds {s : State} (hp : s.phase ≠ .err) (h : PhaseInv s) :
    s.idx.toNat ≤ 65025 ∧ s.payLen.toNat ≤ 65025 ∧ s.npkt ≤ s.nseg.toNat := by
  obtain ⟨table, hl, hn, hi, -⟩ := phaseInv_entries hp h
  exact ⟨hi, laced_bounds hl hn⟩

/-- With no table entry counted a page is in its header or has no bytes left to come (R136). -/
theorem idx_eq_zero_of_npkt {s : State} (hp : s.phase ≠ .err) (h : PhaseInv s) (hh : s.phase ≠ .hdr)
    (h0 : s.npkt = 0) : s.idx = 0#16 := by
  obtain ⟨table, hl, -, -, hi⟩ := phaseInv_entries hp h
  exact hi (eq_nil_of_packetCount_eq_zero ((laced_npkt hl).symm.trans h0)) hh

/-! ### States outside ERR, and faults -/

/-- No fault is recorded, and both buffers are canonical: what every BYTE that captures keeps. -/
structure Clean (s : State) : Prop where
  err : s.err = .none
  segWf : Memory.wf 255 s.seg = true
  payWf : Memory.wf 65025 s.pay = true

theorem BlockInv.clean {s : State} (h : BlockInv s) (hp : s.phase ≠ .err) : Clean s :=
  ⟨h.errIff.2 hp, h.segWf, h.payWf⟩

theorem Clean.putByte {s : State} (h : Clean s) {sp : Space} {i : Nat} (b : Byte)
    (hi : i < sp.size) : Clean (s.putByte sp i b) :=
  have ⟨hs, hp⟩ := putByte_buffers_wf b hi h.segWf h.payWf
  ⟨(State.putByte_err s sp i b).trans h.err, hs, hp⟩

theorem Clean.congr {s t : State} (h : Clean s) (he : t.err = s.err) (hs : t.seg = s.seg)
    (hp : t.pay = s.pay) : Clean t := ⟨he.trans h.err, hs ▸ h.segWf, hp ▸ h.payWf⟩

/-- Outside ERR the rule of the phase is all that the invariant needs. -/
theorem Clean.blockInv {s : State} (h : Clean s) (hp : s.phase ≠ .err) (hi : PhaseInv s) :
    BlockInv s :=
  have ⟨h1, h2, h3⟩ := phaseInv_bounds hp hi
  ⟨iff_of_true h.err hp, h.segWf, h.payWf, h1, h2, h3, hi, by rw [ErrInv, h.err]; trivial⟩

/-- In ERR the record of the fault is, with the bounds of the registers that it keeps (R180). -/
theorem Clean.blockInv_raise {s : State} (h : Clean s) {c : ErrCode} (hc : c ≠ .none)
    (hb : s.idx.toNat ≤ 65025 ∧ s.payLen.toNat ≤ 65025 ∧ s.npkt ≤ s.nseg.toNat)
    (he : ErrInv (s.raise c)) : BlockInv (s.raise c) :=
  ⟨iff_of_false hc (absurd rfl), h.segWf, h.payWf, hb.1, hb.2.1, hb.2.2, trivial, he⟩

/-- SHORT_READ and ILLEGAL_CMD keep the invariant, in whatever phase they are taken (R175, R176). -/
theorem BlockInv.raise {s : State} (h : BlockInv s) (hp : s.phase ≠ .err) {c : ErrCode}
    (hc : c = .shortRead ∨ c = .illegalCmd) : BlockInv (s.raise c) := by
  have hidx : s.npkt = 0 → s.idx.toNat ≤ 26 := fun h0 => by
    by_cases hh : s.phase = .hdr
    · exact ((phaseInv_hdr hh).1 h.inPhase).idx_le
    · rw [idx_eq_zero_of_npkt hp h.inPhase hh h0]
      exact Nat.zero_le _
  have hb := phaseInv_bounds hp h.inPhase
  rcases hc with rfl | rfl
  · exact (h.clean hp).blockInv_raise (by decide) hb hidx
  · exact (h.clean hp).blockInv_raise (by decide) hb hidx

/-! ### The ends of the page's parts -/

/-- The end of a page whose bytes have all been read keeps the invariant (R131). -/
theorem PayloadRead.blockInv_pageEnd {u : State} {table body : List Byte}
    (h : PayloadRead u table body) (hi : u.idx = u.payLen) (hh : HeaderAccepted u) (hu : Clean u) :
    BlockInv u.pageEnd := by
  have hc := h.pageCaptured hi
  have hb := laced_bounds h.laced h.table_length.le
  have absorbed (c : ErrCode) : PageAbsorbed (u.raise c) :=
    ⟨table, body, pageCaptured_congr hc rfl rfl rfl rfl rfl rfl, h.acc⟩
  rcases pageEnd_cases u with ⟨ha, hx⟩ | ⟨ha, hm, hx⟩ | ⟨ha, hf, hn, hx⟩ <;> rw [hx]
  · exact hu.blockInv_raise (by decide) ⟨hi ▸ hb.1, hb⟩ ⟨hi, ha, absorbed _⟩
  · exact hu.blockInv_raise (by decide) ⟨hi ▸ hb.1, hb⟩
      ⟨hi, ha, hm.imp id decide_eq_true, absorbed _⟩
  · refine Clean.blockInv (hu.congr rfl rfl rfl) (by simp) ((phaseInv_done rfl).2 ?_)
    exact ⟨headerAccepted_congr hh rfl rfl, hi,
      ⟨table, body, pageCaptured_congr hc rfl rfl rfl rfl rfl rfl, h.acc⟩, ha, hf, hn⟩

/-- A header byte read keeps the invariant, the last one through `header_end` (R124, R126). -/
theorem HeaderRead.blockInv_headerBoundary {u : State} {front : List Byte} (h : HeaderRead u front)
    (hp : u.phase = .hdr) (h1 : 1 ≤ front.length) (h2 : front.length ≤ 27) (hu : Clean u) :
    BlockInv u.headerBoundary := by
  unfold State.headerBoundary
  split
  · rename_i h27
    have hl := h.idx_eq_iff.1 h27
    have hr := h.tableRead hl
    have hb := laced_bounds h.laced (Nat.zero_le _)
    have hi : u.idx.toNat ≤ 65025 := by rw [h27]; decide
    rcases headerEnd_cases u with ⟨hm, hx⟩ | ⟨hm, hc, hv, hx⟩ | ⟨hm, hv, h0, hx⟩ |
      ⟨hm, hv, h0, hx⟩ <;> rw [hx]
    · exact hu.blockInv_raise (by decide) ⟨hi, hb⟩ ⟨h27, hm⟩
    · exact hu.blockInv_raise (by decide) ⟨hi, hb⟩ ⟨h27, hm, hc, hv⟩
    · have hw := hr.payloadRead (by rw [show (u.setIdx 0#16).nseg = u.nseg from rfl, h0]; rfl)
      exact hw.blockInv_pageEnd (laced_nil h.laced).1.symm ⟨hm, hv⟩ (hu.congr rfl rfl rfl)
    · refine Clean.blockInv (hu.congr rfl rfl rfl) (by simp) ((phaseInv_seg rfl).2 ?_)
      refine (hr.setPhase .seg).inTable ⟨hm, hv⟩ (Nat.pos_of_ne_zero fun e => h0 ?_)
      exact BitVec.eq_of_toNat_eq e
  · rename_i h27
    have hl : front.length ≠ 27 := mt h.idx_eq_iff.2 h27
    exact hu.blockInv (by simp [hp]) ((phaseInv_hdr hp).2 (h.inHeader h1 (by omega)))

/-- A table entry read keeps the invariant, the last one through the end of the table (R127, R129). -/
theorem TableRead.blockInv_tableBoundary {u : State} {table : List Byte} (h : TableRead u table)
    (hp : u.phase = .seg) (hh : HeaderAccepted u) (hl : table.length ≤ u.nseg.toNat)
    (hu : Clean u) : BlockInv u.tableBoundary := by
  have hh' := headerAccepted_congr hh (t := u.setIdx 0#16) rfl rfl
  rcases tableBoundary_cases u with ⟨hi, hx⟩ | ⟨hi, h0, hx⟩ | ⟨hi, h0, hx⟩ <;> rw [hx]
  · have hlt := lt_of_le_of_ne hl (mt h.idx_eq_iff.2 hi)
    exact hu.blockInv (by simp [hp]) ((phaseInv_seg hp).2 (h.inTable hh hlt))
  · have hw := h.payloadRead (h.idx_eq_iff.1 hi)
    exact hw.blockInv_pageEnd h0.symm hh' (hu.congr rfl rfl rfl)
  · have hw := (h.payloadRead (h.idx_eq_iff.1 hi)).setPhase .pay
    refine Clean.blockInv (hu.congr rfl rfl rfl) (by simp) ((phaseInv_pay rfl).2 ?_)
    refine hw.inPayload (headerAccepted_congr hh' rfl rfl) (Nat.pos_of_ne_zero fun e => h0 ?_)
    exact BitVec.eq_of_toNat_eq e

/-- A payload byte read keeps the invariant, the last one through the end of the page (R130). -/
theorem PayloadRead.blockInv_payloadBoundary {u : State} {table body : List Byte}
    (h : PayloadRead u table body) (hp : u.phase = .pay) (hh : HeaderAccepted u)
    (hl : body.length ≤ u.payLen.toNat) (hu : Clean u) : BlockInv u.payloadBoundary := by
  unfold State.payloadBoundary
  split
  · exact h.blockInv_pageEnd ‹_› hh hu
  · rename_i hi
    have hlt : body.length < u.payLen.toNat :=
      lt_of_le_of_ne hl fun e => hi (BitVec.eq_of_toNat_eq (h.idx.trans e))
    exact hu.blockInv (by simp [hp]) ((phaseInv_pay hp).2 (h.inPayload hh hlt))

/-! ### One byte captured, in each phase of a page -/

theorem BlockInv.captureHdr {s : State} (h : BlockInv s) (hp : s.phase = .hdr) (b : Byte) :
    BlockInv (s.captureHdr b).headerBoundary := by
  have hi := (phaseInv_hdr hp).1 h.inPhase
  have hr := hi.headerRead
  have hle := hr.idx ▸ hi.idx_le
  refine (hr.captureHdr (by omega) b).blockInv_headerBoundary hp (by simp)
    (by rw [List.length_append]; exact Nat.succ_le_succ hle) ?_
  exact (h.clean (by simp [hp])).congr rfl rfl rfl

theorem BlockInv.captureSeg {s : State} (h : BlockInv s) (hp : s.phase = .seg) (b : Byte) :
    BlockInv (s.captureSeg b).tableBoundary := by
  have hi := (phaseInv_seg hp).1 h.inPhase
  obtain ⟨table, hr⟩ := hi.tableRead
  have hlt := hr.idx ▸ hi.idx_lt
  have hn := s.nseg.isLt
  have hs : s.idx.toNat < Space.seg.size := by rw [hr.idx]; exact hlt.trans_le (Nat.le_of_lt_succ hn)
  refine (hr.captureSeg (by omega) b).blockInv_tableBoundary (by simp [hp])
    (headerAccepted_congr hi.header (by simp) (by simp [State.captureSeg])) ?_ ?_
  · rw [State.captureSeg_nseg, List.length_append]
    exact hlt
  · exact ((h.clean (by simp [hp])).putByte b hs).congr (by simp [State.captureSeg])
      (by simp) (by simp [State.captureSeg])

theorem BlockInv.capturePay {s : State} (h : BlockInv s) (hp : s.phase = .pay) (b : Byte) :
    BlockInv (s.capturePay b).payloadBoundary := by
  have hi := (phaseInv_pay hp).1 h.inPhase
  obtain ⟨table, body, hr⟩ := hi.payloadRead
  have hlt := hr.idx ▸ hi.idx_lt
  have hs : s.idx.toNat < Space.pay.size := by rw [hr.idx]; exact hlt.trans_le h.payLenBound
  refine (hr.capturePay (by have := h.payLenBound; omega) b).blockInv_payloadBoundary hp
    (headerAccepted_congr hi.header rfl rfl) ?_ (((h.clean (by simp [hp])).putByte b hs).congr rfl rfl rfl)
  rw [List.length_append]
  exact hlt

theorem BlockInv.captureFirst {s : State} (h : BlockInv s) (hp : s.phase = .idle) (b : Byte) :
    BlockInv ((s.pageClear.captureHdr b).setPhase .hdr) := by
  have hr := ((headerRead_pageClear s).captureHdr (by decide) b).setPhase .hdr
  exact Clean.blockInv ((h.clean (by simp [hp])).congr rfl rfl rfl) (by simp)
    ((phaseInv_hdr rfl).2 (hr.inHeader (by simp) (by simp)))

/-! ### Every command -/

/-- Between pages `phase` and `acc` may change under the invariant (R110, R162). -/
theorem BlockInv.between {s : State} (h : BlockInv s) (hs : s.phase = .idle ∨ s.phase = .done)
    {p : Phase} (hp : p = .idle ∨ p = .ended) (a : Word) :
    BlockInv { s with phase := p, acc := a } := by
  have hr : PageReleased s := hs.elim (fun e => (phaseInv_idle e).1 h.inPhase)
    (fun e => ((phaseInv_done e).1 h.inPhase).pageReleased)
  have hr' : PageReleased { s with phase := p, acc := a } :=
    pageReleased_congr hr rfl rfl rfl rfl rfl rfl rfl
  have hc : Clean { s with phase := p, acc := a } :=
    (h.clean (by rcases hs with e | e <;> simp [e])).congr rfl rfl rfl
  rcases hp with rfl | rfl
  · exact hc.blockInv (by simp) ((phaseInv_idle rfl).2 hr')
  · exact hc.blockInv (by simp) ((phaseInv_ended rfl).2 hr')

/-- A state in IDLE with every register of the page clear (R43). -/
theorem Clean.blockInv_of_clear {s : State} (h : Clean s) (hp : s.phase = .idle) (hi : s.idx = 0#16)
    (hh : s.hdr = Vector.replicate 27 0x00#8) (h1 : s.payLen = 0#16) (h2 : s.npktDone = 0#8)
    (h3 : s.laceOpen = false) : BlockInv s :=
  h.blockInv (by simp [hp]) ((phaseInv_idle hp).2 (pageReleased_of_clear hi hh h1 h2 h3))

theorem BlockInv.execByte {s t : State} {b : Byte} (h : BlockInv s)
    (hx : execByte b s = .next t) : BlockInv t := by
  rcases execByte_next hx with ⟨hp, rfl⟩ | ⟨hp, -, rfl⟩ | ⟨hp, -, rfl⟩ | ⟨hp, -, rfl⟩ |
    ⟨hp, rfl⟩ | ⟨-, rfl⟩
  · exact h.captureFirst hp b
  · exact h.captureHdr hp b
  · exact h.captureSeg hp b
  · exact h.capturePay hp b
  · exact h.raise (by rcases hp with e | e <;> simp [e]) (.inr rfl)
  · exact h

theorem BlockInv.execIllegalWord {s t : State} (h : BlockInv s)
    (hx : execIllegalWord s = .next t) : BlockInv t := by
  rcases execIllegalWord_next hx with ⟨hp, rfl⟩ | ⟨-, rfl⟩
  · exact h.raise hp (.inr rfl)
  · exact h

theorem BlockInv.exec {i : Instr} {s t : State} (h : BlockInv s) (hx : exec i s = .next t) :
    BlockInv t := by
  cases i with
  | nop => cases hx; exact h
  | reset =>
    cases hx
    exact Clean.blockInv_of_clear ⟨rfl, h.segWf, h.payWf⟩ rfl rfl rfl rfl rfl rfl
  | next =>
    rcases execNext_next hx with ⟨hp, rfl⟩ | ⟨-, hp, rfl⟩ | ⟨-, rfl⟩
    · exact h.between (.inr hp) (.inl rfl) s.acc
    · exact h.raise hp (.inr rfl)
    · exact h
  | crcClr =>
    rcases execCrcClr_next hx with ⟨hp, rfl⟩ | ⟨-, hp, rfl⟩ | ⟨-, rfl⟩
    · exact h.between (.inl hp) (.inl hp) _
    · exact h.raise hp (.inr rfl)
    · exact h
  | crcAbs b =>
    rcases execCrcAbs_next hx with ⟨hp, rfl⟩ | ⟨-, hp, rfl⟩ | ⟨-, rfl⟩
    · exact h.between (.inl hp) (.inl hp) _
    · exact h.raise hp (.inr rfl)
    · exact h
  | byte b => exact h.execByte hx
  | eos =>
    rcases execEos_next hx with ⟨hp, rfl⟩ | ⟨hp, rfl⟩ | ⟨hp, rfl⟩ | ⟨-, rfl⟩
    · exact h.between (.inl hp) (.inr rfl) s.acc
    · exact h.raise (by rcases hp with e | e | e <;> simp [e]) (.inl rfl)
    · exact h.raise (by rcases hp with e | e <;> simp [e]) (.inr rfl)
    · exact h

theorem BlockInv.runWord {w : Half} {s t : State} (h : BlockInv s) (hx : runWord w s = .next t) :
    BlockInv t := by
  rcases hd : decode w with e | i
  · rw [runWord_of_error hd] at hx
    exact h.execIllegalWord hx
  · rw [runWord_of_ok hd] at hx
    exact h.exec hx

/-! ### Every step -/

/-- The same block before another queue of inputs: what a step runs its command on (R8). -/
def withInputs (s : State) (rest : List HostInput) : State := { s with inputs := rest }

theorem PageReleased.withInputs {s : State} (h : PageReleased s) (rest : List HostInput) :
    PageReleased (withInputs s rest) := pageReleased_congr h rfl rfl rfl rfl rfl rfl rfl

theorem PageAbsorbed.withInputs {s : State} (h : PageAbsorbed s) (rest : List HostInput) :
    PageAbsorbed (withInputs s rest) := by
  obtain ⟨table, body, hc, ha⟩ := h
  exact ⟨table, body, pageCaptured_congr hc rfl rfl rfl rfl rfl rfl, ha⟩

/-- Nothing that the invariant says of a phase speaks of the host's inputs. -/
theorem phaseInv_withInputs {s : State} (h : PhaseInv s) (rest : List HostInput) :
    PhaseInv (withInputs s rest) := by
  have hp' : (withInputs s rest).phase = s.phase := rfl
  cases hp : s.phase with
  | idle => exact (phaseInv_idle (hp'.trans hp)).2 (((phaseInv_idle hp).1 h).withInputs rest)
  | hdr =>
    obtain ⟨h1, h2, h3, h4, h5⟩ := (phaseInv_hdr hp).1 h
    exact (phaseInv_hdr (hp'.trans hp)).2 ⟨h1, h2, h3, laced_congr h4 rfl rfl rfl, h5⟩
  | seg =>
    obtain ⟨hh, hi, table, ht, hl, ha⟩ := (phaseInv_seg hp).1 h
    exact (phaseInv_seg (hp'.trans hp)).2 ⟨headerAccepted_congr hh rfl rfl, hi, table, ht,
      laced_congr hl rfl rfl rfl, ha⟩
  | pay =>
    obtain ⟨hh, hi, table, body, ht, hl, hb, ha⟩ := (phaseInv_pay hp).1 h
    exact (phaseInv_pay (hp'.trans hp)).2 ⟨headerAccepted_congr hh rfl rfl, hi, table, body, ht,
      laced_congr hl rfl rfl rfl, hb, ha⟩
  | done =>
    obtain ⟨hh, hi, hc, hs, hf, hn⟩ := (phaseInv_done hp).1 h
    exact (phaseInv_done (hp'.trans hp)).2 ⟨headerAccepted_congr hh rfl rfl, hi, hc.withInputs rest,
      hs, hf, hn⟩
  | ended => exact (phaseInv_ended (hp'.trans hp)).2 (((phaseInv_ended hp).1 h).withInputs rest)
  | err => rw [PhaseInv, hp'.trans hp]; trivial

/-- Nothing that the invariant says of a fault speaks of the host's inputs. -/
theorem errInv_withInputs {s : State} (h : ErrInv s) (rest : List HostInput) :
    ErrInv (withInputs s rest) := by
  unfold ErrInv at h ⊢
  rw [show (withInputs s rest).err = s.err from rfl]
  cases he : s.err with
  | none => trivial
  | invalidSignature | unsupportedVersion | shortRead | illegalCmd => rw [he] at h; exact h
  | crcMismatch =>
    rw [he] at h
    exact ⟨h.1, h.2.1, h.2.2.withInputs rest⟩
  | unsupportedPage =>
    rw [he] at h
    exact ⟨h.1, h.2.1, h.2.2.1, h.2.2.2.withInputs rest⟩

theorem BlockInv.withInputs {s : State} (h : BlockInv s) (rest : List HostInput) :
    BlockInv (withInputs s rest) :=
  ⟨h.errIff, h.segWf, h.payWf, h.idxBound, h.payLenBound, h.npktBound, phaseInv_withInputs h.inPhase rest,
    errInv_withInputs h.inErr rest⟩

theorem BlockInv.step {s t : State} (h : BlockInv s) (hx : step s = .next t) : BlockInv t := by
  rcases step_next hx with ⟨-, rfl⟩ | ⟨rest, -, rfl⟩ | ⟨w, i, rest, -, -, hx⟩ |
    ⟨w, e, rest, -, -, hx⟩
  · exact h
  · exact Clean.blockInv_of_clear ⟨rfl, rfl, rfl⟩ rfl rfl rfl rfl rfl rfl
  · exact (h.withInputs rest).exec hx
  · exact (h.withInputs rest).execIllegalWord hx

theorem blockInv_reset (cfg : Config) (inputs : List HostInput) :
    BlockInv { State.reset with cfg := cfg, inputs := inputs } :=
  Clean.blockInv_of_clear ⟨rfl, rfl, rfl⟩ rfl rfl rfl rfl rfl rfl

theorem blockInv_of_reachable {s : State} (h : Reachable s) : BlockInv s := by
  induction h with
  | reset cfg inputs => exact blockInv_reset cfg inputs
  | step s t _ hx ih => exact ih.step hx

end Sys2Proof.Safety

namespace Sys2Proof.Proofs

open Sys2Proof.Machine Sys2Proof.Safety

/-- Settles O41: every register of the page is clear, and the buffers are empty. -/
theorem resetSatisfiesInvariant : Obligations.ResetSatisfiesInvariant := blockInv_reset

/-- Settles O42: a wait changes nothing, a reset clears the page, and a command is followed through each
phase that allows it. -/
theorem stepKeepsInvariant : Obligations.StepKeepsInvariant := fun _ _ h => h.step

end Sys2Proof.Proofs
end

section
/-! The lacing machine over a whole table (R128), and the invariants of R44 in every reachable state. -/

namespace Sys2Proof.Safety

open Sys2Proof.Machine

/-- The lacing machine over more entries, up to 255 of them in all, keeps the counters those of the
table (R29, R30). -/
theorem laced_foldl {s : State} {front : List Byte} (rest : List Byte) (h : Laced s front)
    (hl : front.length + rest.length ≤ 255) :
    Laced (rest.foldl (fun u b => u.laceEntry b) s) (front ++ rest) := by
  induction rest generalizing s front with
  | nil => simpa using h
  | cons b rest ih =>
    rw [List.length_cons] at hl
    rw [List.append_cons]
    exact ih (laced_laceEntry b h (by omega)) (by simp; omega)

/-- The last entry of a captured table says whether it ends in an open run (R30). -/
theorem endsOpen_iff_read {m : Memory} {n : Nat} {table : List Byte}
    (h : Memory.firstBytes m n = some table) :
    endsOpen table = true ↔ 1 ≤ n ∧ Memory.read m (n - 1) = some 255#8 := by
  obtain ⟨hl, hr⟩ := Memory.firstBytes_eq_some.1 h
  rw [endsOpen, beq_iff_eq, List.getLast?_eq_getElem?, hl]
  rcases Nat.eq_zero_or_pos n with h0 | h0
  · simp [h0, List.eq_nil_of_length_eq_zero (hl.trans h0)]
  · rw [hr (n - 1) (by omega)]
    exact ⟨fun e => ⟨h0, e⟩, fun e => e.2⟩

/-- In PAY and DONE the whole table is captured, with its counters (R44 (e)). -/
theorem table_of_pay_or_done {s : State} (h : PhaseInv s) (hp : s.phase = .pay ∨ s.phase = .done) :
    ∃ table, Memory.firstBytes s.seg s.nseg.toNat = some table ∧ Laced s table := by
  rcases hp with hp | hp
  · obtain ⟨table, _, ht, hl, -⟩ := ((phaseInv_pay hp).1 h).entries
    exact ⟨table, ht, hl⟩
  · obtain ⟨table, _, hc, -⟩ := ((phaseInv_done hp).1 h).absorbed
    exact ⟨table, hc.entries, hc.laced⟩

/-- No phase has the reserved code (R21). -/
theorem phase_code_ne_six (p : Phase) : p.code ≠ 6#3 := by cases p <;> decide

end Sys2Proof.Safety

namespace Sys2Proof.Proofs

open Sys2Proof.Machine Sys2Proof.Safety

/-- Settles O31: the counters stay those of the entries consumed, by induction on the table. -/
theorem lacingMachineCountsPackets : Obligations.LacingMachineCountsPackets := by
  intro s table hl h1 h2 h3
  have h0 : Laced s [] := ⟨by rw [h1]; rfl, by rw [h2]; rfl, h3⟩
  have h := laced_foldl table h0 ((Nat.zero_add _).trans_le hl)
  exact ⟨h.payLen, h.npktDone, h.laceOpen, laced_npkt h, laced_npkt h ▸ (packetCount_le table).1⟩

/-- Settles O44: each clause is a part of what the invariant says of a phase. -/
theorem reachableStatesMeetRuleInvariants : Obligations.ReachableStatesMeetRuleInvariants := by
  intro s hs
  have h := blockInv_of_reachable hs
  have hi := h.inPhase
  refine ⟨h.errIff, phase_code_ne_six _, fun hp => ?_, fun hp => ?_, fun hp => ?_, fun hp => ?_,
    fun hp => ?_, fun hp => ?_, fun hp => ?_⟩
  · have h' := (phaseInv_hdr hp).1 hi
    exact ⟨h'.idx_pos, h'.idx_le⟩
  · have h' := ((phaseInv_seg hp).1 hi).idx_lt
    exact ⟨Nat.one_le_of_lt h', h'⟩
  · have h' := ((phaseInv_pay hp).1 hi).idx_lt
    exact ⟨Nat.one_le_of_lt h', h'⟩
  · exact ((phaseInv_done hp).1 hi).idx
  · obtain ⟨table, ht, hl⟩ := table_of_pay_or_done hi hp
    exact ⟨table, ht, hl.payLen, hl.npktDone, hl.laceOpen ▸ endsOpen_iff_read ht⟩
  · have h' := (phaseInv_done hp).1 hi
    exact ⟨h'.header.magic, h'.checksum, h'.notContinued, h'.onePacket, h'.header.version⟩
  · obtain ⟨table, body, hc, ha⟩ := ((phaseInv_done hp).1 hi).absorbed
    exact ⟨table, body, hc.entries, by rw [State.packet, hp]; exact hc.payload, ha⟩

end Sys2Proof.Proofs
end

section
/-! The views of the header (R27), the read port (R41), the level outputs (R39), and what they show after
a reset (R43). -/

namespace Sys2Proof.Machine

/-! ### Little-endian views (R55) -/

/-- Byte `k` of a little-endian value, from its low end, is byte `k` of the sequence (R55). -/
theorem leNat_byte (bs : List Byte) (k : Nat) (hk : k < bs.length) :
    leNat bs / 256 ^ k % 256 = bs[k].toNat := by
  induction bs generalizing k with
  | nil => exact absurd hk (Nat.not_lt_zero k)
  | cons b bs ih =>
    have hb := b.isLt
    cases k with
    | zero =>
      simp only [leNat, pow_zero, Nat.div_one, List.getElem_cons_zero]
      omega
    | succ k =>
      rw [leNat, Nat.pow_succ', ← Nat.div_div_eq_div_mul, List.getElem_cons_succ,
        ← ih k (Nat.lt_of_succ_lt_succ hk)]
      congr 2
      omega

/-- Byte `k` of a view of `n` header bytes from offset `a` is header byte `a + k` (R10, R27). -/
theorem le_byte (h : Vector Byte 27) {a n k : Nat} (hk : k < n) (ha : a + n ≤ 27) :
    (BitVec.ofNat (8 * n) (le h a n)).extractLsb' (8 * k) 8 = h[a + k] := by
  have hl : k < ((h.toList.drop a).take n).length := by
    simp only [List.length_take, List.length_drop, Vector.length_toList]
    omega
  have hn : 8 * n = 8 * k + 8 * (n - k) := by omega
  have hd : 2 ^ 8 ∣ 2 ^ (8 * (n - k)) := pow_dvd_pow 2 (by omega)
  apply BitVec.eq_of_toNat_eq
  calc ((BitVec.ofNat (8 * n) (le h a n)).extractLsb' (8 * k) 8).toNat
      = le h a n % 2 ^ (8 * n) / 2 ^ (8 * k) % 2 ^ 8 := by
        rw [BitVec.extractLsb'_toNat, BitVec.toNat_ofNat, Nat.shiftRight_eq_div_pow]
    _ = le h a n / 2 ^ (8 * k) % 2 ^ 8 := by
        rw [hn, pow_add, Nat.mod_mul_right_div_self, Nat.mod_mod_of_dvd _ hd]
    _ = h[a + k].toNat := by
        rw [pow_mul]
        exact (leNat_byte _ k hl).trans (by simp)

/-! ### STATUS, field by field (R41) -/

/-- A field above the low part of a word is a field of the high part. -/
theorem extractLsb'_append_high {n m start len : Nat} {x : BitVec n} {y : BitVec m} {f : BitVec len}
    (h : m ≤ start) (hx : x.extractLsb' (start - m) len = f) :
    (x ++ y).extractLsb' start len = f :=
  (BitVec.extractLsb'_append_eq_of_le h).trans hx

/-- A bit above the low part of a word is a bit of the high part. -/
theorem getLsbD_append_high {n m i : Nat} {x : BitVec n} {y : BitVec m} {b : Bool} (h : m ≤ i)
    (hx : x.getLsbD (i - m) = b) : (x ++ y).getLsbD i = b := by
  rw [BitVec.getLsbD_append, if_neg (not_lt.2 h), hx]

/-- The low bit of a word that ends in a flag is the flag. -/
theorem getLsbD_append_ofBool {n : Nat} (x : BitVec n) (b : Bool) :
    (x ++ BitVec.ofBool b).getLsbD 0 = b := by
  rw [BitVec.getLsbD_append, if_pos Nat.one_pos]
  cases b <;> rfl

theorem phase_code_inj {p q : Phase} : p = q ↔ p.code = q.code := by
  cases p <;> cases q <;> decide

theorem errCode_code_inj {c d : ErrCode} : c = d ↔ c.code = d.code := by
  cases c <;> cases d <;> decide

namespace State

variable (s : State)

/-- The reserved bits of STATUS read 0, and its fields of more than one bit. -/
theorem statusReg_fields :
    s.statusReg.extractLsb' 0 3 = s.phase.code ∧ s.statusReg.extractLsb' 3 3 = s.err.code ∧
    s.statusReg.extractLsb' 6 2 = 0#2 ∧ s.statusReg.extractLsb' 14 2 = 0#2 ∧
    s.statusReg.extractLsb' 16 8 = BitVec.ofNat 8 s.npkt ∧ s.statusReg.extractLsb' 24 8 = 0#8 := by
  unfold statusReg
  refine ⟨?_, ?_, ?_, ?_, ?_, ?_⟩ <;> repeat refine extractLsb'_append_high (by decide) ?_
  · exact BitVec.extractLsb'_append_eq_right
  · exact BitVec.extractLsb'_append_eq_right
  · exact BitVec.extractLsb'_append_eq_right
  · exact BitVec.extractLsb'_append_eq_right
  · exact BitVec.extractLsb'_append_eq_right
  · exact BitVec.extractLsb'_eq_self

theorem statusReg_flags :
    s.statusReg.getLsbD 8 = s.fCont ∧ s.statusReg.getLsbD 9 = s.fBos ∧
    s.statusReg.getLsbD 10 = s.fEos ∧ s.statusReg.getLsbD 11 = s.laceOpen ∧
    s.statusReg.getLsbD 12 = s.multi ∧ s.statusReg.getLsbD 13 = s.crcOk := by
  unfold statusReg
  refine ⟨?_, ?_, ?_, ?_, ?_, ?_⟩ <;> repeat refine getLsbD_append_high (by decide) ?_
  all_goals exact getLsbD_append_ofBool _ _

theorem multi_iff : s.multi = true ↔ 1 < s.npkt := decide_eq_true_iff

theorem crcOk_iff : s.crcOk = true ↔ s.acc = s.crcStored := beq_iff_eq

theorem npkt_eq_ite : s.npkt = s.npktDone.toNat + (if s.laceOpen = true then 1 else 0) := by
  unfold npkt
  cases s.laceOpen <;> rfl

/-- The selectors above the views are reserved (R41). -/
theorem readReg_reserved {sel : BitVec 4} (h : 0xB#4 ≤ sel) :
    s.readReg sel = .error (.reservedSelector sel) := by
  obtain ⟨k, hk⟩ : ∃ k, sel.toNat = k + 11 := ⟨_, (Nat.sub_add_cancel h).symm⟩
  rw [readReg, hk]
  rfl

end State

/-! ### The state after a reset (R43) -/

/-- The table of reset values follows from the registers alone. -/
theorem registersReset_of_clear {s : State} (hp : s.phase = .idle) (he : s.err = .none)
    (hi : s.idx = 0#16) (ha : s.acc = 0x00000000#32) (hh : s.hdr = Vector.replicate 27 0x00#8)
    (h1 : s.payLen = 0#16) (h2 : s.npktDone = 0#8) (h3 : s.laceOpen = false) :
    Safety.RegistersReset s := by
  have hat (i : Fin 27) : s.hdrAt i = 0x00#8 := by simp [State.hdrAt, hh]
  have views : s.magic = 0#32 ∧ s.version = 0#8 ∧ s.flags = 0#8 ∧ s.granule = 0#64 ∧
      s.serial = 0#32 ∧ s.seqno = 0#32 ∧ s.crcStored = 0#32 ∧ s.nseg = 0#8 := by
    simp only [State.magic, State.version, State.flags, State.granule, State.serial, State.seqno,
      State.crcStored, State.nseg, State.hdrAt, hh]
    exact ⟨by decide, rfl, rfl, by decide, by decide, by decide, by decide, rfl⟩
  have ⟨_, _, hf, _, _, _, hc, _⟩ := views
  refine ⟨hp, he, hi, ha, hat, h1, h2, h3, views, ?_, ?_, ?_⟩
  · simp [State.fCont, State.fBos, State.fEos, hf]
  · simp [State.outDone, State.outFault, State.outEnded, hp]
  · refine congrArg Except.ok (show s.statusReg = _ from ?_)
    simp only [State.statusReg, State.crcOk, State.multi, State.npkt, State.fEos, State.fBos,
      State.fCont, hp, he, ha, h2, h3, hf, hc]
    decide

end Sys2Proof.Machine

namespace Sys2Proof.Proofs

open Sys2Proof.Machine Sys2Proof.Safety

/-- Settles O10: the two resets and the reset state give the registers the same values. -/
theorem resetStateValues : Obligations.ResetStateValues := by
  refine ⟨⟨registersReset_of_clear rfl rfl rfl rfl rfl rfl rfl rfl, fun _ => rfl, fun _ => rfl⟩,
    fun s => ⟨_, rfl, registersReset_of_clear rfl rfl rfl rfl rfl rfl rfl rfl, rfl, rfl, rfl⟩,
    fun s rest h => ?_⟩
  refine ⟨({ s with inputs := rest } : State).hardwareReset, ?_,
    registersReset_of_clear rfl rfl rfl rfl rfl rfl rfl rfl, rfl, fun _ => rfl, fun _ => rfl⟩
  rw [step, runNextInput, takeInput_cons h]
  rfl

/-- Settles O56: each output compares the phase with its own. -/
theorem levelOutputsFollowPhase : Obligations.LevelOutputsFollowPhase :=
  fun _ => ⟨beq_iff_eq, beq_iff_eq, beq_iff_eq⟩

/-- Settles O52: each view of more than one byte is a little-endian number. -/
theorem headerViewsAreLittleEndian : Obligations.HeaderViewsAreLittleEndian := fun s =>
  ⟨fun k => (le_byte s.hdr k.isLt (by decide)).trans (by simp), rfl, rfl,
    fun k => le_byte s.hdr k.isLt (by decide), fun k => le_byte s.hdr k.isLt (by decide),
    fun k => le_byte s.hdr k.isLt (by decide), fun k => le_byte s.hdr k.isLt (by decide), rfl⟩

/-- Settles O53: STATUS is taken apart field by field, and every other selector is its view. -/
theorem readSelectorsShowTheState : Obligations.ReadSelectorsShowTheState := by
  intro s
  obtain ⟨hphase, herr, h6, h14, hnpkt, h24⟩ := s.statusReg_fields
  obtain ⟨hcont, hbos, heos, hlace, hmulti, hcrc⟩ := s.statusReg_flags
  have phase_iff (p : Phase) : s.phase = p ↔ s.statusReg.extractLsb' 0 3 = p.code := by
    rw [hphase]
    exact phase_code_inj
  have err_iff (c : ErrCode) : s.err = c ↔ s.statusReg.extractLsb' 3 3 = c.code := by
    rw [herr]
    exact errCode_code_inj
  refine ⟨⟨rfl, rfl, rfl, s.npkt_eq_ite, s.multi_iff, s.crcOk_iff⟩, ⟨s.statusReg, rfl,
      phase_iff .idle, phase_iff .hdr, phase_iff .seg, phase_iff .pay, phase_iff .done,
      phase_iff .ended, phase_iff .err, err_iff .none, err_iff .invalidSignature,
      err_iff .unsupportedVersion, err_iff .crcMismatch, err_iff .unsupportedPage,
      err_iff .shortRead, err_iff .illegalCmd, hphase, herr, h6, hcont, hbos, heos, hlace, ?_, ?_,
      h14, hnpkt, h24⟩, rfl, rfl, rfl, rfl, rfl, rfl, rfl, rfl, rfl, rfl,
    fun sel => s.readReg_reserved⟩
  · rw [hmulti, s.multi_iff]
  · rw [hcrc, s.crcOk_iff]

end Sys2Proof.Proofs
end

section
/-! What one word does to the page that the block holds, said once (R126, R131, R162, R175, R176), and what
is then known of that page (R42), by the state alone and by what the host has presented. -/

namespace Sys2Proof.Safety

open Sys2Proof.Machine

/-! ### What a word can do -/

/-- A fault that the end of the header or of the page takes (R126, R131): the header is whole. -/
def OfPage (c : ErrCode) : Prop :=
  c = .invalidSignature ∨ c = .unsupportedVersion ∨ c = .crcMismatch ∨ c = .unsupportedPage

/-- A fault that keeps the registers as they were, with no look at the page (R175, R176). -/
def Keeping (c : ErrCode) : Prop := c = .shortRead ∨ c = .illegalCmd

/-- Where a byte that is captured inside a page leads: on in the page, to DONE, or to a fault of the
header's or the page's end (R139). -/
def ByteLeadsTo (t : State) : Prop :=
  InsidePage t ∨ t.phase = .done ∨ (t.phase = .err ∧ OfPage t.err)

/-- Everything that a word can do, as far as the page that the block holds is concerned (R139, R177). -/
inductive WordEffect (w : Half) (s t : State) : Prop where
  | reset (hw : w = 0x0100#16) (ht : t = s.resetRegisters)
  | begins (hs : s.phase = .idle) (ht : t.phase = .hdr)
  | captured (hw : ∃ b, decode w = .ok (.byte b)) (hs : InsidePage s) (ht : ByteLeadsTo t)
  | fault (c : ErrCode) (hc : Keeping c) (hs : s.phase ≠ .err) (ht : t = s.raise c)
      (hw : InsidePage s → ∀ b, decode w ≠ .ok (.byte b))
  | released (hs : s.phase = .done) (ht : t = s.setPhase .idle)
  | between (hs : s.phase = .idle) (ht : t.phase = .idle ∨ t.phase = .ended)
      (hh : t.hdr = s.hdr) (hc : t.cfg = s.cfg)
  | kept (ht : t = s)

theorem pageEnd_leadsTo (s : State) : ByteLeadsTo s.pageEnd := by
  rcases pageEnd_cases s with ⟨-, h⟩ | ⟨-, -, h⟩ | ⟨-, -, -, h⟩ <;> rw [h]
  · exact .inr (.inr ⟨rfl, .inr (.inr (.inl rfl))⟩)
  · exact .inr (.inr ⟨rfl, .inr (.inr (.inr rfl))⟩)
  · exact .inr (.inl rfl)

theorem headerBoundary_leadsTo {s : State} (hs : InsidePage s) : ByteLeadsTo s.headerBoundary := by
  unfold State.headerBoundary
  split
  · rcases headerEnd_cases s with ⟨-, h⟩ | ⟨-, -, -, h⟩ | ⟨-, -, -, h⟩ | ⟨-, -, -, h⟩ <;> rw [h]
    · exact .inr (.inr ⟨rfl, .inl rfl⟩)
    · exact .inr (.inr ⟨rfl, .inr (.inl rfl)⟩)
    · exact pageEnd_leadsTo _
    · exact .inl (.inr (.inl rfl))
  · exact .inl hs

theorem tableBoundary_leadsTo {s : State} (hs : InsidePage s) : ByteLeadsTo s.tableBoundary := by
  rcases tableBoundary_cases s with ⟨-, h⟩ | ⟨-, -, h⟩ | ⟨-, -, h⟩ <;> rw [h]
  · exact .inl hs
  · exact pageEnd_leadsTo _
  · exact .inl (.inr (.inr rfl))

theorem payloadBoundary_leadsTo {s : State} (hs : InsidePage s) :
    ByteLeadsTo s.payloadBoundary := by
  unfold State.payloadBoundary
  split
  · exact pageEnd_leadsTo _
  · exact .inl hs

theorem wordEffect_byte {w : Half} {b : Byte} {s t : State} (hw : decode w = .ok (.byte b))
    (hx : execByte b s = .next t) : WordEffect w s t := by
  rcases execByte_next hx with ⟨hp, rfl⟩ | ⟨hp, -, rfl⟩ | ⟨hp, -, rfl⟩ | ⟨hp, -, rfl⟩ |
    ⟨hp, rfl⟩ | ⟨-, rfl⟩
  · exact .begins hp rfl
  · exact .captured ⟨b, hw⟩ (.inl hp) (headerBoundary_leadsTo (.inl hp))
  · refine .captured ⟨b, hw⟩ (.inr (.inl hp)) (tableBoundary_leadsTo (.inr (.inl ?_)))
    simp [hp]
  · exact .captured ⟨b, hw⟩ (.inr (.inr hp)) (payloadBoundary_leadsTo (.inr (.inr hp)))
  · refine .fault _ (.inr rfl) ?_ rfl fun hi => ?_
    · rcases hp with e | e <;> simp [e]
    · rcases hp with e | e <;> simp [InsidePage, e] at hi
  · exact .kept rfl

theorem wordEffect_exec {w : Half} {i : Instr} {s t : State} (hw : decode w = .ok i)
    (hr : i = .reset → w = 0x0100#16) (hx : exec i s = .next t) : WordEffect w s t := by
  have fault (c : ErrCode) (hc : Keeping c) (hp : s.phase ≠ .err) (ht : t = s.raise c)
      (hi : ∀ b, i ≠ .byte b) : WordEffect w s t :=
    .fault c hc hp ht fun _ b e => hi b (Except.ok.inj (hw.symm.trans e))
  cases i with
  | nop => cases hx; exact .kept rfl
  | reset => cases hx; exact .reset (hr rfl) rfl
  | next =>
    rcases execNext_next hx with ⟨hp, rfl⟩ | ⟨-, hp, ht⟩ | ⟨-, rfl⟩
    · exact .released hp rfl
    · exact fault _ (.inr rfl) hp ht (by simp)
    · exact .kept rfl
  | crcClr =>
    rcases execCrcClr_next hx with ⟨hp, rfl⟩ | ⟨-, hp, ht⟩ | ⟨-, rfl⟩
    · exact .between hp (.inl hp) rfl rfl
    · exact fault _ (.inr rfl) hp ht (by simp)
    · exact .kept rfl
  | crcAbs b =>
    rcases execCrcAbs_next hx with ⟨hp, rfl⟩ | ⟨-, hp, ht⟩ | ⟨-, rfl⟩
    · exact .between hp (.inl hp) rfl rfl
    · exact fault _ (.inr rfl) hp ht (by simp)
    · exact .kept rfl
  | byte b => exact wordEffect_byte hw hx
  | eos =>
    rcases execEos_next hx with ⟨hp, rfl⟩ | ⟨hp, ht⟩ | ⟨hp, ht⟩ | ⟨-, rfl⟩
    · exact .between hp (.inr rfl) rfl rfl
    · exact fault _ (.inl rfl) (by rcases hp with e | e | e <;> simp [e]) ht (by simp)
    · exact fault _ (.inr rfl) (by rcases hp with e | e <;> simp [e]) ht (by simp)
    · exact .kept rfl

theorem withoutOperand_ok {i j : Instr} {f : FormatC} :
    withoutOperand i f = .ok j ↔ f.arg = 0x00#8 ∧ i = j := by
  unfold withoutOperand
  split <;> simp_all

/-- Only one word is a RESET (R71). -/
theorem eq_of_decode_reset {w : Half} (h : decode w = .ok .reset) : w = 0x0100#16 := by
  have fields : opField w = 0x01#8 ∧ argField w = 0x00#8 := by
    rw [decode, decodeFormat, formatOf] at h
    split_ifs at h <;> simp_all [withoutOperand_ok]
  rw [← append_fields w, fields.1, fields.2]
  rfl

theorem wordEffect {w : Half} {s t : State} (hx : runWord w s = .next t) : WordEffect w s t := by
  rcases hd : decode w with e | i
  · rw [runWord_of_error hd] at hx
    rcases execIllegalWord_next hx with ⟨hp, rfl⟩ | ⟨-, rfl⟩
    · exact .fault _ (.inr rfl) hp rfl fun _ b e => by simp [hd] at e
    · exact .kept rfl
  · rw [runWord_of_ok hd] at hx
    exact wordEffect_exec hd (fun e => eq_of_decode_reset (e ▸ hd)) hx

/-- A word that takes a fault is a BYTE whose page fails, or leaves everything as it was (R180). -/
theorem wordEffect_fault {w : Half} {s t : State} (hx : runWord w s = .next t)
    (hs : s.phase ≠ .err) (ht : t.phase = .err) :
    ((∃ b, decode w = .ok (.byte b)) ∧ InsidePage s ∧ OfPage t.err) ∨
    (∃ c, Keeping c ∧ t = s.raise c ∧ (InsidePage s → ∀ b, decode w ≠ .ok (.byte b))) := by
  rcases wordEffect hx with ⟨-, rfl⟩ | ⟨-, hp⟩ | ⟨hw, hi, hl⟩ | ⟨c, hc, -, h, hw⟩ | ⟨-, rfl⟩ |
    ⟨-, hp, -, -⟩ | rfl
  · cases ht
  · simp [hp] at ht
  · rcases hl with hl | hl | ⟨-, hl⟩
    · exact absurd ht (insidePage_ne_err hl)
    · simp [hl] at ht
    · exact .inl ⟨hw, hi, hl⟩
  · exact .inr ⟨c, hc, h, hw⟩
  · cases ht
  · rcases hp with hp | hp <;> simp [hp] at ht
  · exact absurd ht hs

/-! ### The page in ERR -/

/-- With no table entry counted such a fault was taken no later than the header's last byte. -/
theorem idx_le_of_keeping {s : State} (h : BlockInv s) (he : Keeping s.err) (h0 : s.npkt = 0) :
    s.idx.toNat ≤ 26 := by
  have hi := h.inErr
  unfold ErrInv at hi
  rcases he with he | he <;> rw [he] at hi <;> exact hi h0

/-- A header of zeros has no table, so no packet is counted (R31). -/
theorem npkt_of_header_clear {s : State} (h : BlockInv s) (hh : s.headerHeld = false) :
    s.npkt = 0 := by
  have h0 : s.nseg = 0x00#8 := by
    by_contra e
    simp [headerHeld_of_nseg e] at hh
  have := h.npktBound
  rw [h0] at this
  exact Nat.le_zero.1 this

/-- In SEG, PAY and DONE the header has passed its checks (R44). -/
theorem headerAccepted_of_page {s : State} (h : PhaseInv s)
    (hp : s.phase = .seg ∨ s.phase = .pay ∨ s.phase = .done) : HeaderAccepted s := by
  rcases hp with hp | hp | hp
  · exact ((phaseInv_seg hp).1 h).header
  · exact ((phaseInv_pay hp).1 h).header
  · exact ((phaseInv_done hp).1 h).header

theorem pageReleased_of_between {s : State} (h : PhaseInv s)
    (hp : s.phase = .idle ∨ s.phase = .ended) : PageReleased s :=
  hp.elim (fun e => (phaseInv_idle e).1 h) (fun e => (phaseInv_ended e).1 h)

/-! ### What the state alone tells of the held page -/

variable {k : HeldPage} {s : State}

/-- In ERR the fault is of one kind or the other. -/
theorem ofPage_or_keeping (h : BlockInv s) (hp : s.phase = .err) : OfPage s.err ∨ Keeping s.err := by
  have hn : s.err ≠ .none := fun e => h.errIff.1 e hp
  unfold OfPage Keeping
  cases he : s.err <;> simp_all

theorem heldPage_hdr (hp : s.phase = .hdr) : s.heldPage = .noPage := by
  rw [State.heldPage, hp]

theorem heldPage_page (hp : s.phase = .seg ∨ s.phase = .pay ∨ s.phase = .done) :
    s.heldPage = .current := by
  rcases hp with hp | hp | hp <;> rw [State.heldPage, hp]

theorem heldPage_between (hp : s.phase = .idle ∨ s.phase = .ended) :
    s.heldPage = if s.headerHeld then .released else .noPage := by
  rcases hp with hp | hp <;> rw [State.heldPage, hp]

theorem heldPage_ofPage (hp : s.phase = .err) (he : OfPage s.err) : s.heldPage = .current := by
  rcases he with he | he | he | he <;> rw [State.heldPage, hp, he]

theorem heldPage_keeping (hp : s.phase = .err) (he : Keeping s.err) :
    s.heldPage = if s.npkt = 0 ∧ s.idx ≠ 0#16 then .noPage
      else if s.headerHeld then .current else .noPage := by
  rcases he with he | he <;> rw [State.heldPage, hp, he]

/-! ### What a reading of the held page must meet -/

/-- What makes the windows of R42 readable in ERR: a page that is none has only header bytes, and a
released page is still captured. -/
structure Readable (k : HeldPage) (s : State) : Prop where
  front : s.phase = .err → k = .noPage → Keeping s.err → s.npkt = 0
  page : s.phase = .err → k = .released → PageReleased s

/-- What the state alone tells can be read. -/
theorem readable_heldPage (h : BlockInv s) : Readable s.heldPage s where
  front hp hk he := by
    rw [heldPage_keeping hp he] at hk
    split_ifs at hk with h0 hh
    · exact h0.1
    · exact npkt_of_header_clear h (Bool.eq_false_iff.2 hh)
  page hp hk := by
    rcases ofPage_or_keeping h hp with he | he
    · simp [heldPage_ofPage hp he] at hk
    · rw [heldPage_keeping hp he] at hk
      split_ifs at hk

/-! ### What the host knows of the held page -/

/-- What the host knows between pages: no page is held where no header is, and a released page had passed
the checks of its header. -/
def KnownBetween (k : HeldPage) (s : State) : Prop :=
  match k with
  | .noPage => s.headerHeld = false
  | .current => False
  | .released => HeaderAccepted s

/-- What the host knows after a fault that keeps the registers (R175, R176). -/
def KnownFault (k : HeldPage) (s : State) : Prop :=
  match k with
  | .noPage => s.npkt = 0 ∧ (s.idx ≠ 0#16 ∨ s.headerHeld = false)
  | .current => HeaderAccepted s ∧ (s.npkt = 0 → s.idx = 0#16)
  | .released => HeaderAccepted s ∧ PageReleased s

/-- What the host knows of the page in every state that it has followed. -/
def KnownInv (k : HeldPage) (s : State) : Prop :=
  match s.phase with
  | .hdr => k = .noPage
  | .seg | .pay | .done => k = .current
  | .idle | .ended => KnownBetween k s
  | .err =>
    match s.err with
    | .invalidSignature | .unsupportedVersion | .crcMismatch | .unsupportedPage => k = .current
    | .none | .shortRead | .illegalCmd => KnownFault k s

variable {t : State}

theorem knownInv_hdr (hp : s.phase = .hdr) : KnownInv k s ↔ k = .noPage := by
  rw [KnownInv, hp]
theorem knownInv_page (hp : s.phase = .seg ∨ s.phase = .pay ∨ s.phase = .done) :
    KnownInv k s ↔ k = .current := by
  rcases hp with hp | hp | hp <;> rw [KnownInv, hp]
theorem knownInv_between (hp : s.phase = .idle ∨ s.phase = .ended) :
    KnownInv k s ↔ KnownBetween k s := by
  rcases hp with hp | hp <;> rw [KnownInv, hp]
theorem knownInv_ofPage (hp : s.phase = .err) (he : OfPage s.err) :
    KnownInv k s ↔ k = .current := by
  rcases he with he | he | he | he <;> rw [KnownInv, hp, he]
theorem knownInv_keeping (hp : s.phase = .err) (he : Keeping s.err) :
    KnownInv k s ↔ KnownFault k s := by
  rcases he with he | he <;> rw [KnownInv, hp, he]

theorem headerHeld_congr (hh : t.hdr = s.hdr) : t.headerHeld = s.headerHeld := by
  rw [State.headerHeld, State.headerHeld, hh]

theorem knownBetween_congr (h : KnownBetween k s) (hh : t.hdr = s.hdr) (hc : t.cfg = s.cfg) :
    KnownBetween k t := by
  cases k with
  | noPage => exact (headerHeld_congr hh).trans h
  | current => exact h
  | released => exact headerAccepted_congr h hh hc

theorem knownFault_raise (h : KnownFault k s) (c : ErrCode) : KnownFault k (s.raise c) := by
  cases k with
  | noPage => exact h
  | current => exact ⟨headerAccepted_congr h.1 rfl rfl, h.2⟩
  | released =>
    exact ⟨headerAccepted_congr h.1 rfl rfl, pageReleased_congr h.2 rfl rfl rfl rfl rfl rfl rfl⟩

theorem knownFault_withInputs (h : KnownFault k s) (rest : List HostInput) :
    KnownFault k (withInputs s rest) := by
  cases k with
  | noPage => exact h
  | current => exact ⟨headerAccepted_congr h.1 rfl rfl, h.2⟩
  | released => exact ⟨headerAccepted_congr h.1 rfl rfl, h.2.withInputs rest⟩

/-- What the host knows where the block takes a fault that keeps the registers. -/
theorem knownFault_of_knownInv (h : BlockInv s) (hp : s.phase ≠ .err) (hk : KnownInv k s) :
    KnownFault k s := by
  have page (hq : s.phase = .seg ∨ s.phase = .pay ∨ s.phase = .done) : KnownFault k s := by
    rw [(knownInv_page hq).1 hk]
    exact ⟨headerAccepted_of_page h.inPhase hq,
      idx_eq_zero_of_npkt hp h.inPhase (by rcases hq with e | e | e <;> simp [e])⟩
  have between (hq : s.phase = .idle ∨ s.phase = .ended) : KnownFault k s := by
    have hb := (knownInv_between hq).1 hk
    cases k with
    | noPage => exact ⟨npkt_of_header_clear h hb, .inr hb⟩
    | current => exact hb.elim
    | released => exact ⟨hb, pageReleased_of_between h.inPhase hq⟩
  cases hs : s.phase with
  | hdr =>
    have hi := (phaseInv_hdr hs).1 h.inPhase
    rw [(knownInv_hdr hs).1 hk]
    refine ⟨(laced_nil hi.laced).2, .inl fun e => ?_⟩
    have := hi.idx_pos
    simp [e] at this
  | seg => exact page (.inl hs)
  | pay => exact page (.inr (.inl hs))
  | done => exact page (.inr (.inr hs))
  | idle => exact between (.inl hs)
  | ended => exact between (.inr hs)
  | err => exact absurd hs hp

/-- What the host knows can be read. -/
theorem readable_of_knownInv (h : BlockInv s) (hk : KnownInv k s) : Readable k s where
  front hp e he := by
    subst e
    exact ((knownInv_keeping hp he).1 hk).1
  page hp e := by
    subst e
    rcases ofPage_or_keeping h hp with he | he
    · cases (knownInv_ofPage hp he).1 hk
    · exact ((knownInv_keeping hp he).1 hk).2

/-! ### How the host's knowledge follows the block -/

/-- A command other than RESET. -/
def NotReset (x : HostInput) : Prop := x ≠ .hardwareReset ∧ x ≠ .command 0x0100#16

variable {x : HostInput}

theorem after_of_reset (hx : x = .hardwareReset ∨ x = .command 0x0100#16) :
    k.after x t = .noPage := by
  rw [HeldPage.after, if_pos hx]

theorem after_hdr (hx : NotReset x) (hp : t.phase = .hdr) : k.after x t = .noPage := by
  rw [HeldPage.after, if_neg (by simp [hx.1, hx.2]), hp]

theorem after_page (hx : NotReset x) (hp : t.phase = .seg ∨ t.phase = .pay ∨ t.phase = .done) :
    k.after x t = .current := by
  rw [HeldPage.after, if_neg (by simp [hx.1, hx.2])]
  rcases hp with hp | hp | hp <;> rw [hp]

theorem after_between (hx : NotReset x) (hp : t.phase = .idle ∨ t.phase = .ended) :
    k.after x t = if k = .noPage then .noPage else .released := by
  rw [HeldPage.after, if_neg (by simp [hx.1, hx.2])]
  rcases hp with hp | hp <;> rw [hp]

theorem after_ofPage (hx : NotReset x) (hp : t.phase = .err) (he : OfPage t.err) :
    k.after x t = .current := by
  rw [HeldPage.after, if_neg (by simp [hx.1, hx.2]), hp]
  rcases he with he | he | he | he <;> rw [he]

theorem after_keeping (hx : NotReset x) (hp : t.phase = .err) (he : Keeping t.err) :
    k.after x t = k := by
  rw [HeldPage.after, if_neg (by simp [hx.1, hx.2]), hp]
  rcases he with he | he <;> rw [he]

/-- Where the host's knowledge fits the new state already, it stays. -/
theorem after_of_knownInv (h : BlockInv t) (hx : NotReset x) (hk : KnownInv k t) :
    k.after x t = k := by
  have between (hq : t.phase = .idle ∨ t.phase = .ended) : k.after x t = k := by
    have hb := (knownInv_between hq).1 hk
    rw [after_between hx hq]
    cases k with
    | noPage => rfl
    | current => exact hb.elim
    | released => rfl
  cases hs : t.phase with
  | hdr => rw [after_hdr hx hs, (knownInv_hdr hs).1 hk]
  | seg => rw [after_page hx (.inl hs), (knownInv_page (.inl hs)).1 hk]
  | pay => rw [after_page hx (.inr (.inl hs)), (knownInv_page (.inr (.inl hs))).1 hk]
  | done => rw [after_page hx (.inr (.inr hs)), (knownInv_page (.inr (.inr hs))).1 hk]
  | idle => exact between (.inl hs)
  | ended => exact between (.inr hs)
  | err =>
    rcases ofPage_or_keeping h hs with he | he
    · rw [after_ofPage hx hs he, (knownInv_ofPage hs he).1 hk]
    · exact after_keeping hx hs he

theorem knownInv_after_of_knownInv (h : BlockInv t) (hx : NotReset x) (hk : KnownInv k t) :
    KnownInv (k.after x t) t := by
  rwa [after_of_knownInv h hx hk]

/-- After a byte of a page the phase alone says what the host knows. -/
theorem knownInv_after_byte (hx : NotReset x) (ht : ByteLeadsTo t) : KnownInv (k.after x t) t := by
  rcases ht with (hp | hp | hp) | hp | ⟨hp, he⟩
  · exact (knownInv_hdr hp).2 (after_hdr hx hp)
  · exact (knownInv_page (.inl hp)).2 (after_page hx (.inl hp))
  · exact (knownInv_page (.inr (.inl hp))).2 (after_page hx (.inr (.inl hp)))
  · exact (knownInv_page (.inr (.inr hp))).2 (after_page hx (.inr (.inr hp)))
  · exact (knownInv_ofPage hp he).2 (after_ofPage hx hp he)

/-- After a reset no page is held, and the header is clear (R43). -/
theorem knownInv_of_clear (hp : s.phase = .idle) (hh : s.hdr = Vector.replicate 27 0x00#8) :
    KnownInv .noPage s :=
  (knownInv_between (.inl hp)).2 (by simp [KnownBetween, State.headerHeld, hh])

theorem knownInv_runWord {w : Half} (h : BlockInv s) (ht : BlockInv t) (hk : KnownInv k s)
    (hx : runWord w s = .next t) : KnownInv (k.after (.command w) t) t := by
  by_cases hw : w = 0x0100#16
  · subst hw
    cases hx
    rw [after_of_reset (.inr rfl)]
    exact knownInv_of_clear rfl rfl
  have hn : NotReset (.command w) := ⟨by simp, by simpa using hw⟩
  rcases wordEffect hx with ⟨e, -⟩ | ⟨-, hp⟩ | ⟨-, -, hl⟩ | ⟨c, hc, hp, rfl, -⟩ | ⟨hp, rfl⟩ |
    ⟨hp, hq, hh, hcfg⟩ | rfl
  · exact absurd e hw
  · exact knownInv_after_byte hn (.inl (.inl hp))
  · exact knownInv_after_byte hn hl
  · refine knownInv_after_of_knownInv ht hn ((knownInv_keeping rfl hc).2 ?_)
    exact knownFault_raise (knownFault_of_knownInv h hp hk) c
  · rw [after_between hn (.inl rfl), (knownInv_page (.inr (.inr hp))).1 hk]
    refine (knownInv_between (.inl rfl)).2 ?_
    exact headerAccepted_congr (headerAccepted_of_page h.inPhase (.inr (.inr hp))) rfl rfl
  · refine knownInv_after_of_knownInv ht hn ((knownInv_between hq).2 ?_)
    exact knownBetween_congr ((knownInv_between (.inl hp)).1 hk) hh hcfg
  · exact knownInv_after_of_knownInv ht hn hk

theorem knownInv_withInputs (h : BlockInv s) (hk : KnownInv k s) (rest : List HostInput) :
    KnownInv k (withInputs s rest) := by
  have hp' : (withInputs s rest).phase = s.phase := rfl
  have he' : (withInputs s rest).err = s.err := rfl
  have page (hq : s.phase = .seg ∨ s.phase = .pay ∨ s.phase = .done) :=
    (knownInv_page (s := withInputs s rest) hq).2 ((knownInv_page hq).1 hk)
  have between (hq : s.phase = .idle ∨ s.phase = .ended) :=
    (knownInv_between (s := withInputs s rest) hq).2
      (knownBetween_congr ((knownInv_between hq).1 hk) rfl rfl)
  cases hs : s.phase with
  | hdr => exact (knownInv_hdr (hp'.trans hs)).2 ((knownInv_hdr hs).1 hk)
  | seg => exact page (.inl hs)
  | pay => exact page (.inr (.inl hs))
  | done => exact page (.inr (.inr hs))
  | idle => exact between (.inl hs)
  | ended => exact between (.inr hs)
  | err =>
    rcases ofPage_or_keeping h hs with he | he
    · exact (knownInv_ofPage (s := withInputs s rest) hs he).2 ((knownInv_ofPage hs he).1 hk)
    · exact (knownInv_keeping (s := withInputs s rest) hs he).2
        (knownFault_withInputs ((knownInv_keeping hs he).1 hk) rest)

/-- In every state that the host has followed it knows what the block holds (R42). -/
theorem knownInv_of_known (h : Known k s) : KnownInv k s := by
  induction h with
  | reset cfg inputs => exact knownInv_of_clear rfl rfl
  | step k s t x rest hs hi hx ih =>
    have hb := blockInv_of_reachable (reachable_of_known hs)
    cases x with
    | command w =>
      rw [step_command hi] at hx
      exact knownInv_runWord (hb.withInputs rest) ((hb.withInputs rest).runWord hx)
        (knownInv_withInputs hb ih rest) hx
    | hardwareReset =>
      rw [step, runNextInput, takeInput_cons hi] at hx
      cases hx
      rw [after_of_reset (.inl rfl)]
      exact knownInv_of_clear rfl rfl

/-- The two readings of R42 can be read, in every state that a run reaches. -/
theorem readable_of_reading (h : (Reachable s ∧ k = s.heldPage) ∨ Known k s) :
    BlockInv s ∧ Readable k s := by
  rcases h with ⟨h, rfl⟩ | h
  · have hb := blockInv_of_reachable h
    exact ⟨hb, readable_heldPage hb⟩
  · have hb := blockInv_of_reachable (reachable_of_known h)
    exact ⟨hb, readable_of_knownInv hb (knownInv_of_known h)⟩

end Sys2Proof.Safety
end

section
/-! The windows of the held page, its totals and its checksum (R42), by the state alone and by what the
host knows. -/

namespace Sys2Proof.Safety

open Sys2Proof.Machine

variable {k : HeldPage} {s t : State}

/-! ### Reads inside the windows (R60, R62) -/

theorem memRead_hdr {i : Nat} (hi : i < 27) : s.memRead .hdr i = .ok s.hdr[i] := by
  simp [State.memRead, State.byteAt, Space.size, hi]

/-- A byte that a canonical buffer lists is inside its space, so the host can read it. -/
theorem memRead_seg {i : Nat} {b : Byte} (hw : Memory.wf 255 s.seg = true)
    (h : Memory.read s.seg i = some b) : s.memRead .seg i = .ok b := by
  have hi : i < Space.seg.size := by
    by_contra hn
    simp [Memory.read_of_wf hw (not_lt.1 hn)] at h
  rw [State.memRead, if_pos hi, State.byteAt, h]

theorem memRead_pay {i : Nat} {b : Byte} (hw : Memory.wf 65025 s.pay = true)
    (h : Memory.read s.pay i = some b) : s.memRead .pay i = .ok b := by
  have hi : i < Space.pay.size := by
    by_contra hn
    simp [Memory.read_of_wf hw (not_lt.1 hn)] at h
  rw [State.memRead, if_pos hi, State.byteAt, h]

/-- Each of the front bytes of a buffer can be read. -/
theorem read_of_firstBytes {m : Memory} {n i : Nat} {bs : List Byte}
    (h : Memory.firstBytes m n = some bs) (hi : i < n) : ∃ b, Memory.read m i = some b := by
  obtain ⟨hl, hr⟩ := Memory.firstBytes_eq_some.1 h
  exact ⟨bs[i], (hr i hi).trans (by simp)⟩

/-! ### What the windows hold -/

theorem headerWindow_le (h : BlockInv s) (hr : Readable k s) : s.headerWindowOf k ≤ 27 := by
  unfold State.headerWindowOf
  split
  · rename_i hp
    exact ((phaseInv_hdr hp).1 h.inPhase).idx_le.trans (by decide)
  · exact le_rfl
  · exact le_rfl
  · exact le_rfl
  · split <;> decide
  · split <;> decide
  · rename_i hp
    have front (he : Keeping s.err) : (if k = .noPage then s.idx.toNat else 27) ≤ 27 := by
      split
      · exact (idx_le_of_keeping h he (hr.front hp ‹_› he)).trans (by decide)
      · exact le_rfl
    split
    · exact le_rfl
    · exact le_rfl
    · exact le_rfl
    · exact le_rfl
    · exact front (.inl ‹_›)
    · exact front (.inr ‹_›)
    · exact Nat.zero_le _

/-- A page that is held whole: in DONE, and where it is known as released. -/
theorem pageReleased_of_held (h : BlockInv s) (hr : Readable k s)
    (hp : s.phase = .done ∨
      (s.phase = .idle ∨ s.phase = .ended ∨ s.phase = .err) ∧ k = .released) :
    PageReleased s := by
  rcases hp with hp | ⟨hp | hp | hp, hk⟩
  · exact ((phaseInv_done hp).1 h.inPhase).pageReleased
  · exact (phaseInv_idle hp).1 h.inPhase
  · exact (phaseInv_ended hp).1 h.inPhase
  · exact hr.page hp hk

theorem tableWindow_captured (h : BlockInv s) (hr : Readable k s) :
    ∃ bs, Memory.firstBytes s.seg (s.tableWindowOf k) = some bs := by
  have held := pageReleased_of_held h hr
  have whole (hq : PageReleased s) : ∃ bs, Memory.firstBytes s.seg s.nseg.toNat = some bs :=
    have ⟨table, _, hc, _⟩ := hq.captured
    ⟨table, hc.entries⟩
  unfold State.tableWindowOf
  split
  · exact ⟨[], rfl⟩
  · rename_i hp
    obtain ⟨table, ht, -⟩ := ((phaseInv_seg hp).1 h.inPhase).entries
    exact ⟨table, ht⟩
  · rename_i hp
    obtain ⟨table, ht, -⟩ := table_of_pay_or_done h.inPhase (.inl hp)
    exact ⟨table, ht⟩
  · rename_i hp
    exact whole (held (.inl hp))
  all_goals
    rename_i hp
    split
    · exact whole (held (.inr ⟨by simp [hp], ‹_›⟩))
    · exact ⟨[], rfl⟩

theorem payloadWindow_captured (h : BlockInv s) (hr : Readable k s) :
    ∃ bs, Memory.firstBytes s.pay (s.payloadWindowOf k) = some bs := by
  have held := pageReleased_of_held h hr
  have whole (hq : PageReleased s) : ∃ bs, Memory.firstBytes s.pay s.payLen.toNat = some bs :=
    have ⟨_, body, hc, _⟩ := hq.captured
    ⟨body, hc.payload⟩
  unfold State.payloadWindowOf
  split
  · exact ⟨[], rfl⟩
  · exact ⟨[], rfl⟩
  · rename_i hp
    obtain ⟨-, body, -, -, hb, -⟩ := ((phaseInv_pay hp).1 h.inPhase).entries
    exact ⟨body, hb⟩
  · rename_i hp
    exact whole (held (.inl hp))
  all_goals
    rename_i hp
    split
    · exact whole (held (.inr ⟨by simp [hp], ‹_›⟩))
    · exact ⟨[], rfl⟩

/-! ### Totals and checksum -/

/-- A fault that `page_end` has taken records the page it was taken at (R173, R174). -/
theorem pageAbsorbed_of_faultedAtPageEnd (h : BlockInv s) (hf : s.faultedAtPageEnd = true) :
    PageAbsorbed s ∧ (s.crcOk = true ↔ s.err ≠ .crcMismatch) := by
  have hi := h.inErr
  unfold ErrInv at hi
  simp only [State.faultedAtPageEnd, Bool.or_eq_true, beq_iff_eq] at hf
  rw [State.crcOk_iff]
  rcases hf with he | he <;> rw [he] at hi
  · obtain ⟨-, ha, hq⟩ := hi
    exact ⟨hq, iff_of_false ha (absurd he)⟩
  · obtain ⟨-, ha, -, hq⟩ := hi
    exact ⟨hq, iff_of_true ha (by simp [he])⟩

/-- The checksum of a whole page, while `acc` still equals it (R42, R110). -/
theorem checksum_of_pageReleased (h : BlockInv s) (hq : PageReleased s) (hc : s.crcOk = true) :
    PageAbsorbed s ∧ (s.crcOk = true ↔ s.err ≠ .crcMismatch) := by
  obtain ⟨table, body, hp, ha⟩ := hq.captured
  refine ⟨⟨table, body, hp, (s.crcOk_iff.1 hc).trans ha⟩, iff_of_true hc fun e => ?_⟩
  have hf := pageAbsorbed_of_faultedAtPageEnd h (by simp [State.faultedAtPageEnd, e])
  exact hf.2.1 hc e

theorem totals_of_held (h : BlockInv s) (hr : Readable k s) (ht : s.totalsHeldOf k = true) :
    ∃ table, Memory.firstBytes s.seg s.nseg.toNat = some table ∧ Laced s table := by
  have released (hp : s.phase = .idle ∨ s.phase = .ended ∨ s.phase = .err) (hk : k = .released) :
      ∃ table, Memory.firstBytes s.seg s.nseg.toNat = some table ∧ Laced s table :=
    have ⟨table, _, hc, _⟩ := (pageReleased_of_held h hr (.inr ⟨hp, hk⟩)).captured
    ⟨table, hc.entries, hc.laced⟩
  cases hp : s.phase <;>
    simp only [State.totalsHeldOf, hp, Bool.or_eq_true, beq_iff_eq, reduceCtorEq] at ht
  case idle => exact released (.inl hp) ht
  case ended => exact released (.inr (.inl hp)) ht
  case pay => exact table_of_pay_or_done h.inPhase (.inl hp)
  case done => exact table_of_pay_or_done h.inPhase (.inr hp)
  case err =>
    rcases ht with hf | hk
    · obtain ⟨⟨table, body, hc, -⟩, -⟩ := pageAbsorbed_of_faultedAtPageEnd h hf
      exact ⟨table, hc.entries, hc.laced⟩
    · exact released (.inr (.inr hp)) hk

theorem checksum_of_held (h : BlockInv s) (hr : Readable k s) (ht : s.checksumHeldOf k = true) :
    PageAbsorbed s ∧ (s.crcOk = true ↔ s.err ≠ .crcMismatch) := by
  have released (hp : s.phase = .idle ∨ s.phase = .ended ∨ s.phase = .err)
      (hk : k = .released ∧ s.crcOk = true) :=
    checksum_of_pageReleased h (pageReleased_of_held h hr (.inr ⟨hp, hk.1⟩)) hk.2
  cases hp : s.phase <;> simp only [State.checksumHeldOf, hp, Bool.or_eq_true, Bool.and_eq_true,
    beq_iff_eq, reduceCtorEq] at ht
  case idle => exact released (.inl hp) ht
  case ended => exact released (.inr (.inl hp)) ht
  case done =>
    have hd := (phaseInv_done hp).1 h.inPhase
    exact checksum_of_pageReleased h hd.pageReleased (s.crcOk_iff.2 hd.checksum)
  case err =>
    rcases ht with hf | hk
    · exact pageAbsorbed_of_faultedAtPageEnd h hf
    · exact released (.inr (.inr hp)) hk

end Sys2Proof.Safety

namespace Sys2Proof.Proofs

open Sys2Proof.Machine Sys2Proof.Safety

/-- Settles O55: each window is a captured front of its space. -/
theorem currentPageBytesAreReadable : Obligations.CurrentPageBytesAreReadable := by
  intro s k h sp i hi
  obtain ⟨hb, hr⟩ := readable_of_reading h
  cases sp with
  | hdr => exact ⟨_, memRead_hdr (hi.trans_le (headerWindow_le hb hr))⟩
  | seg =>
    obtain ⟨bs, hbs⟩ := tableWindow_captured hb hr
    obtain ⟨b, hread⟩ := read_of_firstBytes hbs hi
    exact ⟨b, memRead_seg hb.segWf hread⟩
  | pay =>
    obtain ⟨bs, hbs⟩ := payloadWindow_captured hb hr
    obtain ⟨b, hread⟩ := read_of_firstBytes hbs hi
    exact ⟨b, memRead_pay hb.payWf hread⟩

/-- Settles O58: where the page is whole its counters are its table's, and `acc` has absorbed it. -/
theorem pageTotalsAndChecksumAreThePages : Obligations.PageTotalsAndChecksumAreThePages := by
  intro s k h
  obtain ⟨hb, hr⟩ := readable_of_reading h
  refine ⟨fun ht => ?_, fun ht => ?_⟩
  · obtain ⟨table, hf, hl⟩ := totals_of_held hb hr ht
    exact ⟨table, hf, hl.payLen, laced_npkt hl, laced_npkt hl ▸ s.multi_iff⟩
  · obtain ⟨⟨table, body, hc, ha⟩, hok⟩ := checksum_of_held hb hr ht
    exact ⟨table, body, hc.entries, hc.payload, ha, hok⟩

end Sys2Proof.Proofs
end

section
/-! The held page after a fault and after NEXT (R42, R162, R180), and how far the state alone tells it
(R106, R179). -/

namespace Sys2Proof.Safety

open Sys2Proof.Machine

variable {k : HeldPage} {s t : State} {w : Half}

/-! ### What the state alone tells -/

/-- A header that has passed the signature check is held, under a P_MAGIC other than zero (R106). -/
theorem headerHeld_of_accepted (h : HeaderAccepted s) (hm : s.cfg.pMagic ≠ 0x00000000#32) :
    s.headerHeld = true := headerHeld_of_magic (h.magic ▸ hm)

/-- In SEG and PAY the page has a table, so its header is held. -/
theorem headerHeld_of_seg_or_pay (h : BlockInv s) (hp : s.phase = .seg ∨ s.phase = .pay) :
    s.headerHeld = true := by
  refine headerHeld_of_nseg fun h0 => ?_
  rcases hp with hp | hp
  · have hlt := ((phaseInv_seg hp).1 h.inPhase).idx_lt
    rw [h0] at hlt
    exact Nat.not_lt_zero _ hlt
  · have hi := (phaseInv_pay hp).1 h.inPhase
    obtain ⟨table, body, hb⟩ := hi.payloadRead
    have hlt := hi.idx_lt
    have hnil : table = [] := List.eq_nil_of_length_eq_zero (by rw [hb.table_length, h0]; rfl)
    rw [(laced_nil (hnil ▸ hb.laced)).1] at hlt
    exact Nat.not_lt_zero _ hlt

theorem heldPage_of_knownFault (hk : KnownFault k s) (hp : s.phase = .err) (he : Keeping s.err)
    (hm : s.cfg.pMagic ≠ 0x00000000#32) :
    s.heldPage = if k = .released then .current else k := by
  rw [heldPage_keeping hp he]
  cases k with
  | noPage =>
    obtain ⟨h0, hi | hh⟩ := hk
    · simp [h0, hi]
    · simp [hh]
  | current =>
    obtain ⟨ha, hi⟩ := hk
    rw [if_neg fun e => e.2 (hi e.1), headerHeld_of_accepted ha hm]
    rfl
  | released =>
    obtain ⟨ha, hr⟩ := hk
    obtain ⟨table, body, hc, -⟩ := hr.captured
    have hi (h0 : s.npkt = 0) : s.idx = 0#16 := hr.idx.trans (pageCaptured_npkt_zero hc h0).2
    rw [if_neg fun e => e.2 (hi e.1), headerHeld_of_accepted ha hm]
    rfl

theorem heldPage_of_knownBetween (hk : KnownBetween k s) (hp : s.phase = .idle ∨ s.phase = .ended)
    (hm : s.cfg.pMagic ≠ 0x00000000#32) : s.heldPage = k := by
  rw [heldPage_between hp]
  cases k with
  | noPage => rw [show s.headerHeld = false from hk]; rfl
  | current => exact hk.elim
  | released => rw [headerHeld_of_accepted hk hm]; rfl

/-! ### The windows in ERR -/

theorem headerWindow_ofPage (hp : t.phase = .err) (he : OfPage t.err) (k : HeldPage) :
    t.headerWindowOf k = 27 := by
  rcases he with he | he | he | he <;> rw [State.headerWindowOf, hp, he]

/-- Between pages the header window is the whole header or nothing, as the state tells. -/
theorem window_hdr_between (hp : s.phase = .idle ∨ s.phase = .ended) :
    s.window .hdr = if s.headerHeld then 27 else 0 := by
  rw [State.window, heldPage_between hp, State.windowOf, State.headerWindowOf]
  rcases hp with hp | hp <;> rw [hp] <;> cases s.headerHeld <;> rfl

theorem window_hdr_raise_hdr (h : BlockInv s) (hp : s.phase = .hdr) {c : ErrCode}
    (hc : Keeping c) : (s.raise c).window .hdr = s.idx.toNat := by
  have hi := (phaseInv_hdr hp).1 h.inPhase
  have h0 : s.idx ≠ 0#16 := fun e => by
    have := hi.idx_pos
    simp [e] at this
  rw [State.window, heldPage_raise hc, if_pos ⟨(laced_nil hi.laced).2, h0⟩, State.windowOf,
    headerWindowOf_raise _ hc, if_pos rfl]

/-- Outside HDR a fault that keeps the registers leaves the window of a whole header, or none. -/
theorem window_hdr_raise (h : BlockInv s) (hp : s.phase ≠ .err) (hh : s.phase ≠ .hdr) {c : ErrCode}
    (hc : Keeping c) : (s.raise c).window .hdr = if s.headerHeld then 27 else 0 := by
  have hi := idx_eq_zero_of_npkt hp h.inPhase hh
  rw [State.window, heldPage_raise hc, if_neg fun e => e.2 (hi e.1), State.windowOf,
    headerWindowOf_raise _ hc]
  cases hd : s.headerHeld with
  | true => rfl
  | false => rw [hi (npkt_of_header_clear h hd)]; rfl

/-- In ERR a page that is not known as released has neither a table nor a payload window, and its totals
and checksum only where `page_end` raised the fault (R131, R180). -/
theorem windows_of_err (hp : t.phase = .err) (hk : k ≠ .released) :
    t.windowOf k .seg = 0 ∧ t.windowOf k .pay = 0 ∧
      (t.totalsHeldOf k = true ↔ t.err = .crcMismatch ∨ t.err = .unsupportedPage) ∧
      (t.checksumHeldOf k = true ↔ t.err = .crcMismatch ∨ t.err = .unsupportedPage) := by
  simp [State.windowOf, State.tableWindowOf, State.payloadWindowOf, State.totalsHeldOf,
    State.checksumHeldOf, State.faultedAtPageEnd, hp, hk]

/-- Between pages a fault leaves the released page's windows, totals and checksum as they were (R180). -/
theorem windows_raise_between (h : BlockInv s) (hk : KnownInv k s)
    (hp : s.phase = .idle ∨ s.phase = .ended) {c : ErrCode} (hc : Keeping c) :
    (∀ sp, (s.raise c).windowOf k sp = s.windowOf k sp) ∧
      (s.raise c).totalsHeldOf k = s.totalsHeldOf k ∧
      (s.raise c).checksumHeldOf k = s.checksumHeldOf k := by
  have hidx : k = .noPage → s.idx.toNat = 0 := by
    rintro rfl
    have hb : s.headerHeld = false := (knownInv_between hp).1 hk
    rw [idx_eq_zero_of_npkt (by rcases hp with e | e <;> simp [e]) h.inPhase
      (by rcases hp with e | e <;> simp [e]) (npkt_of_header_clear h hb)]
    rfl
  have hdr : (s.raise c).headerWindowOf k = s.headerWindowOf k := by
    rw [headerWindowOf_raise k hc, State.headerWindowOf]
    rcases hp with e | e <;> rw [e] <;> split <;> simp [*]
  have hend : (s.raise c).faultedAtPageEnd = false := by rcases hc with rfl | rfl <;> rfl
  refine ⟨fun sp => ?_, ?_, ?_⟩
  · cases sp with
    | hdr => exact hdr
    | seg => rcases hp with e | e <;> simp [State.windowOf, State.tableWindowOf, e, State.nseg, State.hdrAt]
    | pay => rcases hp with e | e <;> simp [State.windowOf, State.payloadWindowOf, e]
  · rcases hp with e | e <;> simp [State.totalsHeldOf, e, hend]
  · rcases hp with e | e <;>
      simp [State.checksumHeldOf, e, hend, State.crcOk, State.crcStored]

/-! ### What the host knows after a word -/

theorem notReset_of_phase (hx : runWord w s = .next t) (ht : t.phase = .err) :
    NotReset (.command w) := by
  refine ⟨by simp, fun e => ?_⟩
  obtain rfl := HostInput.command.inj e
  cases hx
  cases ht

/-- What the host knows after a fault: the current page where the byte's own page fails, and otherwise
what it knew before (R180). -/
theorem after_fault (hx : runWord w s = .next t) (hs : s.phase ≠ .err) (ht : t.phase = .err) :
    ((∃ b, decode w = .ok (.byte b)) ∧ InsidePage s ∧ OfPage t.err ∧
      k.after (.command w) t = .current) ∨
    (∃ c, Keeping c ∧ t = s.raise c ∧ (InsidePage s → ∀ b, decode w ≠ .ok (.byte b)) ∧
      k.after (.command w) t = k) := by
  have hn := notReset_of_phase hx ht
  rcases wordEffect_fault hx hs ht with ⟨hb, hi, he⟩ | ⟨c, hc, rfl, hb⟩
  · exact .inl ⟨hb, hi, he, after_ofPage hn ht he⟩
  · exact .inr ⟨c, hc, rfl, hb, after_keeping hn rfl hc⟩

/-- In HDR, SEG, PAY and DONE no page is known as released, and after a fault there none is (R123). -/
theorem after_fault_ne_released (hk : KnownInv k s) (hx : runWord w s = .next t)
    (hs : s.phase ≠ .err) (ht : t.phase = .err) (hi : s.phase ≠ .idle) (he : s.phase ≠ .ended) :
    k.after (.command w) t ≠ .released := by
  rcases after_fault (k := k) hx hs ht with ⟨-, -, -, ha⟩ | ⟨c, -, -, -, ha⟩ <;> rw [ha]
  · decide
  · by_cases hp : s.phase = .hdr
    · rw [(knownInv_hdr hp).1 hk]; decide
    · have hq : s.phase = .seg ∨ s.phase = .pay ∨ s.phase = .done := by
        cases h : s.phase <;> simp_all
      rw [(knownInv_page hq).1 hk]; decide

/-- NEXT releases the page with its windows, its totals and its checksum (R162). -/
theorem windows_after_next (h : BlockInv s) (hk : KnownInv k s) (hx : runWord w s = .next t)
    (hw : decode w = .ok .next) (hp : s.phase = .done) :
    (∀ sp, t.windowOf (k.after (.command w) t) sp = s.windowOf k sp) ∧
      t.totalsHeldOf (k.after (.command w) t) = true ∧
      t.checksumHeldOf (k.after (.command w) t) = true := by
  have hn : NotReset (.command w) := ⟨by simp, fun e => by
    obtain rfl := HostInput.command.inj e
    cases hw⟩
  have ht : t = s.setPhase .idle := by
    rw [runWord_of_ok hw] at hx
    rcases execNext_next hx with ⟨-, ht⟩ | ⟨hd, -⟩ | ⟨hd, -⟩
    · exact ht
    · exact absurd hp hd
    · simp [hp] at hd
  have hok : s.crcOk = true := s.crcOk_iff.2 ((phaseInv_done hp).1 h.inPhase).checksum
  have hc := (knownInv_page (.inr (.inr hp))).1 hk
  subst ht hc
  rw [after_between hn (.inl rfl), if_neg (by decide)]
  refine ⟨fun sp => ?_, rfl, hok⟩
  cases sp with
  | hdr => rw [State.windowOf, State.windowOf, State.headerWindowOf, State.headerWindowOf, hp]; rfl
  | seg => rw [State.windowOf, State.windowOf, State.tableWindowOf, State.tableWindowOf, hp]; rfl
  | pay => rw [State.windowOf, State.windowOf, State.payloadWindowOf, State.payloadWindowOf, hp]; rfl

/-- The header window that a fault leaves of a page, by what the host knows (R42, R180). -/
theorem headerWindow_after_fault (hk : KnownInv k s) (hx : runWord w s = .next t)
    (hs : s.phase ≠ .err) (ht : t.phase = .err) :
    (s.phase = .hdr → (∀ b, decode w ≠ .ok (.byte b)) →
      t.windowOf (k.after (.command w) t) .hdr = s.idx.toNat) ∧
    (s.phase = .hdr → (∃ b, decode w = .ok (.byte b)) →
      t.windowOf (k.after (.command w) t) .hdr = 27) ∧
    (s.phase = .seg ∨ s.phase = .pay ∨ s.phase = .done →
      t.windowOf (k.after (.command w) t) .hdr = 27) := by
  rcases after_fault (k := k) hx hs ht with ⟨⟨b, hb⟩, -, he, ha⟩ | ⟨c, hc, rfl, hb, ha⟩ <;>
    rw [ha, State.windowOf]
  · have h27 := headerWindow_ofPage ht he .current
    exact ⟨fun _ hn => absurd hb (hn b), fun _ _ => h27, fun _ => h27⟩
  · rw [headerWindowOf_raise k hc]
    refine ⟨fun hp _ => ?_, fun hp ⟨b, e⟩ => absurd e (hb (.inl hp) b), fun hp => ?_⟩
    · rw [if_pos ((knownInv_hdr hp).1 hk)]
    · rw [(knownInv_page hp).1 hk]
      rfl

end Sys2Proof.Safety

namespace Sys2Proof.Proofs

open Sys2Proof.Machine Sys2Proof.Safety

/-- Settles O57: the fault is that of a whole header, or keeps what the state tells of it. -/
theorem faultKeepsTheHeaderWindow : Obligations.FaultKeepsTheHeaderWindow := by
  intro w s t h hs hx ht
  rcases wordEffect_fault hx hs ht with ⟨⟨b, hb⟩, hi, he⟩ | ⟨c, hc, rfl, hb⟩
  · have h27 : t.window .hdr = 27 := headerWindow_ofPage ht he _
    refine ⟨fun _ hn => absurd hb (hn b), fun _ _ => h27, fun _ => h27, fun _ _ => h27, fun hp => ?_⟩
    rcases hp with hp | hp <;> simp [InsidePage, hp] at hi
  · refine ⟨fun hp _ => window_hdr_raise_hdr h hp hc, fun hp ⟨b, e⟩ => absurd e (hb (.inl hp) b),
      fun hp => ?_, fun hp hm => ?_, fun hp => ?_⟩
    · rw [window_hdr_raise h hs (by rcases hp with e | e <;> simp [e]) hc,
        headerHeld_of_seg_or_pay h hp]
      rfl
    · have ha := headerAccepted_of_page h.inPhase (.inr (.inr hp))
      rw [window_hdr_raise h hs (by simp [hp]) hc, headerHeld_of_accepted ha hm]
      rfl
    · rw [window_hdr_raise h hs (by rcases hp with e | e <;> simp [e]) hc, window_hdr_between hp]

/-- Settles O59: NEXT makes the current page the released one, and a fault leaves what the host knew, or
the current page where the byte's own page fails. -/
theorem knownWindowsAfterNextAndFaults : Obligations.KnownWindowsAfterNextAndFaults := by
  intro k s t w rest hknown hi hx
  rw [step_command hi] at hx
  have h := (blockInv_of_reachable (reachable_of_known hknown)).withInputs rest
  have hk := knownInv_withInputs (blockInv_of_reachable (reachable_of_known hknown))
    (knownInv_of_known hknown) rest
  refine ⟨windows_after_next (s := withInputs s rest) h hk hx, fun hs ht => ?_⟩
  obtain ⟨hfront, hown, hwhole⟩ := headerWindow_after_fault hk hx hs ht
  refine ⟨hfront, hown, hwhole, fun hidle hended => ?_, fun hp => ?_⟩
  · exact windows_of_err ht (after_fault_ne_released hk hx hs ht hidle hended)
  · rcases after_fault (k := k) hx hs ht with ⟨-, hin, -⟩ | ⟨c, hc, rfl, -, ha⟩
    · rcases hp with hp | hp <;> simp [InsidePage, hp] at hin
    · rw [ha]
      exact windows_raise_between h hk hp hc

/-- Settles O60, by phase: a header that was accepted is not all zero. -/
theorem stateTellsTheHeldPage : Obligations.StateTellsTheHeldPage := by
  intro k s hknown hm
  have h := blockInv_of_reachable (reachable_of_known hknown)
  have hk := knownInv_of_known hknown
  by_cases hp : s.phase = .err
  · rcases ofPage_or_keeping h hp with he | he
    · rw [heldPage_ofPage hp he, (knownInv_ofPage hp he).1 hk]
      simp
    · rw [heldPage_of_knownFault ((knownInv_keeping hp he).1 hk) hp he hm]
      simp only [hp, true_and]
  · rw [if_neg fun e => hp e.1]
    have page (hq : s.phase = .seg ∨ s.phase = .pay ∨ s.phase = .done) : s.heldPage = k := by
      rw [heldPage_page hq, (knownInv_page hq).1 hk]
    have between (hq : s.phase = .idle ∨ s.phase = .ended) : s.heldPage = k :=
      heldPage_of_knownBetween ((knownInv_between hq).1 hk) hq hm
    cases hs : s.phase with
    | hdr => rw [heldPage_hdr hs, (knownInv_hdr hs).1 hk]
    | seg => exact page (.inl hs)
    | pay => exact page (.inr (.inl hs))
    | done => exact page (.inr (.inr hs))
    | idle => exact between (.inl hs)
    | ended => exact between (.inr hs)
    | err => exact absurd hs hp

end Sys2Proof.Proofs
end

section
/-! The three byte spaces: what a command leaves in each of them (R57), when BYTE stops, what the host
reads (R60, R62), and that the reads of a buffer determine it. -/

namespace Sys2Proof.Machine

/-! ### The canonical form of a buffer -/

namespace Memory

variable {lo lo' size a i : Nat} {c b : Byte} {m m' : Memory}

theorem risesWithin_cons : risesWithin lo size ((a, c) :: m) = true ↔
    lo ≤ a ∧ a < size ∧ risesWithin (a + 1) size m = true := by
  simp [risesWithin, and_assoc]

@[simp] theorem read_cons_same : read ((a, c) :: m) a = some c := by simp [read]

theorem read_cons_other (h : a ≠ i) : read ((a, c) :: m) i = read m i := by simp [read, h]

/-- A canonical buffer answers no index below its first. -/
theorem head_le_of_read (hw : risesWithin lo size ((a, c) :: m) = true)
    (hr : read ((a, c) :: m) i = some b) : a ≤ i := by
  obtain ⟨-, ha, hm⟩ := risesWithin_cons.1 hw
  by_contra hlt
  have hn : read ((a, c) :: m) i = none :=
    read_of_risesWithin (risesWithin_cons.2 ⟨le_rfl, ha, hm⟩) (not_le.1 hlt)
  rw [hn] at hr
  cases hr

/-- Each first index is answered by the other buffer too, so the two first entries are the same; both
tails list neither it nor anything below it, so they read alike. -/
theorem eq_of_read_eq (hw : risesWithin lo size m = true) (hw' : risesWithin lo' size m' = true)
    (h : ∀ i, read m i = read m' i) : m = m' := by
  induction m generalizing lo lo' m' with
  | nil =>
    cases m' with
    | nil => rfl
    | cons e' m' => cases (h e'.1).trans read_cons_same
  | cons e m ih =>
    obtain ⟨a, c⟩ := e
    cases m' with
    | nil => cases (h a).symm.trans read_cons_same
    | cons e' m' =>
      obtain ⟨a', c'⟩ := e'
      obtain rfl : a = a' := le_antisymm (head_le_of_read hw ((h a').trans read_cons_same))
        (head_le_of_read hw' ((h a).symm.trans read_cons_same))
      obtain rfl : c = c' := by simpa using h a
      obtain ⟨-, -, hm⟩ := risesWithin_cons.1 hw
      obtain ⟨-, -, hm'⟩ := risesWithin_cons.1 hw'
      have htail (i : Nat) : read m i = read m' i := by
        by_cases hi : a = i
        · rw [read_of_risesWithin hm (by omega), read_of_risesWithin hm' (by omega)]
        · rw [← read_cons_other hi, h i, read_cons_other hi]
      rw [ih hm hm' htail]

end Memory

/-! ### The stored bytes after the parts of a step that store none -/

namespace State

variable (s : State) (sp : Space) (i : Nat)

theorem byteAt_congr {s t : State} (hh : t.hdr = s.hdr) (hs : t.seg = s.seg) (hp : t.pay = s.pay)
    (sp : Space) (i : Nat) : t.byteAt sp i = s.byteAt sp i := by
  cases sp <;> simp only [byteAt, hh, hs, hp]

@[simp] theorem byteAt_absorb (b : Byte) : (s.absorb b).byteAt sp i = s.byteAt sp i :=
  byteAt_congr rfl rfl rfl sp i
@[simp] theorem byteAt_advance : s.advance.byteAt sp i = s.byteAt sp i := byteAt_congr rfl rfl rfl sp i
@[simp] theorem byteAt_setSeq (p : Phase) (n : Half) : (s.setSeq p n).byteAt sp i = s.byteAt sp i :=
  byteAt_congr rfl rfl rfl sp i
@[simp] theorem byteAt_raise (c : ErrCode) : (s.raise c).byteAt sp i = s.byteAt sp i :=
  byteAt_congr rfl rfl rfl sp i
@[simp] theorem byteAt_laceEntry (b : Byte) : (s.laceEntry b).byteAt sp i = s.byteAt sp i :=
  byteAt_congr (by simp) (by simp) (by simp) sp i
@[simp] theorem byteAt_headerBoundary : s.headerBoundary.byteAt sp i = s.byteAt sp i := by
  unfold headerBoundary
  split
  · obtain ⟨p, e, n, h⟩ := headerEnd_keeps s
    rw [h]
    exact byteAt_congr rfl rfl rfl sp i
  · rfl
@[simp] theorem byteAt_tableBoundary : s.tableBoundary.byteAt sp i = s.byteAt sp i := by
  obtain ⟨p, e, n, h⟩ := tableBoundary_keeps s
  rw [h]
  exact byteAt_congr rfl rfl rfl sp i
@[simp] theorem byteAt_payloadBoundary : s.payloadBoundary.byteAt sp i = s.byteAt sp i := by
  unfold payloadBoundary
  split
  · obtain ⟨p, e, h⟩ := pageEnd_keeps s
    rw [h]
    exact byteAt_congr rfl rfl rfl sp i
  · rfl

/-- `page_clear` clears the header registers and writes no buffer (R123). -/
theorem byteAt_pageClear : s.pageClear.byteAt sp i =
    if sp = .hdr then (if i < 27 then some 0x00#8 else none) else s.byteAt sp i := by
  cases sp with
  | hdr => simp [byteAt, Vector.getElem?_replicate]
  | seg => rfl
  | pay => rfl

end State

/-! ### The read of a byte (R60, R62) -/

theorem memRead_of_byteAt {s : State} {sp : Space} {i : Nat} {b : Byte} (hi : i < sp.size)
    (h : s.byteAt sp i = some b) : s.memRead sp i = .ok b := by
  rw [State.memRead, if_pos hi, h]

theorem memRead_neverWritten {s : State} {sp : Space} {i : Nat} (hi : i < sp.size)
    (h : s.byteAt sp i = none) : s.memRead sp i = .error (.neverWritten sp i) := by
  rw [State.memRead, if_pos hi, h]

theorem memRead_outside (s : State) {sp : Space} {i : Nat} (hi : sp.size ≤ i) :
    s.memRead sp i = .error (.indexOutOfRange sp i) := by
  rw [State.memRead, if_neg (not_lt.2 hi)]

end Sys2Proof.Machine

namespace Sys2Proof.Safety

open Sys2Proof.Machine

/-! ### The stored bytes after a command (R57) -/

/-- Every stored byte after a BYTE: the one at its target is new, every other is as before, or as
`page_clear` leaves it where the byte starts a page (R122, R124, R127, R130). -/
theorem byteAt_of_exec_byte {b : Byte} {s t : State} (h : exec (.byte b) s = .next t) (sp : Space)
    (i : Nat) : t.byteAt sp i = if storeTarget s = some (sp, i) then some b
      else (if s.phase = .idle then s.pageClear else s).byteAt sp i := by
  rcases execByte_next h with ⟨hp, rfl⟩ | ⟨hp, hi, rfl⟩ | ⟨hp, hi, rfl⟩ | ⟨hp, hi, rfl⟩ |
    ⟨hp | hp, rfl⟩ | ⟨hp, rfl⟩
  · have h0 : 0 < Space.hdr.size := by decide
    simp [storeTarget, hp, byteAt_putByte _ _ _ _ _ _ h0]
  · simp [storeTarget, hp, byteAt_putByte s .hdr _ _ _ _ hi]
  · simp [storeTarget, hp, byteAt_putByte s .seg _ _ _ _ hi]
  · simp [storeTarget, hp, byteAt_putByte s .pay _ _ _ _ hi]
  · simp [storeTarget, hp]
  · simp [storeTarget, hp]
  · simp [storeTarget, hp]

/-- No command but BYTE and RESET writes a header register or a buffer. -/
theorem exec_keeps_spaces {i : Instr} {s t : State} (hb : ∀ b, i ≠ .byte b) (hr : i ≠ .reset)
    (h : exec i s = .next t) : t.hdr = s.hdr ∧ t.seg = s.seg ∧ t.pay = s.pay := by
  cases i with
  | nop => cases h; exact ⟨rfl, rfl, rfl⟩
  | reset => exact absurd rfl hr
  | next => rcases execNext_next h with ⟨-, rfl⟩ | ⟨-, -, rfl⟩ | ⟨-, rfl⟩ <;> exact ⟨rfl, rfl, rfl⟩
  | crcClr => rcases execCrcClr_next h with ⟨-, rfl⟩ | ⟨-, -, rfl⟩ | ⟨-, rfl⟩ <;> exact ⟨rfl, rfl, rfl⟩
  | crcAbs b =>
    rcases execCrcAbs_next h with ⟨-, rfl⟩ | ⟨-, -, rfl⟩ | ⟨-, rfl⟩ <;> exact ⟨rfl, rfl, rfl⟩
  | byte b => exact absurd rfl (hb b)
  | eos =>
    rcases execEos_next h with ⟨-, rfl⟩ | ⟨-, rfl⟩ | ⟨-, rfl⟩ | ⟨-, rfl⟩ <;> exact ⟨rfl, rfl, rfl⟩

/-! ### Where BYTE stops (R60) -/

/-- BYTE stores at its target before anything else, or has no target and completes (R121, R132, R133). -/
theorem exec_byte_cases (b : Byte) (s : State) :
    (∃ sp i u rest, storeTarget s = some (sp, i) ∧
      exec (.byte b) s = afterStore (State.storeByte sp i b u) rest) ∨
    (storeTarget s = none ∧ ∃ t, exec (.byte b) s = .next t) := by
  simp only [exec, execByte, storeTarget]
  cases s.phase with
  | idle | hdr | seg | pay => exact .inl ⟨_, _, _, _, rfl, rfl⟩
  | done | ended | err => exact .inr ⟨rfl, _, rfl⟩

/-- BYTE stops exactly where its target is outside the target's space. -/
theorem exec_byte_fault {b : Byte} {s : State} {f : Fault} : exec (.byte b) s = .fault f ↔
    ∃ sp i, storeTarget s = some (sp, i) ∧ sp.size ≤ i ∧ f = .noSuchByte sp i := by
  rcases exec_byte_cases b s with ⟨sp, i, u, rest, ht, hx⟩ | ⟨ht, t, hx⟩
  · rw [hx, afterStore_fault, storeByte_error]
    simp [ht]
  · simp [hx, ht]

theorem exec_byte_ne_refused (b : Byte) (s : State) (r : Refusal) :
    exec (.byte b) s ≠ .refused r := by
  rcases exec_byte_cases b s with ⟨sp, i, u, rest, -, hx⟩ | ⟨-, t, hx⟩ <;> rw [hx]
  · exact afterStore_ne_refused _ _ r
  · nofun

end Sys2Proof.Safety

namespace Sys2Proof.Proofs

open Sys2Proof.Machine Sys2Proof.Safety

/-- Settles O32, by every stored byte after a BYTE. -/
theorem byteWritesOneByte : Obligations.ByteWritesOneByte := by
  intro b s t h
  refine ⟨fun sp i ht => ?_, fun sp i ht => ?_⟩
  · rw [byteAt_of_exec_byte h, if_pos ht]
  · rw [byteAt_of_exec_byte h, if_neg ht]
    by_cases hp : s.phase = .idle
    · rw [if_pos hp, State.byteAt_pageClear]
      by_cases hs : sp = .hdr
      · rw [if_pos ⟨hp, hs⟩, if_pos hs]
        exact fun hi => if_pos hi
      · rw [if_neg fun e => hs e.2, if_neg hs]
    · rw [if_neg fun e => hp e.1, if_neg hp]

/-- Settles O33: RESET clears the header registers, and the other commands keep all three spaces. -/
theorem otherCommandsWriteNoByte : Obligations.OtherCommandsWriteNoByte := by
  intro i s t hb h
  by_cases hr : i = .reset
  · subst hr
    cases h
    exact ⟨fun _ => rfl, fun _ => rfl, fun hr => absurd rfl hr, fun _ _ hk => by
      simp [State.byteAt, hk]⟩
  · obtain ⟨hh, hs, hp⟩ := exec_keeps_spaces hb hr h
    exact ⟨State.byteAt_congr hh hs hp .seg, State.byteAt_congr hh hs hp .pay,
      fun _ => State.byteAt_congr hh hs hp .hdr, fun e => absurd e hr⟩

/-- Settles O46, by induction on one buffer against the other. -/
theorem canonicalBuffersAreEqualByReads : Obligations.CanonicalBuffersAreEqualByReads :=
  fun _ _ _ hw hw' h => Memory.eq_of_read_eq hw hw' h

/-- Settles O29: BYTE stops by its target alone, and its target in IDLE is inside. -/
theorem byteStopsOnlyOutsideItsSpace : Obligations.ByteStopsOnlyOutsideItsSpace := by
  intro b s
  refine ⟨fun hp hi => ?_, fun hp hi => ?_, fun hp hi => ?_, fun f hf => ?_, exec_byte_ne_refused b s⟩
  · exact exec_byte_fault.2 ⟨.hdr, _, by simp only [storeTarget, hp], hi, rfl⟩
  · exact exec_byte_fault.2 ⟨.seg, _, by simp only [storeTarget, hp], hi, rfl⟩
  · exact exec_byte_fault.2 ⟨.pay, _, by simp only [storeTarget, hp], hi, rfl⟩
  · obtain ⟨sp, i, ht, hi, -⟩ := exec_byte_fault.1 hf
    unfold storeTarget at ht
    split at ht <;> rename_i hp <;> cases ht
    · exact absurd hi (by decide)
    · exact .inl ⟨hp, hi⟩
    · exact .inr (.inl ⟨hp, hi⟩)
    · exact .inr (.inr ⟨hp, hi⟩)

/-- Settles O54, by the stored byte at the index, if the space has the index. -/
theorem memReadReturnsStoredByte : Obligations.MemReadReturnsStoredByte := fun s =>
  ⟨fun _ _ hi h => memRead_of_byteAt (sp := .hdr) hi h,
    fun _ _ hi h => memRead_of_byteAt (sp := .seg) hi h,
    fun _ _ hi h => memRead_of_byteAt (sp := .pay) hi h,
    fun _ hi h => memRead_neverWritten (sp := .seg) hi h,
    fun _ hi h => memRead_neverWritten (sp := .pay) hi h,
    fun _ _ hi => memRead_outside s hi⟩

end Sys2Proof.Proofs
end

section
/-! The encoding (R70, R71, R73): the words that decode, the row of the opcode map that each of them
selects, and the words that are illegal. -/

namespace Sys2Proof

/-! ### Decoding against encoding -/

theorem fields_of_withoutOperand {i j : Instr} {f : FormatC} (h : withoutOperand i f = .ok j)
    (hop : f.op = opcodeOf i) (harg : operandOf i = 0x00#8) :
    f.op = opcodeOf j ∧ f.arg = operandOf j := by
  obtain ⟨hf, rfl⟩ := Safety.withoutOperand_ok.1 h
  exact ⟨hop, hf.trans harg.symm⟩

/-- The fields decode to the one command whose fields they are (R71). -/
theorem decodeFormat_eq_ok_iff {f : FormatC} {i : Instr} :
    decodeFormat f = .ok i ↔ f.op = opcodeOf i ∧ f.arg = operandOf i := by
  constructor
  · intro h
    unfold decodeFormat at h
    split_ifs at h with hop hop hop hop hop hop hop
    · exact fields_of_withoutOperand h hop rfl
    · exact fields_of_withoutOperand h hop rfl
    · exact fields_of_withoutOperand h hop rfl
    · exact fields_of_withoutOperand h hop rfl
    · cases h; exact ⟨hop, rfl⟩
    · cases h; exact ⟨hop, rfl⟩
    · exact fields_of_withoutOperand h hop rfl
  · obtain ⟨op, arg⟩ := f
    rintro ⟨rfl, rfl⟩
    cases i <;> rfl

theorem encode_eq_iff {w : Half} {i : Instr} :
    encode i = w ↔ opField w = opcodeOf i ∧ argField w = operandOf i := by
  constructor
  · rintro rfl
    exact ⟨opField_append _ _, argField_append _ _⟩
  · rintro ⟨hop, harg⟩
    rw [encode, ← hop, ← harg, append_fields]

/-- A word decodes to the command that it is the encoding of, and to no other (R71, R73). -/
theorem decode_eq_ok_iff {w : Half} {i : Instr} : decode w = .ok i ↔ encode i = w :=
  decodeFormat_eq_ok_iff.trans encode_eq_iff.symm

theorem decode_encode (i : Instr) : decode (encode i) = .ok i := decode_eq_ok_iff.2 rfl

theorem encode_inj {i j : Instr} : encode i = encode j ↔ i = j :=
  ⟨fun h => Except.ok.inj ((decode_encode i).symm.trans (decode_eq_ok_iff.2 h.symm)), congrArg encode⟩

/-! ### The opcode map -/

/-- The row of the opcode map that stands for a command (R71). -/
def rowOf : Instr → OpcodeRow
  | .nop => { mnemonic := "NOP", pattern := 0x0000#16, mask := 0xFFFF#16 }
  | .reset => { mnemonic := "RESET", pattern := 0x0100#16, mask := 0xFFFF#16 }
  | .next => { mnemonic := "NEXT", pattern := 0x0200#16, mask := 0xFFFF#16 }
  | .crcClr => { mnemonic := "CRC.CLR", pattern := 0x1000#16, mask := 0xFFFF#16 }
  | .crcAbs _ => { mnemonic := "CRC.ABS", pattern := 0x1100#16, mask := 0xFF00#16 }
  | .byte _ => { mnemonic := "BYTE", pattern := 0x2000#16, mask := 0xFF00#16 }
  | .eos => { mnemonic := "EOS", pattern := 0x2100#16, mask := 0xFFFF#16 }

theorem rowOf_mnemonic (i : Instr) : (rowOf i).mnemonic = mnemonic i := by cases i <;> rfl

theorem rowOf_mem (i : Instr) : rowOf i ∈ opcodeMap := by cases i <;> simp [rowOf, opcodeMap]

theorem opcodeMap_nodup : opcodeMap.Nodup := by decide

/-- The map has no row beside those of the seven commands. -/
theorem exists_rowOf {r : OpcodeRow} (h : r ∈ opcodeMap) : ∃ i, rowOf i = r := by
  simp only [opcodeMap, List.mem_cons, List.not_mem_nil, or_false] at h
  rcases h with rfl | rfl | rfl | rfl | rfl | rfl | rfl
  · exact ⟨.nop, rfl⟩
  · exact ⟨.reset, rfl⟩
  · exact ⟨.next, rfl⟩
  · exact ⟨.crcClr, rfl⟩
  · exact ⟨.crcAbs 0x00#8, rfl⟩
  · exact ⟨.byte 0x00#8, rfl⟩
  · exact ⟨.eos, rfl⟩

/-- The mask of a row with an operand keeps the `op` field alone. -/
theorem append_and_opMask (a b : Byte) : (show Half from a ++ b) &&& 0xFF00#16 = a ++ 0x00#8 := by
  have h : (0xFF00#16 : Half) = 0xFF#8 ++ 0x00#8 := rfl
  rw [h, BitVec.and_append, BitVec.and_zero, show (0xFF#8 : Byte) = BitVec.allOnes 8 from rfl,
    BitVec.and_allOnes]

/-- The encoding of every command meets the command's own row. -/
theorem encode_and_mask (i : Instr) : encode i &&& (rowOf i).mask = (rowOf i).pattern := by
  cases i with
  | crcAbs b => exact append_and_opMask 0x11#8 b
  | byte b => exact append_and_opMask 0x20#8 b
  | nop | reset | next | crcClr | eos => rfl

theorem opField_of_and_opMask {w : Half} {a : Byte} (h : w &&& 0xFF00#16 = a ++ 0x00#8) :
    opField w = a := by
  rw [← append_fields w, append_and_opMask] at h
  simpa using congrArg opField h

theorem eq_of_and_fullMask {w p : Half} (h : w &&& 0xFFFF#16 = p) : p = w :=
  h.symm.trans BitVec.and_allOnes

/-- A word that meets a command's row is an encoding that has this row: the command's own, or, where the
row has an operand, that of the command with the word's operand. -/
theorem exists_encode_of_and_mask {w : Half} {i : Instr} (h : w &&& (rowOf i).mask = (rowOf i).pattern) :
    ∃ j, encode j = w ∧ rowOf j = rowOf i := by
  cases i with
  | crcAbs b =>
    have hop : opField w = 0x11#8 := opField_of_and_opMask h
    exact ⟨.crcAbs (argField w), encode_eq_iff.2 ⟨hop, rfl⟩, rfl⟩
  | byte b =>
    have hop : opField w = 0x20#8 := opField_of_and_opMask h
    exact ⟨.byte (argField w), encode_eq_iff.2 ⟨hop, rfl⟩, rfl⟩
  | nop | reset | next | crcClr | eos =>
    refine ⟨_, ?_, rfl⟩
    exact eq_of_and_fullMask h

/-- A word selects exactly the rows of the commands that it encodes (R71). -/
theorem mem_selectedRows_iff {w : Half} {r : OpcodeRow} :
    r ∈ selectedRows w ↔ ∃ i, encode i = w ∧ rowOf i = r := by
  simp only [selectedRows, List.mem_filter, beq_iff_eq]
  constructor
  · rintro ⟨hr, hw⟩
    obtain ⟨i, rfl⟩ := exists_rowOf hr
    exact exists_encode_of_and_mask hw
  · rintro ⟨i, rfl, rfl⟩
    exact ⟨rowOf_mem i, encode_and_mask i⟩

/-- The rows are disjoint: the encoding of a command selects the command's row alone. -/
theorem selectedRows_encode (i : Instr) : selectedRows (encode i) = [rowOf i] := by
  have selected (r : OpcodeRow) : r ∈ selectedRows (encode i) ↔ r = rowOf i := by
    simp [mem_selectedRows_iff, encode_inj, eq_comm]
  have nodup : (selectedRows (encode i)).Nodup := opcodeMap_nodup.filter _
  exact List.perm_singleton.1 ((List.perm_ext_iff_of_nodup nodup (List.nodup_singleton _)).2
    fun r => (selected r).trans List.mem_singleton.symm)

theorem selectedRows_of_error {w : Half} {e : DecodeError} (h : decode w = .error e) :
    selectedRows w = [] := by
  refine List.eq_nil_iff_forall_not_mem.2 fun r hr => ?_
  obtain ⟨i, hi, -⟩ := mem_selectedRows_iff.1 hr
  cases h.symm.trans (decode_eq_ok_iff.2 hi)

/-! ### The illegal words -/

theorem encode_wf (i : Instr) : (formatOf (encode i)).wf = true := by
  cases i with
  | nop => exact Laws.EncodesLegal.nop
  | reset => exact Laws.EncodesLegal.reset
  | next => exact Laws.EncodesLegal.next
  | crcClr => exact Laws.EncodesLegal.crcClr
  | crcAbs b => exact Laws.EncodesLegal.crcAbs b
  | byte b => exact Laws.EncodesLegal.byte b
  | eos => exact Laws.EncodesLegal.eos

/-- R73 (b), for the five opcodes it names. -/
theorem arg_eq_zero_of_operandAllowed {f : FormatC} (h : f.operandAllowed = true)
    (hop : [0x00#8, 0x01#8, 0x02#8, 0x10#8, 0x21#8].contains f.op = true) : f.arg = 0x00#8 := by
  simpa only [FormatC.operandAllowed, hop, Bool.true_and, Bool.not_eq_true', bne_eq_false_iff_eq]
    using h

theorem exists_fields_of_wf {f : FormatC} (h : f.wf = true) :
    ∃ i, f.op = opcodeOf i ∧ f.arg = operandOf i := by
  obtain ⟨op, arg⟩ := f
  obtain ⟨hop, harg⟩ : FormatC.opcodeDefined ⟨op, arg⟩ = true ∧
    FormatC.operandAllowed ⟨op, arg⟩ = true := Bool.and_eq_true_iff.1 h
  simp only [FormatC.opcodeDefined, List.contains_cons, List.contains_nil, Bool.or_eq_true,
    beq_iff_eq, Bool.false_eq_true, or_false] at hop
  rcases hop with rfl | rfl | rfl | rfl | rfl | rfl | rfl
  · exact ⟨.nop, rfl, arg_eq_zero_of_operandAllowed harg rfl⟩
  · exact ⟨.reset, rfl, arg_eq_zero_of_operandAllowed harg rfl⟩
  · exact ⟨.next, rfl, arg_eq_zero_of_operandAllowed harg rfl⟩
  · exact ⟨.crcClr, rfl, arg_eq_zero_of_operandAllowed harg rfl⟩
  · exact ⟨.crcAbs arg, rfl, rfl⟩
  · exact ⟨.byte arg, rfl, rfl⟩
  · exact ⟨.eos, rfl, arg_eq_zero_of_operandAllowed harg rfl⟩

/-- The decoder accepts exactly the words that R73 does not make illegal. -/
theorem exists_decode_iff_wf {w : Half} :
    (∃ i, decode w = .ok i) ↔ (formatOf w).wf = true := by
  constructor
  · rintro ⟨i, h⟩
    rw [← decode_eq_ok_iff.1 h]
    exact encode_wf i
  · intro h
    obtain ⟨i, hf⟩ := exists_fields_of_wf h
    exact ⟨i, decodeFormat_eq_ok_iff.2 hf⟩

end Sys2Proof

namespace Sys2Proof.Proofs

open Sys2Proof.Machine

/-- Settles O1: a word decodes to a command exactly if it is the command's encoding. -/
theorem decodeEncodeRoundTrip : Obligations.DecodeEncodeRoundTrip :=
  ⟨decode_encode, fun _ _ => decode_eq_ok_iff.1⟩

/-- Settles O2: a word selects the rows of the commands that it encodes, and it encodes at most one. -/
theorem wordSelectsItsRow : Obligations.WordSelectsItsRow := by
  refine fun w => ⟨fun i h => ⟨rowOf i, ?_, rowOf_mnemonic i⟩, fun ⟨_, h⟩ => selectedRows_of_error h⟩
  rw [← decode_eq_ok_iff.1 h]
  exact selectedRows_encode i

/-- Settles O3: the words that do not decode are the ill-formed ones, and run as the illegal word. -/
theorem illegalWordsRaiseIllegalCmd : Obligations.IllegalWordsRaiseIllegalCmd := by
  refine fun w => ⟨exists_decode_iff_wf, fun hw s => ?_⟩
  rcases hd : decode w with e | i
  · rw [runWord_of_error hd, execIllegalWord_eq]
  · rw [exists_decode_iff_wf.1 ⟨i, hd⟩] at hw
    cases hw

/-- Settles O4: the seven words of R85 are encodings, and the decoder rejects each of the other five. -/
theorem specWordsDecode : Obligations.SpecWordsDecode :=
  ⟨decode_encode (.byte 0x4F#8), decode_encode (.crcAbs 0x31#8), decode_encode .eos,
    decode_encode .next, decode_encode .reset, decode_encode .nop, decode_encode .crcClr,
    rfl, rfl, rfl, rfl, rfl⟩

end Sys2Proof.Proofs
end

section
/-! The laws of the byte step and of the checksum: the table form (R102), zeros (R106), and linearity with
what it detects (R107). -/

namespace Sys2Proof.Machine

/-! ### One iteration, and the eight of a byte step -/

theorem crcBit_of_top_clear {t : Word} (h : t.getLsbD 31 = false) : crcBit t = t <<< 1 := by
  rw [crcBit, h]
  rfl

/-- CRC_POLY is odd, so bit 0 of an iteration tells which way it went, and the way tells the rest. -/
theorem eq_zero_of_crcBit_eq_zero {t : Word} (h : crcBit t = 0x00000000#32) : t = 0x00000000#32 := by
  cases ht : t.getLsbD 31 with
  | true =>
    have h0 : (crcBit t).getLsbD 0 = true := by simp [crcBit, ht, crcPoly]
    simp [h] at h0
  | false =>
    rw [crcBit_of_top_clear ht] at h
    apply BitVec.eq_of_getLsbD_eq
    intro i hi
    rcases Nat.lt_or_ge i 31 with hlt | hge
    · have := congrArg (·.getLsbD (i + 1)) h
      rw [BitVec.getLsbD_eq_getElem hi]
      simpa [show i + 1 < 32 by omega] using this
    · rw [show i = 31 by omega, ht]
      simp

theorem crcBit_injective : Function.Injective crcBit := fun t u h =>
  BitVec.xor_eq_zero_iff.1 (eq_zero_of_crcBit_eq_zero (by rw [crcBit_xor, h, BitVec.xor_self]))

theorem repeat_crcBit_injective (n : Nat) : Function.Injective (Nat.repeat crcBit n) := by
  induction n with
  | zero => exact fun _ _ h => h
  | succ n ih => exact crcBit_injective.comp ih

/-- While the bits that leave at the top are clear, the iterations only shift. -/
theorem repeat_crcBit_of_top_clear {n : Nat} {t : Word}
    (h : ∀ i, 32 - n ≤ i → t.getLsbD i = false) (hn : n ≤ 32) :
    Nat.repeat crcBit n t = t <<< n := by
  induction n with
  | zero => simp [Nat.repeat]
  | succ n ih =>
    have htop : (t <<< n).getLsbD 31 = false := by
      rw [BitVec.getLsbD_shiftLeft, h (31 - n) (by omega), Bool.and_false]
    rw [Nat.repeat, ih (fun i hi => h i (by omega)) (by omega), crcBit_of_top_clear htop,
      BitVec.shiftLeft_add]

/-! ### The byte step -/

/-- A byte enters the accumulator linearly. -/
theorem zext32_shift_xor (b c : Byte) :
    zext32 (b ^^^ c) <<< 24 = (zext32 b <<< 24) ^^^ (zext32 c <<< 24) := by
  simp [zext32, BitVec.setWidth_xor, BitVec.shiftLeft_xor_distrib]

theorem xor_xor_xor_comm (t u v w : Word) : (t ^^^ u) ^^^ (v ^^^ w) = (t ^^^ v) ^^^ (u ^^^ w) := by
  ac_rfl

/-- The byte step is linear in the accumulator and the byte (R107). -/
theorem crcStep_xor (a a' : Word) (b b' : Byte) :
    crcStep (a ^^^ a') (b ^^^ b') = crcStep a b ^^^ crcStep a' b' := by
  have hin : (a ^^^ a') ^^^ (zext32 (b ^^^ b') <<< 24) =
      (a ^^^ (zext32 b <<< 24)) ^^^ (a' ^^^ (zext32 b' <<< 24)) := by
    rw [zext32_shift_xor, xor_xor_xor_comm]
  rw [crcStep, hin, repeat_crcBit_xor, crcStep, crcStep]

theorem crcStep_left_injective (b : Byte) : Function.Injective (crcStep · b) := fun _ _ h =>
  BitVec.xor_left_inj _ |>.1 (repeat_crcBit_injective 8 h)

theorem crcStep_right_injective (a : Word) : Function.Injective (crcStep a) := by
  intro b c h
  have h := (BitVec.xor_right_inj _).1 (repeat_crcBit_injective 8 h)
  apply BitVec.eq_of_getLsbD_eq
  intro i hi
  have := congrArg (·.getLsbD (24 + i)) h
  simpa [zext32, hi, show 24 + i < 32 by omega] using this

theorem crcStep_zero : crcStep 0x00000000#32 0x00#8 = 0x00000000#32 := by decide +kernel

/-- The byte that a table lookup takes is the top byte of the accumulator with the message byte; the
low 24 bits are what it leaves. -/
theorem xor_zext32_shift_eq (a : Word) (b : Byte) :
    a ^^^ (zext32 b <<< 24) =
      (a.setWidth 24).setWidth 32 ^^^ (zext32 (a.extractLsb' 24 8 ^^^ b) <<< 24) := by
  apply BitVec.eq_of_getLsbD_eq
  intro i hi
  rcases Nat.lt_or_ge i 24 with hlt | hge
  · simp [hlt, hi]
  · simp [zext32, hi, hge, show ¬ i < 24 by omega, show i - 24 < 8 by omega]

/-- The low 24 bits are only shifted by the eight iterations. -/
theorem repeat_crcBit_low24 (a : Word) :
    Nat.repeat crcBit 8 ((a.setWidth 24).setWidth 32) = a <<< 8 := by
  rw [repeat_crcBit_of_top_clear (fun i hi => by simp [show ¬ i < 24 by omega]) (by decide)]
  apply BitVec.eq_of_getLsbD_eq
  intro i hi
  rcases Nat.lt_or_ge i 8 with hlt | hge
  · simp [hlt]
  · simp [hi, show i - 8 < 24 by omega, show i - 8 < 32 by omega]

theorem crcStep_eq_crcStepByTable (a : Word) (b : Byte) : crcStep a b = crcStepByTable a b := by
  unfold crcStepByTable crcTableEntry crcStep
  rw [xor_zext32_shift_eq, repeat_crcBit_xor, repeat_crcBit_low24, BitVec.zero_xor]

/-- The printed table, put together from its parts. -/
theorem crcTablePrinted_eq :
    crcTablePrinted = (List.range 256).map fun i => crcTableEntry (BitVec.ofNat 8 i) := by
  have hrange : List.range 256 = List.range' 0 32 ++ List.range' 32 32 ++ List.range' 64 32 ++
      List.range' 96 32 ++ List.range' 128 32 ++ List.range' 160 32 ++ List.range' 192 32 ++
      List.range' 224 32 := by decide +kernel
  rw [crcTablePrinted, crcTablePart0_eq, crcTablePart1_eq, crcTablePart2_eq, crcTablePart3_eq,
    crcTablePart4_eq, crcTablePart5_eq, crcTablePart6_eq, crcTablePart7_eq, hrange]
  simp only [List.map_append]

/-! ### Messages -/

/-- Messages of one length are added byte by byte, from any two accumulators (R107). -/
theorem foldl_crcStep_xor (a a' : Word) (m e : List Byte) (h : m.length = e.length) :
    (List.zipWith (· ^^^ ·) m e).foldl crcStep (a ^^^ a') =
      m.foldl crcStep a ^^^ e.foldl crcStep a' := by
  induction m generalizing e a a' with
  | nil => cases e with
    | nil => rfl
    | cons c e => cases h
  | cons b m ih => cases e with
    | nil => cases h
    | cons c e =>
      simp only [List.zipWith_cons_cons, List.foldl_cons, crcStep_xor]
      exact ih _ _ e (Nat.succ.inj h)

theorem foldl_crcStep_injective (m : List Byte) : Function.Injective (m.foldl crcStep) := by
  induction m with
  | nil => exact fun _ _ h => h
  | cons b m ih => exact ih.comp (crcStep_left_injective b)

/-- At one place of a message, the checksum tells the byte (R107). -/
theorem crc32Ogg_append_cons_inj (m e : List Byte) {b c : Byte} :
    crc32Ogg (m ++ b :: e) = crc32Ogg (m ++ c :: e) ↔ b = c := by
  refine ⟨fun h => ?_, fun h => h ▸ rfl⟩
  simp only [crc32Ogg, List.foldl_append, List.foldl_cons] at h
  exact crcStep_right_injective _ (foldl_crcStep_injective e h)

/-- Zero bytes leave a zero accumulator zero (R106). -/
theorem foldl_crcStep_replicate_zero (n : Nat) :
    (List.replicate n 0x00#8).foldl crcStep 0x00000000#32 = 0x00000000#32 := by
  induction n with
  | zero => rfl
  | succ n ih => rw [List.replicate_succ, List.foldl_cons, crcStep_zero, ih]

theorem crc32Ogg_replicate_zero (n : Nat) : crc32Ogg (List.replicate n 0x00#8) = 0x00000000#32 :=
  foldl_crcStep_replicate_zero n

theorem crc32Ogg_replicate_zero_append (n : Nat) (m : List Byte) :
    crc32Ogg (List.replicate n 0x00#8 ++ m) = crc32Ogg m := by
  rw [crc32Ogg, List.foldl_append, foldl_crcStep_replicate_zero, crc32Ogg]

theorem crc32Ogg_one_byte_ne_zero (n k : Nat) {b : Byte} (hb : b ≠ 0x00#8) :
    crc32Ogg (List.replicate n 0x00#8 ++ b :: List.replicate k 0x00#8) ≠ 0x00000000#32 := by
  rw [← crc32Ogg_replicate_zero (k + 1), ← crc32Ogg_replicate_zero_append n (.replicate _ _),
    List.replicate_succ]
  exact mt (crc32Ogg_append_cons_inj _ _).1 hb

theorem crc32Ogg_set_ne {m : List Byte} {k : Nat} {v : Byte} (hk : k < m.length) (hv : v ≠ m[k]) :
    crc32Ogg (m.set k v) ≠ crc32Ogg m := by
  conv_rhs => rw [← List.set_getElem_self hk]
  rw [List.set_eq_take_append_cons_drop, List.set_eq_take_append_cons_drop, if_pos hk, if_pos hk]
  exact mt (crc32Ogg_append_cons_inj _ _).1 hv

end Sys2Proof.Machine

namespace Sys2Proof.Proofs

open Sys2Proof.Machine

/-- Settles O18: the low 24 bits of the accumulator and its top byte, by linearity. -/
theorem crcTableFormEquivalence : Obligations.CrcTableFormEquivalence :=
  ⟨crcStep_eq_crcStepByTable, crcTablePrinted_eq⟩

/-- Settles O20: a checksum is linear, and one-to-one in each byte of the message. -/
theorem crcDetectsOneByteErrors : Obligations.CrcDetectsOneByteErrors :=
  ⟨crcStep_xor, foldl_crcStep_xor 0x00000000#32 0x00000000#32,
    fun n k _ hb => crc32Ogg_one_byte_ne_zero n k hb, fun _ _ _ hk hv => crc32Ogg_set_ne hk hv⟩

/-- Settles O21: zero bytes leave the initial accumulator zero. -/
theorem crcLeadingZerosVanish : Obligations.CrcLeadingZerosVanish := fun n m =>
  ⟨crc32Ogg_replicate_zero_append n m, crc32Ogg_replicate_zero n⟩

end Sys2Proof.Proofs
end

section
/-! The checksum as polynomial division (R100): a bit vector is read as a polynomial over GF(2), and an
iteration of the engine multiplies it by `x` modulo the generator. -/

namespace Sys2Proof.Machine

open Polynomial

/-- A bit vector as a polynomial over GF(2), bit `i` the coefficient of `x^i` (R100). -/
noncomputable def bitPoly {w : Nat} (v : BitVec w) : (ZMod 2)[X] :=
  ∑ i : Fin w, if v.getLsbD i then X ^ i.val else 0

/-- The generator `G(x)` (R100). -/
noncomputable def crcGenerator : (ZMod 2)[X] :=
  X ^ 32 + X ^ 26 + X ^ 23 + X ^ 22 + X ^ 16 + X ^ 12 + X ^ 11 + X ^ 10 + X ^ 8 + X ^ 7 + X ^ 5 + X ^ 4
    + X ^ 2 + X + 1

/-- `M(x)`, the first byte first (R100). -/
noncomputable def messagePoly (m : List Byte) : (ZMod 2)[X] :=
  ∑ k : Fin m.length, bitPoly m[k] * X ^ (8 * (m.length - 1 - k.val))

/-! ### Bit vectors as polynomials -/

theorem bitPoly_xor {w : Nat} (u v : BitVec w) : bitPoly (u ^^^ v) = bitPoly u + bitPoly v := by
  rw [bitPoly, bitPoly, bitPoly, ← Finset.sum_add_distrib]
  refine Finset.sum_congr rfl fun i _ => ?_
  rw [BitVec.getLsbD_xor]
  cases u.getLsbD i <;> cases v.getLsbD i <;> simp [CharTwo.add_self_eq_zero]

/-- Multiplying by `x` shifts a bit vector; the bit that leaves at the top is kept in the product. -/
theorem X_mul_bitPoly {w : Nat} (v : BitVec (w + 1)) :
    X * bitPoly v = bitPoly (v <<< 1) + if v.getLsbD w then X ^ (w + 1) else 0 := by
  rw [bitPoly, bitPoly, Fin.sum_univ_castSucc, Fin.sum_univ_succ, mul_add, Finset.mul_sum]
  simp [pow_succ', mul_ite]

theorem bitPoly_crcPoly : bitPoly crcPoly + X ^ 32 = crcGenerator := by
  simp [bitPoly, crcPoly, crcGenerator, Fin.sum_univ_succ]
  ring

theorem bitPoly_zext32_shift (b : Byte) : bitPoly (zext32 b <<< 24) = bitPoly b * X ^ 24 := by
  have hlow : ∀ i : Fin 24, (zext32 b <<< 24).getLsbD i = false := fun i => by simp
  have hhigh : ∀ i : Fin 8, (zext32 b <<< 24).getLsbD (24 + i) = b.getLsbD i := fun i => by
    simp [zext32, show 24 + i.val < 32 by omega]
  rw [bitPoly, bitPoly, Finset.sum_mul]
  refine (Fin.sum_univ_add (a := 24) (b := 8) _).trans ?_
  simp [hlow, hhigh, pow_add, mul_comm]

/-- Modulo the generator, an iteration multiplies by `x` (R101). -/
theorem mk_bitPoly_crcBit (t : Word) :
    AdjoinRoot.mk crcGenerator (bitPoly (crcBit t)) = AdjoinRoot.mk crcGenerator (X * bitPoly t) := by
  rw [X_mul_bitPoly, crcBit]
  cases t.getLsbD 31 with
  | false => simp
  | true =>
    have hG : AdjoinRoot.mk crcGenerator (bitPoly crcPoly) = AdjoinRoot.mk crcGenerator (X ^ 32) := by
      rw [AdjoinRoot.mk_eq_mk, CharTwo.sub_eq_add, bitPoly_crcPoly]
    simp [bitPoly_xor, hG]

theorem mk_bitPoly_repeat_crcBit (n : Nat) (t : Word) :
    AdjoinRoot.mk crcGenerator (bitPoly (Nat.repeat crcBit n t)) =
      AdjoinRoot.mk crcGenerator (X ^ n * bitPoly t) := by
  induction n with
  | zero => simp [Nat.repeat]
  | succ n ih => rw [Nat.repeat, mk_bitPoly_crcBit, map_mul, ih, ← map_mul, pow_succ', mul_assoc]

/-- `crc_step(a, b)` is `a(x) · x^8 + b(x) · x^32` modulo the generator (R101). -/
theorem mk_bitPoly_crcStep (a : Word) (b : Byte) :
    AdjoinRoot.mk crcGenerator (bitPoly (crcStep a b)) =
      AdjoinRoot.mk crcGenerator (bitPoly a * X ^ 8 + bitPoly b * X ^ 32) := by
  rw [crcStep, mk_bitPoly_repeat_crcBit, bitPoly_xor, bitPoly_zext32_shift]
  ring_nf

theorem messagePoly_cons (b : Byte) (m : List Byte) :
    messagePoly (b :: m) = bitPoly b * X ^ (8 * m.length) + messagePoly m := by
  simp [messagePoly, Fin.sum_univ_succ, Nat.sub_sub, Nat.add_comm 1]

/-- A message absorbed into an accumulator: the accumulator's polynomial is moved up by the message's
length, and the message's by 32 (R100, R105). -/
theorem mk_bitPoly_foldl_crcStep (a : Word) (m : List Byte) :
    AdjoinRoot.mk crcGenerator (bitPoly (m.foldl crcStep a)) =
      AdjoinRoot.mk crcGenerator (bitPoly a * X ^ (8 * m.length) + messagePoly m * X ^ 32) := by
  induction m generalizing a with
  | nil => simp [messagePoly]
  | cons b m ih =>
    rw [List.foldl_cons, ih, map_add, map_mul, mk_bitPoly_crcStep, ← map_mul, ← map_add,
      messagePoly_cons, List.length_cons]
    ring_nf

/-- The message polynomial, bit by bit. -/
theorem messagePoly_eq_sum_bits (m : List Byte) :
    messagePoly m = ∑ k : Fin m.length, ∑ i : Fin 8,
      if (m[k] : Byte).getLsbD i then X ^ (i.val + 8 * (m.length - 1 - k.val)) else 0 := by
  simp only [messagePoly, bitPoly, Finset.sum_mul, ite_mul, zero_mul, pow_add]

/-- A checksum differs from `M(x) · x^32` by a multiple of the generator (R100). -/
theorem exists_messagePoly_eq (m : List Byte) :
    ∃ q, messagePoly m * X ^ 32 = q * crcGenerator + bitPoly (crc32Ogg m) := by
  have h : AdjoinRoot.mk crcGenerator (messagePoly m * X ^ 32) =
      AdjoinRoot.mk crcGenerator (bitPoly (crc32Ogg m)) := by
    rw [crc32Ogg, mk_bitPoly_foldl_crcStep]
    simp [bitPoly]
  obtain ⟨q, hq⟩ := AdjoinRoot.mk_eq_mk.1 h
  exact ⟨q, by rw [mul_comm q, ← hq, sub_add_cancel]⟩

end Sys2Proof.Machine

namespace Sys2Proof.Proofs

open Sys2Proof.Machine

/-- Settles O19: a byte step computes `a(x) · x^8 + b(x) · x^32` modulo the generator, by induction on
the message. -/
theorem crcIsPolynomialRemainder : Obligations.CrcIsPolynomialRemainder := by
  intro m
  rw [← messagePoly_eq_sum_bits]
  exact exists_messagePoly_eq m

end Sys2Proof.Proofs
end

section
/-! The direct commands of the CRC engine (R108, R109), a message through them (R111), and what they leave
to a page that follows (R110). -/

namespace Sys2Proof.Machine

/-! ### The two commands, in every phase -/

/-- CRC.CLR, in every phase (R108). -/
theorem exec_crcClr_eq (s : State) : exec .crcClr s =
    if s.phase = .idle then .next (s.setAcc 0x00000000#32)
    else if s.phase = .err then .next s
    else .next s.raiseIllegal := by
  simp only [exec, execCrcClr]
  cases s.phase <;> rfl

/-- CRC.ABS, in every phase (R109). -/
theorem exec_crcAbs_eq (b : Byte) (s : State) : exec (.crcAbs b) s =
    if s.phase = .idle then .next (s.absorb b)
    else if s.phase = .err then .next s
    else .next s.raiseIllegal := by
  simp only [exec, execCrcAbs]
  cases s.phase <;> rfl

/-- `page_clear` leaves nothing of the registers it clears (R123). -/
theorem State.pageClear_congr {s u : State} (hp : s.phase = u.phase) (he : s.err = u.err)
    (hs : s.seg = u.seg) (hy : s.pay = u.pay) (hc : s.cfg = u.cfg) (hi : s.inputs = u.inputs) :
    s.pageClear = u.pageClear := by
  simp only [pageClear, hp, he, hs, hy, hc, hi]

end Sys2Proof.Machine

namespace Sys2Proof.Safety

open Sys2Proof.Machine

/-- An operand on a command that takes none makes an illegal word (R73). -/
theorem actsAsIllegalWord_of_operand {op a : Byte}
    (hop : [0x00#8, 0x01#8, 0x02#8, 0x10#8, 0x21#8].contains op = true) (ha : a ≠ 0x00#8) :
    ActsAsIllegalWord (op ++ a) := by
  have hwf : ¬ FormatC.wf ⟨op, a⟩ = true := fun h =>
    ha (arg_eq_zero_of_operandAllowed (Bool.and_eq_true_iff.1 h).2 hop)
  refine (Proofs.illegalWordsRaiseIllegalCmd _).2 ?_
  rw [formatOf_append, Bool.eq_false_iff]
  exact hwf

/-! ### A command stream, one command at a time -/

/-- The first command of a stream runs, and the rest of the stream from the state it leaves. What the
host has yet to present is at hand only while the first command runs, so this is one that does the same
whatever is presented after it. -/
theorem runCommands_cons {i : Instr} {is : List Instr} {s t v : State}
    (h : ∀ rest, exec i { s with inputs := rest } = .next { t with inputs := rest })
    (hi : t.inputs = s.inputs) (hr : runCommands is t = .next v) :
    runCommands (i :: is) s = .next v := by
  refine (run_succ Sys2Proof.core).2 ⟨{ t with inputs := asCommands is ++ t.inputs }, ?_, hr⟩
  calc step { s with inputs := .command (encode i) :: (asCommands is ++ s.inputs) }
      = exec i { s with inputs := asCommands is ++ s.inputs } :=
        (step_command rfl).trans (runWord_of_ok (decode_encode i) _)
    _ = .next { t with inputs := asCommands is ++ t.inputs } := by rw [h, hi]

/-- CRC.ABS for each byte of a message, from IDLE, absorbs the message (R109, R105). -/
theorem runCommands_crcAbs {s : State} (m : List Byte) (hp : s.phase = .idle) :
    runCommands (m.map .crcAbs) s = .next { s with acc := m.foldl crcStep s.acc } := by
  induction m generalizing s with
  | nil => rfl
  | cons b m ih =>
    refine runCommands_cons (t := s.absorb b) (fun rest => ?_) rfl (ih hp)
    rw [exec_crcAbs_eq, if_pos hp]
    rfl

/-- The pseudo-instruction CRC.MSG, from IDLE (R86, R111). -/
theorem runCommands_asmCrcMsg {s : State} (m : List Byte) (hp : s.phase = .idle) :
    runCommands (asmCrcMsg m) s = .next { s with acc := crc32Ogg m } := by
  refine runCommands_cons (t := s.setAcc 0x00000000#32) (fun rest => ?_) rfl (runCommands_crcAbs m hp)
  rw [exec_crcClr_eq, if_pos hp]
  rfl

end Sys2Proof.Safety

namespace Sys2Proof.Proofs

open Sys2Proof.Machine Sys2Proof.Safety

/-- Settles O22: CRC.CLR starts the fold of the byte step over the message, and CRC_ACC shows `acc`. -/
theorem crcMessageThroughTheCommands : Obligations.CrcMessageThroughTheCommands :=
  fun _ m hp => ⟨runCommands_asmCrcMsg m hp, rfl⟩

/-- Settles O16, by phase. -/
theorem crcClrClearsAccumulator : Obligations.CrcClrClearsAccumulator :=
  ⟨decode_encode .crcClr, fun _ => actsAsIllegalWord_of_operand rfl, exec_crcClr_eq⟩

/-- Settles O17, by phase. -/
theorem crcAbsAbsorbsOneByte : Obligations.CrcAbsAbsorbsOneByte :=
  fun b s => ⟨decode_encode (.crcAbs b), exec_crcAbs_eq b s⟩

/-- Settles O40: the first byte of a page is captured in a cleared state, the same for both. -/
theorem firstByteForgetsTheRegisters : Obligations.FirstByteForgetsTheRegisters := by
  intro b s u hs hu he hseg hpay hcfg hin
  rw [exec_byte_idle b hs, exec_byte_idle b hu,
    State.pageClear_congr (hs.trans hu.symm) he hseg hpay hcfg hin]

end Sys2Proof.Proofs
end

section
/-! BYTE and EOS, phase by phase, as the next state written out (R122 to R135). -/

namespace Sys2Proof.Machine

/-- EOS, in every phase (R135). -/
theorem exec_eos_eq (s : State) : exec .eos s =
    if s.phase = .idle then .next (s.setPhase .ended)
    else if s.phase = .err then .next s
    else if s.phase = .done ∨ s.phase = .ended then .next s.raiseIllegal
    else .next (s.raise .shortRead) := by
  simp only [exec, execEos]
  cases s.phase <;> rfl

theorem exec_byte_after_page {s : State} (b : Byte) (h : s.phase = .done ∨ s.phase = .ended) :
    exec (.byte b) s = .next s.raiseIllegal := by
  rcases h with h | h <;> simp only [exec, execByte, h]

theorem exec_byte_err_phase {s : State} (b : Byte) (h : s.phase = .err) :
    exec (.byte b) s = .next s := by
  simp only [exec, execByte, h]

/-! ### What `page_end` answers (R131) -/

theorem pageEnd_of_checksum {s : State} (h : s.acc ≠ s.crcStored) :
    s.pageEnd = s.raise .crcMismatch := if_pos h

theorem pageEnd_of_unsupported {s : State} (ha : s.acc = s.crcStored)
    (h : s.fCont = true ∨ 1 < s.npkt) : s.pageEnd = s.raise .unsupportedPage :=
  (if_neg (not_not.2 ha)).trans (if_pos h)

/-! ### The captures, written out -/

/-- Up to the end of the checksum field the one bound decides what is absorbed (R125). -/
theorem headerAbsorbed_of_le {i : Nat} (b : Byte) (hi : i ≤ 25) :
    headerAbsorbed i b = if 22 ≤ i then 0x00#8 else b :=
  if_congr (and_iff_left hi) rfl rfl

namespace State

theorem captureHdr_eq {s : State} (b : Byte) (hi : s.idx.toNat ≤ 25) : s.captureHdr b =
    { s with
      hdr := s.hdr.setIfInBounds s.idx.toNat b
      acc := crcStep s.acc (if 22 ≤ s.idx.toNat then 0x00#8 else b)
      idx := s.idx + 1#16 } := by
  rw [← headerAbsorbed_of_le b hi]
  rfl

theorem captureHdr_last_eq {s : State} (b : Byte) (hi : s.idx = 26#16) : s.captureHdr b =
    { s with
      hdr := s.hdr.setIfInBounds 26 b
      acc := crcStep s.acc b
      idx := 27#16 } := by
  simp only [captureHdr, putByte, absorb, advance, hi]
  rfl

theorem nseg_captureHdr_last {s : State} (b : Byte) (hi : s.idx = 26#16) :
    (s.captureHdr b).nseg = b := by
  simp [nseg, hdrAt, hi]

theorem captureSeg_eq (b : Byte) (s : State) : s.captureSeg b =
    { s with
      seg := Memory.write s.seg s.idx.toNat b
      acc := crcStep s.acc b
      payLen := s.payLen + zext16 b
      laceOpen := b == 255#8
      npktDone := if b = 255#8 then s.npktDone else s.npktDone + 1#8
      idx := s.idx + 1#16 } := by
  unfold captureSeg laceEntry
  split
  · subst_vars; rfl
  · rename_i h
    rw [beq_eq_false_iff_ne.2 h]
    rfl

end State

end Sys2Proof.Machine

namespace Sys2Proof.Proofs

open Sys2Proof.Machine Sys2Proof.Safety

/-- Settles O15, by phase. -/
theorem eosEndsTheStreamOrFaults : Obligations.EosEndsTheStreamOrFaults :=
  ⟨decode_encode .eos, fun _ => actsAsIllegalWord_of_operand rfl, exec_eos_eq⟩

/-- Settles O23: the byte is captured at index 0 of a cleared header. -/
theorem byteInIdleStartsPage : Obligations.ByteInIdleStartsPage :=
  fun b _ => ⟨decode_encode (.byte b), exec_byte_idle b⟩

/-- Settles O24: before byte 26 the capture reaches no boundary. -/
theorem byteInHeaderIsCaptured : Obligations.ByteInHeaderIsCaptured := by
  intro b s hp hi
  have hne : (s.captureHdr b).idx ≠ 27#16 := by
    rw [State.captureHdr_idx]
    bv_omega
  rw [exec_byte_hdr b hp (by omega), State.headerBoundary, if_neg hne, State.captureHdr_eq b hi]

/-- Settles O25: the capture of byte 26 reaches `header_end`, which reads the count from that byte. -/
theorem headerEndChecksInOrder : Obligations.HeaderEndChecksInOrder := by
  intro b s hp hi
  have hx := exec_byte_hdr b hp (by rw [hi]; decide)
  have hn := State.nseg_captureHdr_last b hi
  rw [State.captureHdr_last_eq b hi] at hx hn
  rw [State.headerBoundary, if_pos rfl, State.headerEnd, hn] at hx
  exact ⟨hn, hx⟩

/-- Settles O26: the capture of an entry is followed by the test for the table's end. -/
theorem byteInTableRunsLacing : Obligations.ByteInTableRunsLacing := by
  intro b s hp hi
  have hx := exec_byte_seg b hp hi
  rw [State.captureSeg_eq] at hx
  exact hx

/-- Settles O27: the capture of a payload byte is followed by the test for the payload's end. -/
theorem byteInPayloadIsCaptured : Obligations.ByteInPayloadIsCaptured :=
  fun b _ hp hi => exec_byte_pay b hp hi

/-- Settles O28, by phase. -/
theorem byteAfterThePageFaults : Obligations.ByteAfterThePageFaults :=
  fun b _ => ⟨exec_byte_after_page b, exec_byte_err_phase b⟩

/-- Settles O30: the tests of `page_end` in their order. -/
theorem pageEndChecksInOrder : Obligations.PageEndChecksInOrder :=
  fun _ => ⟨pageEnd_of_checksum, pageEnd_of_unsupported, pageEnd_accepts⟩

end Sys2Proof.Proofs
end

section
/-! Where a command leads: the transition table of the sequencer (R139), the ways into DONE (R131, R137) and
into END (R142), and the bounds that keep a counter from wrapping (R151). -/

namespace Sys2Proof.Machine

variable {s : State}

/-! ### The boundaries, with the ways of the end of the header among them -/

/-- What ends a step in HDR (R124, R126). -/
theorem headerBoundary_cases (s : State) :
    (s.idx ≠ 27#16 ∧ s.headerBoundary = s) ∨
    (s.idx = 27#16 ∧ s.headerBoundary = s.raise .invalidSignature) ∨
    (s.idx = 27#16 ∧ s.headerBoundary = s.raise .unsupportedVersion) ∨
    (s.idx = 27#16 ∧ s.nseg = 0x00#8 ∧ s.headerBoundary = (s.setIdx 0#16).pageEnd) ∨
    (s.idx = 27#16 ∧ s.headerBoundary = s.setSeq .seg 0#16) := by
  by_cases hi : s.idx = 27#16
  · rw [State.headerBoundary, if_pos hi]
    rcases headerEnd_cases s with ⟨-, h⟩ | ⟨-, -, -, h⟩ | ⟨-, -, h0, h⟩ | ⟨-, -, -, h⟩
    · exact .inr (.inl ⟨hi, h⟩)
    · exact .inr (.inr (.inl ⟨hi, h⟩))
    · exact .inr (.inr (.inr (.inl ⟨hi, h0, h⟩)))
    · exact .inr (.inr (.inr (.inr ⟨hi, h⟩)))
  · exact .inl ⟨hi, if_neg hi⟩

/-- What ends a step in PAY (R130). -/
theorem payloadBoundary_cases (s : State) :
    (s.idx ≠ s.payLen ∧ s.payloadBoundary = s) ∨
    (s.idx = s.payLen ∧ s.payloadBoundary = s.pageEnd) := by
  by_cases hi : s.idx = s.payLen
  · exact .inr ⟨hi, if_pos hi⟩
  · exact .inl ⟨hi, if_neg hi⟩

/-- In phase ERR only RESET has an effect (R163). -/
theorem exec_of_err (i : Instr) (hp : s.phase = .err) :
    exec i s = if i = .reset then .next s.resetRegisters else .next s := by
  cases i <;> simp only [exec, execNop, execReset, execNext, execCrcClr, execCrcAbs, execByte,
    execEos, hp] <;> rfl

end Sys2Proof.Machine

namespace Sys2Proof.Safety

open Sys2Proof.Machine

variable {s t : State}

/-! ### The transition table (R139) -/

/-- The next BYTE ends the part of the page exactly where its capture meets the boundary. -/
theorem atBoundary_hdr (b : Byte) (hp : s.phase = .hdr) :
    atBoundary s = ((s.captureHdr b).idx == 27#16) := by
  rw [atBoundary, hp, Bool.eq_iff_iff, beq_iff_eq, beq_iff_eq, State.captureHdr_idx]
  constructor <;> intro h <;> bv_omega

theorem atBoundary_seg (b : Byte) (hp : s.phase = .seg) :
    atBoundary s = ((s.captureSeg b).idx == zext16 (s.captureSeg b).nseg) := by
  rw [atBoundary, hp, State.captureSeg_idx, State.captureSeg_nseg]

theorem atBoundary_pay (b : Byte) (hp : s.phase = .pay) :
    atBoundary s = ((s.capturePay b).idx == (s.capturePay b).payLen) := by
  rw [atBoundary, hp]
  rfl

/-- The outcomes of `page_end`, as entries of the table. -/
theorem pageEnd_target (he : s.err = .none) :
    (s.pageEnd.phase, s.pageEnd.err) ∈ byteTargets .pay true := by
  rcases pageEnd_cases s with ⟨-, h⟩ | ⟨-, -, h⟩ | ⟨-, -, -, h⟩ <;> simp [byteTargets, h, he]

theorem headerBoundary_target (hp : s.phase = .hdr) (he : s.err = .none) :
    (s.headerBoundary.phase, s.headerBoundary.err) ∈ byteTargets .hdr (s.idx == 27#16) := by
  rcases headerBoundary_cases s with ⟨hi, h⟩ | ⟨hi, h⟩ | ⟨hi, h⟩ | ⟨hi, -, h⟩ | ⟨hi, h⟩ <;> rw [h]
  · simp [byteTargets, beq_eq_false_iff_ne.2 hi, hp, he]
  · simp [byteTargets, hi]
  · simp [byteTargets, hi]
  · have hm := pageEnd_target (s := s.setIdx 0#16) he
    rw [beq_iff_eq.2 hi]
    exact (show byteTargets .pay true ⊆ byteTargets .hdr true by decide) hm
  · simp [byteTargets, hi, he]

theorem tableBoundary_target (hp : s.phase = .seg) (he : s.err = .none) :
    (s.tableBoundary.phase, s.tableBoundary.err) ∈ byteTargets .seg (s.idx == zext16 s.nseg) := by
  rcases tableBoundary_cases s with ⟨hi, h⟩ | ⟨hi, -, h⟩ | ⟨hi, -, h⟩ <;> rw [h]
  · simp [byteTargets, beq_eq_false_iff_ne.2 hi, hp, he]
  · have hm := pageEnd_target (s := s.setIdx 0#16) he
    rw [beq_iff_eq.2 hi]
    exact List.mem_cons_of_mem _ hm
  · simp [byteTargets, hi, he]

theorem payloadBoundary_target (hp : s.phase = .pay) (he : s.err = .none) :
    (s.payloadBoundary.phase, s.payloadBoundary.err) ∈ byteTargets .pay (s.idx == s.payLen) := by
  rcases payloadBoundary_cases s with ⟨hi, h⟩ | ⟨hi, h⟩ <;> rw [h]
  · simp [byteTargets, beq_eq_false_iff_ne.2 hi, hp, he]
  · rw [beq_iff_eq.2 hi]
    exact pageEnd_target he

theorem execByte_target {b : Byte} (hp : s.phase ≠ .err) (he : s.err = .none)
    (hx : execByte b s = .next t) : (t.phase, t.err) ∈ byteTargets s.phase (atBoundary s) := by
  rcases execByte_next hx with ⟨hs, rfl⟩ | ⟨hs, -, rfl⟩ | ⟨hs, -, rfl⟩ | ⟨hs, -, rfl⟩ |
    ⟨hs | hs, rfl⟩ | ⟨hs, rfl⟩
  · simp [byteTargets, hs, he]
  · rw [hs, atBoundary_hdr b hs]
    exact headerBoundary_target hs he
  · rw [hs, atBoundary_seg b hs]
    exact tableBoundary_target (s := s.captureSeg b) (by simp [hs]) (by simp [State.captureSeg, he])
  · rw [hs, atBoundary_pay b hs]
    exact payloadBoundary_target hs he
  · simp [byteTargets, hs]
  · simp [byteTargets, hs]
  · exact absurd hs hp

/-- Every command outside ERR leads to an entry of the table. -/
theorem exec_target {i : Instr} (hp : s.phase ≠ .err) (he : s.err = .none)
    (hx : exec i s = .next t) : (t.phase, t.err) ∈ targets s.phase (atBoundary s) i := by
  cases i with
  | nop => cases hx; simp [targets, he]
  | reset => cases hx; simp [targets]
  | next =>
    rcases execNext_next hx with ⟨hs, rfl⟩ | ⟨hs, -, rfl⟩ | ⟨hs, -⟩
    · simp [targets, hs, he]
    · simp [targets, hs]
    · exact absurd hs hp
  | crcClr =>
    rcases execCrcClr_next hx with ⟨hs, rfl⟩ | ⟨hs, -, rfl⟩ | ⟨hs, -⟩
    · simp [targets, hs, he]
    · simp [targets, hs]
    · exact absurd hs hp
  | crcAbs b =>
    rcases execCrcAbs_next hx with ⟨hs, rfl⟩ | ⟨hs, -, rfl⟩ | ⟨hs, -⟩
    · simp [targets, hs, he]
    · simp [targets, hs]
    · exact absurd hs hp
  | byte b => exact execByte_target hp he hx
  | eos =>
    rcases execEos_next hx with ⟨hs, rfl⟩ | ⟨hs | hs | hs, rfl⟩ | ⟨hs | hs, rfl⟩ | ⟨hs, -⟩
    · simp [targets, hs, he]
    · simp [targets, hs]
    · simp [targets, hs]
    · simp [targets, hs]
    · simp [targets, hs]
    · simp [targets, hs]
    · exact absurd hs hp

/-! ### The remarks of the table -/

/-- One of the outcomes that only `page_end` has (R131). -/
def EndedPage (t : State) : Prop :=
  t.phase = .done ∨ t.err = .crcMismatch ∨ t.err = .unsupportedPage

/-- Only a BYTE leads to them from inside a page. -/
theorem byte_of_endedPage {i : Instr} (hs : InsidePage s) (he : s.err = .none)
    (hx : exec i s = .next t) (ht : EndedPage t) : ∃ b, i = .byte b := by
  have hsd : s.phase ≠ .done := by rcases hs with h | h | h <;> simp [h]
  have hsi : s.phase ≠ .idle := by rcases hs with h | h | h <;> simp [h]
  rcases wordEffect ((runWord_of_ok (decode_encode i) s).trans hx) with ⟨-, rfl⟩ | ⟨h, -⟩ |
    ⟨⟨b, h⟩, -, -⟩ | ⟨c, hc, -, rfl, -⟩ | ⟨h, -⟩ | ⟨h, -, -, -⟩ | rfl
  · simp [EndedPage] at ht
  · exact absurd h hsi
  · exact ⟨b, Except.ok.inj ((decode_encode i).symm.trans h)⟩
  · rcases hc with rfl | rfl <;> simp [EndedPage] at ht
  · exact absurd h hsd
  · exact absurd h hsi
  · simp [EndedPage, hsd, he] at ht

theorem headerBoundary_endedPage (hp : s.phase = .hdr) (he : s.err = .none)
    (ht : EndedPage s.headerBoundary) :
    s.nseg = 0x00#8 ∧ s.headerBoundary = (s.setIdx 0#16).pageEnd := by
  rcases headerBoundary_cases s with ⟨-, h⟩ | ⟨-, h⟩ | ⟨-, h⟩ | ⟨-, h0, h⟩ | ⟨-, h⟩
  · simp [EndedPage, h, hp, he] at ht
  · simp [EndedPage, h] at ht
  · simp [EndedPage, h] at ht
  · exact ⟨h0, h⟩
  · simp [EndedPage, h, he] at ht

theorem tableBoundary_endedPage (hp : s.phase = .seg) (he : s.err = .none)
    (ht : EndedPage s.tableBoundary) : s.payLen = 0#16 := by
  rcases tableBoundary_cases s with ⟨-, h⟩ | ⟨-, h0, -⟩ | ⟨-, -, h⟩
  · simp [EndedPage, h, hp, he] at ht
  · exact h0
  · simp [EndedPage, h, he] at ht

/-- From HDR the outcomes of `page_end` need an empty table, so its second test is the continued flag's. -/
theorem exec_hdr_endedPage {i : Instr} (h : BlockInv s) (hp : s.phase = .hdr)
    (hx : exec i s = .next t) (ht : EndedPage t) :
    t.nseg = 0x00#8 ∧ (t.err = .unsupportedPage → t.fCont = true) := by
  have he : s.err = .none := (h.clean (by simp [hp])).err
  have hi := (phaseInv_hdr hp).1 h.inPhase
  have hlt : s.idx.toNat < 27 := Nat.lt_succ_of_le hi.idx_le
  have hn : s.npkt = 0 := (laced_nil hi.laced).2
  obtain ⟨b, rfl⟩ := byte_of_endedPage (.inl hp) he hx ht
  rw [exec_byte_hdr b hp hlt] at hx
  cases hx
  obtain ⟨h0, hu⟩ := headerBoundary_endedPage (s := s.captureHdr b) hp he ht
  rcases pageEnd_cases ((s.captureHdr b).setIdx 0#16) with ⟨-, hy⟩ | ⟨-, hc, hy⟩ | ⟨-, -, -, hy⟩ <;>
    rw [hu, hy]
  · exact ⟨h0, nofun⟩
  · exact ⟨h0, fun _ => hc.resolve_right fun hm => absurd (hn ▸ hm : 1 < 0) (by decide)⟩
  · exact ⟨h0, fun e => nomatch he.symm.trans e⟩

/-- From SEG the outcomes of `page_end` need an empty payload. -/
theorem exec_seg_endedPage {i : Instr} (h : BlockInv s) (hp : s.phase = .seg)
    (hx : exec i s = .next t) (ht : EndedPage t) : t.payLen = 0#16 := by
  have he : s.err = .none := (h.clean (by simp [hp])).err
  have hlt : s.idx.toNat < 255 :=
    ((phaseInv_seg hp).1 h.inPhase).idx_lt.trans_le (Nat.le_of_lt_succ s.nseg.isLt)
  obtain ⟨b, rfl⟩ := byte_of_endedPage (.inr (.inl hp)) he hx ht
  rw [exec_byte_seg b hp hlt] at hx
  cases hx
  have h0 := tableBoundary_endedPage (by simp [hp]) (by simp [State.captureSeg, he]) ht
  obtain ⟨p, e, n, hk⟩ := tableBoundary_keeps (s.captureSeg b)
  rw [hk]
  exact h0

/-! ### Into DONE (R131, R137) -/

/-- The page has passed the checks of `page_end`. -/
structure PageChecked (t : State) : Prop where
  checksum : t.acc = t.crcStored
  notContinued : t.fCont = false
  onePacket : t.npkt ≤ 1

theorem pageChecked_of_pageEnd (h : s.pageEnd.phase = .done) : PageChecked s.pageEnd := by
  rcases pageEnd_cases s with ⟨-, hx⟩ | ⟨-, -, hx⟩ | ⟨ha, hc, hn, hx⟩ <;> rw [hx] at h ⊢
  · cases h
  · cases h
  · exact ⟨ha, hc, hn⟩

theorem pageChecked_of_headerBoundary (hs : s.phase ≠ .done) (h : s.headerBoundary.phase = .done) :
    PageChecked s.headerBoundary := by
  rcases headerBoundary_cases s with ⟨-, hx⟩ | ⟨-, hx⟩ | ⟨-, hx⟩ | ⟨-, -, hx⟩ | ⟨-, hx⟩ <;>
    rw [hx] at h ⊢
  · exact absurd h hs
  · cases h
  · cases h
  · exact pageChecked_of_pageEnd h
  · cases h

theorem pageChecked_of_tableBoundary (hs : s.phase ≠ .done) (h : s.tableBoundary.phase = .done) :
    PageChecked s.tableBoundary := by
  rcases tableBoundary_cases s with ⟨-, hx⟩ | ⟨-, -, hx⟩ | ⟨-, -, hx⟩ <;> rw [hx] at h ⊢
  · exact absurd h hs
  · exact pageChecked_of_pageEnd h
  · cases h

theorem pageChecked_of_payloadBoundary (hs : s.phase ≠ .done)
    (h : s.payloadBoundary.phase = .done) : PageChecked s.payloadBoundary := by
  rcases payloadBoundary_cases s with ⟨-, hx⟩ | ⟨-, hx⟩ <;> rw [hx] at h ⊢
  · exact absurd h hs
  · exact pageChecked_of_pageEnd h

theorem pageChecked_of_execByte {b : Byte} (hs : s.phase ≠ .done) (hx : execByte b s = .next t)
    (ht : t.phase = .done) : PageChecked t := by
  rcases execByte_next hx with ⟨-, rfl⟩ | ⟨-, -, rfl⟩ | ⟨-, -, rfl⟩ | ⟨-, -, rfl⟩ |
    ⟨-, rfl⟩ | ⟨-, rfl⟩
  · cases ht
  · exact pageChecked_of_headerBoundary hs ht
  · exact pageChecked_of_tableBoundary (by simpa using hs) ht
  · exact pageChecked_of_payloadBoundary hs ht
  · cases ht
  · exact absurd ht hs

/-- Only a BYTE leads to DONE. -/
theorem byte_of_runWord_done {w : Half} (hs : s.phase ≠ .done) (hx : runWord w s = .next t)
    (ht : t.phase = .done) : ∃ b, decode w = .ok (.byte b) := by
  rcases wordEffect hx with ⟨-, rfl⟩ | ⟨-, h⟩ | ⟨hw, -, -⟩ | ⟨c, -, -, rfl, -⟩ | ⟨-, rfl⟩ |
    ⟨-, h, -, -⟩ | rfl
  · cases ht
  · cases h.symm.trans ht
  · exact hw
  · cases ht
  · cases ht
  · rcases h with h | h <;> cases h.symm.trans ht
  · exact absurd ht hs

/-! ### Into END (R142) -/

theorem ByteLeadsTo.ne_ended (h : ByteLeadsTo s) : s.phase ≠ .ended := by
  rcases h with (h | h | h) | h | ⟨h, -⟩ <;> simp [h]

theorem execByte_ne_ended {b : Byte} (hs : s.phase ≠ .ended) (hx : execByte b s = .next t) :
    t.phase ≠ .ended := by
  rcases execByte_next hx with ⟨-, rfl⟩ | ⟨hp, -, rfl⟩ | ⟨hp, -, rfl⟩ | ⟨hp, -, rfl⟩ |
    ⟨-, rfl⟩ | ⟨-, rfl⟩
  · simp
  · exact (headerBoundary_leadsTo (s := s.captureHdr b) (.inl hp)).ne_ended
  · exact (tableBoundary_leadsTo (.inr (.inl (by simp [hp])))).ne_ended
  · exact (payloadBoundary_leadsTo (s := s.capturePay b) (.inr (.inr hp))).ne_ended
  · simp
  · exact hs

/-- Only EOS leads to END, and only from IDLE. -/
theorem eos_of_exec_ended {i : Instr} (hs : s.phase ≠ .ended) (hx : exec i s = .next t)
    (ht : t.phase = .ended) : i = .eos ∧ s.phase = .idle ∧ t = s.setPhase .ended := by
  cases i with
  | nop => cases hx; exact absurd ht hs
  | reset => cases hx; cases ht
  | next =>
    rcases execNext_next hx with ⟨-, rfl⟩ | ⟨-, -, rfl⟩ | ⟨-, rfl⟩
    · cases ht
    · cases ht
    · exact absurd ht hs
  | crcClr =>
    rcases execCrcClr_next hx with ⟨-, rfl⟩ | ⟨-, -, rfl⟩ | ⟨-, rfl⟩
    · exact absurd ht hs
    · cases ht
    · exact absurd ht hs
  | crcAbs b =>
    rcases execCrcAbs_next hx with ⟨-, rfl⟩ | ⟨-, -, rfl⟩ | ⟨-, rfl⟩
    · exact absurd ht hs
    · cases ht
    · exact absurd ht hs
  | byte b => exact absurd ht (execByte_ne_ended hs hx)
  | eos =>
    rcases execEos_next hx with ⟨hp, rfl⟩ | ⟨-, rfl⟩ | ⟨-, rfl⟩ | ⟨-, rfl⟩
    · exact ⟨rfl, hp, rfl⟩
    · cases ht
    · cases ht
    · exact absurd ht hs

/-! ### The counters in a table (R151) -/

/-- While table entries are still to come the counters are below their last values. -/
theorem inTable_counters (h : InTable s) :
    s.npktDone.toNat < 255 ∧ s.payLen.toNat ≤ 65025 := by
  obtain ⟨table, hr⟩ := h.tableRead
  have hlt : table.length < s.nseg.toNat := hr.idx ▸ h.idx_lt
  have hn := s.nseg.isLt
  have hc := (packetCount_le table).2
  refine ⟨?_, (laced_bounds hr.laced hlt.le).1⟩
  rw [hr.laced.npktDone]
  omega

end Sys2Proof.Safety

namespace Sys2Proof.Proofs

open Sys2Proof.Machine Sys2Proof.Safety

/-- Settles O35: the illegal words, the row of ERR, every other entry, and the remarks by the ways of
`header_end` and of the end of the table. -/
theorem sequencerFollowsTransitionTable : Obligations.SequencerFollowsTransitionTable := by
  refine ⟨fun w e hd s => ?_, fun i s t hp hx => ?_, fun i s t h hp hx => ⟨?_, ?_, ?_, ?_⟩⟩
  · rw [runWord_of_error hd, execIllegalWord_eq]
  · rw [exec_of_err i hp] at hx
    split at hx <;> cases hx
    · rw [if_pos ‹_›]; rfl
    · rw [if_neg ‹_›, hp]
  · exact exec_target hp (h.clean hp).err hx
  · exact fun hs ht => (exec_hdr_endedPage h hs hx ht).1
  · exact fun hs ht => exec_seg_endedPage h hs hx ht
  · exact fun hs he => (exec_hdr_endedPage h hs hx (.inr (.inr he))).2 he

/-- Settles O37: a BYTE that reaches DONE has come through `page_end`, and DONE satisfies its invariant. -/
theorem doneOnlyThroughTheChecks : Obligations.DoneOnlyThroughTheChecks := by
  intro s t hs hx ht
  have hh (h : BlockInv s) : HeaderAccepted t := ((phaseInv_done ht).1 (h.step hx).inPhase).header
  rcases step_next hx with ⟨-, rfl⟩ | ⟨rest, -, rfl⟩ | ⟨w, i, rest, hin, hd, hy⟩ |
    ⟨w, e, rest, hin, hd, hy⟩
  · exact absurd ht hs
  · cases ht
  · have hs' : (withInputs s rest).phase ≠ .done := hs
    obtain ⟨b, hb⟩ := byte_of_runWord_done hs' ((runWord_of_ok hd _).trans hy) ht
    obtain rfl : i = .byte b := Except.ok.inj (hd.symm.trans hb)
    have hc := pageChecked_of_execByte hs' hy ht
    exact ⟨⟨w, b, rest, hin, hd⟩, hc.checksum, hc.notContinued, hc.onePacket,
      fun h => ⟨(hh h).magic, (hh h).version⟩⟩
  · have hs' : (withInputs s rest).phase ≠ .done := hs
    obtain ⟨b, hb⟩ := byte_of_runWord_done hs' ((runWord_of_error hd _).trans hy) ht
    cases hd.symm.trans hb

/-- Settles O38: of all that a step can be only EOS in IDLE leads to END, and it has one spelling. -/
theorem endOnlyThroughEos : Obligations.EndOnlyThroughEos := by
  intro s t hs hx ht
  rcases step_next hx with ⟨-, rfl⟩ | ⟨rest, -, rfl⟩ | ⟨w, i, rest, hin, hd, hy⟩ |
    ⟨w, e, rest, -, -, hy⟩
  · exact absurd ht hs
  · cases ht
  · obtain ⟨rfl, hp, rfl⟩ := eos_of_exec_ended (s := withInputs s rest) hs hy ht
    obtain rfl : 0x2100#16 = w := decode_eq_ok_iff.1 hd
    refine ⟨hp, ⟨rest, hin⟩, ?_⟩
    rw [hin]
    rfl
  · rcases execIllegalWord_next hy with ⟨-, rfl⟩ | ⟨-, rfl⟩
    · cases ht
    · exact absurd ht hs

/-- Settles O45, by the bounds that the invariant gives in each phase. -/
theorem countersNeverWrap : Obligations.CountersNeverWrap := by
  intro s hs
  have h := blockInv_of_reachable hs
  have hi := h.inPhase
  have hidx := h.idxBound
  have hdone : s.npktDone.toNat ≤ s.npkt := Nat.le_add_right _ _
  refine ⟨fun hp => (((phaseInv_hdr hp).1 hi).idx_le).trans (by decide),
    fun hp => ((phaseInv_seg hp).1 hi).idx_lt.le, fun hp => ((phaseInv_pay hp).1 hi).idx_lt.le,
    h.payLenBound, hdone.trans h.npktBound, h.npktBound, Nat.le_of_lt_succ s.nseg.isLt,
    fun _ => toNat_succ _ (by omega), fun hp => ?_⟩
  obtain ⟨hn, hl⟩ := inTable_counters ((phaseInv_seg hp).1 hi)
  refine ⟨?_, fun b => ?_⟩
  · rw [BitVec.toNat_add, show (1#8).toNat = 1 from rfl]
    omega
  · have hb := b.isLt
    rw [BitVec.toNat_add, zext16_toNat]
    omega

end Sys2Proof.Proofs
end

section
/-! A whole page as a command stream: what it meets (R126, R131, R182), what an accepted one leaves in DONE
(R137, R143), and a stream that is cut inside a page (R135, R175). -/

namespace Sys2Proof.Safety

open Sys2Proof.Machine

/-! ### BYTE before another queue of inputs -/

section Inputs

variable (s : State) (rest : List HostInput)

theorem pageEnd_withInputs : (withInputs s rest).pageEnd = withInputs s.pageEnd rest := by
  simp only [State.pageEnd, apply_ite (withInputs · rest)]
  rfl

theorem headerEnd_withInputs : (withInputs s rest).headerEnd = withInputs s.headerEnd rest := by
  simp only [State.headerEnd, apply_ite (withInputs · rest), ← pageEnd_withInputs]
  rfl

theorem headerBoundary_withInputs :
    (withInputs s rest).headerBoundary = withInputs s.headerBoundary rest := by
  simp only [State.headerBoundary, apply_ite (withInputs · rest), ← headerEnd_withInputs]
  rfl

theorem tableBoundary_withInputs :
    (withInputs s rest).tableBoundary = withInputs s.tableBoundary rest := by
  simp only [State.tableBoundary, apply_ite (withInputs · rest), ← pageEnd_withInputs]
  rfl

theorem payloadBoundary_withInputs :
    (withInputs s rest).payloadBoundary = withInputs s.payloadBoundary rest := by
  simp only [State.payloadBoundary, apply_ite (withInputs · rest), ← pageEnd_withInputs]
  rfl

theorem captureSeg_withInputs (b : Byte) :
    (withInputs s rest).captureSeg b = withInputs (s.captureSeg b) rest := by
  simp only [State.captureSeg_eq]
  rfl

end Inputs

/-- BYTE does not look at what the host presents after it (R8). -/
theorem exec_byte_withInputs {b : Byte} {s t : State} (hx : exec (.byte b) s = .next t)
    (rest : List HostInput) : exec (.byte b) (withInputs s rest) = .next (withInputs t rest) := by
  rcases execByte_next hx with ⟨hp, rfl⟩ | ⟨hp, hi, rfl⟩ | ⟨hp, hi, rfl⟩ | ⟨hp, hi, rfl⟩ |
    ⟨hp, rfl⟩ | ⟨hp, ht⟩
  · exact exec_byte_idle (s := withInputs s rest) b hp
  · rw [← headerBoundary_withInputs]
    exact exec_byte_hdr (s := withInputs s rest) b hp hi
  · rw [exec_byte_seg (s := withInputs s rest) b hp hi, captureSeg_withInputs,
      tableBoundary_withInputs]
    rfl
  · rw [← payloadBoundary_withInputs]
    exact exec_byte_pay (s := withInputs s rest) b hp hi
  · exact exec_byte_after_page (s := withInputs s rest) b hp
  · rw [ht]
    exact exec_byte_err_phase (s := withInputs s rest) b hp

/-! ### Bytes as a command stream -/

theorem runCommands_byte_cons {b : Byte} {bs : List Byte} {s t v : State}
    (hx : exec (.byte b) s = .next t) (hr : runCommands (asmBytes bs) t = .next v) :
    runCommands (asmBytes (b :: bs)) s = .next v :=
  runCommands_cons (exec_byte_withInputs hx) (exec_keeps hx).1 hr

theorem runCommands_captures {front bs : List Byte} {s t v : State} (h : Captures front s t)
    (hr : runCommands (asmBytes bs) t = .next v) :
    runCommands (asmBytes (front ++ bs)) s = .next v := by
  induction front generalizing s with
  | nil => cases h; exact hr
  | cons b front ih =>
    obtain ⟨u, hu, -, hc⟩ := h
    exact runCommands_byte_cons hu (ih hc)

/-- The bytes after a fault are ignored (R133). -/
theorem runCommands_of_err {s : State} (bs : List Byte) (hp : s.phase = .err) :
    runCommands (asmBytes bs) s = .next s := by
  induction bs with
  | nil => rfl
  | cons b bs ih => exact runCommands_byte_cons (exec_byte_err_phase b hp) ih

theorem runCommands_endsPage {bs : List Byte} {s u : State} (h : EndsPage bs s u) :
    runCommands (asmBytes bs) s = .next u.pageEnd := by
  obtain ⟨front, last, v, rfl, hc, hx⟩ := h
  exact runCommands_captures hc (runCommands_byte_cons hx rfl)

/-! ### What a page meets (R126, R131) -/

/-- The end of a page writes neither the configuration nor the inputs, and the error code by a fault
alone. -/
theorem endsPage_pageEnd_keeps {bs : List Byte} {s u : State} (h : EndsPage bs s u) :
    u.pageEnd.cfg = s.cfg ∧ u.pageEnd.inputs = s.inputs ∧
      (u.pageEnd.phase ≠ .err → u.pageEnd.err = s.err) := by
  obtain ⟨front, last, v, -, hc, hx⟩ := h
  obtain ⟨hcfg, hin, herr⟩ := captures_keeps hc
  exact ⟨(exec_keeps hx).2.trans hcfg, (exec_keeps hx).1.trans hin,
    fun hp => (exec_byte_err hx hp).trans herr⟩

/-- A page that does not pass `header_end` leads to the fault it takes, and the rest of it is ignored. -/
theorem runCommands_headerFault {s : State} {p : PageFields} {crc : Word} {c : ErrCode}
    (hp : s.phase = .idle)
    (hf : ∀ u : State, u.hdr.toList = p.header crc → u.cfg = s.cfg → u.headerEnd = u.raise c) :
    ∃ u : State, runCommands (asmBytes (p.bytesWith crc)) s = .next (u.raise c) ∧
      u.cfg = s.cfg ∧ u.inputs = s.inputs := by
  obtain ⟨front, hfl, hh⟩ := header_eq_append p crc
  obtain ⟨v, hc, hvp, hvr⟩ := captures_header hp (List.ne_nil_of_length_pos (by omega)) hfl.le
  obtain ⟨hcfg, hin, -⟩ := captures_keeps hc
  have hr := hvr.captureHdr (by omega) (BitVec.ofNat 8 p.table.length)
  have hl : (front ++ [BitVec.ofNat 8 p.table.length]).length = 27 := by simp [hfl]
  have hx := exec_byte_hdr (BitVec.ofNat 8 p.table.length) hvp (by rw [hvr.idx]; omega)
  rw [State.headerBoundary, if_pos (hr.idx_eq_iff.2 hl),
    hf _ ((hr.hdr_toList hl).trans hh.symm) hcfg] at hx
  refine ⟨v.captureHdr (BitVec.ofNat 8 p.table.length), ?_, hcfg, hin⟩
  rw [PageFields.bytesWith, hh, List.append_assoc, List.append_assoc]
  exact runCommands_captures hc (runCommands_byte_cons hx (runCommands_of_err _ rfl))

/-- A page that has passed `header_end` meets in `page_end` the rest of its verdict. -/
theorem pageEnd_of_read {cfg : Config} {u : State} {p : PageFields} {crc : Word}
    (hm : p.magic = cfg.pMagic) (hv : cfg.pVersionCheck = true → p.version = 0x00#8)
    (hr : PayloadRead u p.table p.payload) (hh : u.hdr.toList = p.header crc)
    (he : u.pageEnd.phase ≠ .err → u.pageEnd.err = .none) :
    u.pageEnd.err = verdict cfg p crc ∧
      u.pageEnd.phase = if verdict cfg p crc = .none then .done else .err := by
  have hverdict : verdict cfg p crc =
      if u.acc ≠ u.crcStored then .crcMismatch
      else if u.fCont = true ∨ 1 < u.npkt then .unsupportedPage else .none := by
    rw [verdict, if_neg (not_not.2 hm), if_neg fun h => h.2 (hv h.1), hr.acc_eq_checksum hh,
      crcStored_of_header hh, State.fCont, flags_of_header hh, laced_npkt hr.laced]
    exact if_congr ne_comm rfl rfl
  rw [hverdict]
  rcases pageEnd_cases u with ⟨ha, hx⟩ | ⟨ha, hc, hx⟩ | ⟨ha, hc, hn, hx⟩ <;> rw [hx] at he ⊢
  · simp [ha]
  · simp [ha, hc]
  · have hu : u.err = .none := he (by simp)
    simp [ha, hc, not_lt.2 hn, hu]

theorem pageEnd_eq_of_done {u : State} (h : u.pageEnd.phase = .done) :
    u.pageEnd = u.setPhase .done := by
  rcases pageEnd_cases u with ⟨-, hx⟩ | ⟨-, -, hx⟩ | ⟨-, -, -, hx⟩
  · cases hx ▸ h
  · cases hx ▸ h
  · exact hx

/-- Every well-formed page, with any checksum in its field, meets its verdict. -/
theorem runCommands_page {s : State} {p : PageFields} (crc : Word) (hp : s.phase = .idle)
    (he : s.err = .none) (hwf : p.wf = true) :
    ∃ t, runCommands (asmBytes (p.bytesWith crc)) s = .next t ∧
      t.cfg = s.cfg ∧ t.inputs = s.inputs ∧ t.err = verdict s.cfg p crc ∧
      t.phase = (if verdict s.cfg p crc = .none then .done else .err) := by
  by_cases hm : p.magic = s.cfg.pMagic
  · by_cases hv : s.cfg.pVersionCheck = true ∧ p.version ≠ 0x00#8
    · have hverdict : verdict s.cfg p crc = .unsupportedVersion := by
        rw [verdict, if_neg (not_not.2 hm), if_pos hv]
      obtain ⟨u, hu, hcfg, hin⟩ := runCommands_headerFault (c := .unsupportedVersion) hp
        fun u hh hc => by
          rw [State.headerEnd, magic_of_header hh, version_of_header hh, hc,
            if_neg (not_not.2 hm), if_pos hv]
      exact ⟨_, hu, hcfg, hin, hverdict.symm, by rw [hverdict]; rfl⟩
    · have hv' : s.cfg.pVersionCheck = true → p.version = 0x00#8 := fun h =>
        not_not.1 fun h' => hv ⟨h, h'⟩
      obtain ⟨u, hu, hr, -, hh⟩ := page_endsPage crc hp hwf hm hv'
      obtain ⟨hcfg, hin, herr⟩ := endsPage_pageEnd_keeps hu
      exact ⟨_, runCommands_endsPage hu, hcfg, hin,
        pageEnd_of_read hm hv' hr hh fun h => (herr h).trans he⟩
  · have hverdict : verdict s.cfg p crc = .invalidSignature := by rw [verdict, if_pos hm]
    obtain ⟨u, hu, hcfg, hin⟩ := runCommands_headerFault (c := .invalidSignature) hp
      fun u hh hc => by rw [State.headerEnd, magic_of_header hh, hc, if_pos hm]
    exact ⟨_, hu, hcfg, hin, hverdict.symm, by rw [hverdict]; rfl⟩

/-! ### What DONE holds of a page (R27, R137) -/

section Views

variable {s : State} {p : PageFields} {crc : Word}

theorem granule_of_header (h : s.hdr.toList = p.header crc) : s.granule = p.granule := by
  unfold State.granule le
  rw [h]
  exact ofNat_leNat_leBytes 8 p.granule

theorem serial_of_header (h : s.hdr.toList = p.header crc) : s.serial = p.serial := by
  unfold State.serial le
  rw [h]
  exact ofNat_leNat_leBytes 4 p.serial

theorem seqno_of_header (h : s.hdr.toList = p.header crc) : s.seqno = p.seqno := by
  unfold State.seqno le
  rw [h]
  exact ofNat_leNat_leBytes 4 p.seqno

end Views

theorem header_length (p : PageFields) (crc : Word) : (p.header crc).length = 27 := rfl

theorem bytesWith_length (p : PageFields) (crc : Word) :
    (p.bytesWith crc).length = 27 + p.table.length + p.payload.length := by
  rw [PageFields.bytesWith, List.length_append, List.length_append, header_length]

/-! ### A stream cut inside a page (R135, R175) -/

theorem captures_of_append {as bs : List Byte} {s t : State} (h : Captures (as ++ bs) s t) :
    ∃ u, Captures as s u := by
  induction as generalizing s with
  | nil => exact ⟨s, rfl⟩
  | cons a as ih =>
    obtain ⟨v, hv, hi, hc⟩ := h
    obtain ⟨u, hu⟩ := ih hc
    exact ⟨u, v, hv, hi, hu⟩

theorem insidePage_of_captures {b : Byte} {bs : List Byte} {s t : State}
    (h : Captures (b :: bs) s t) : InsidePage t := by
  obtain ⟨u, -, hi, hc⟩ := h
  induction bs generalizing u with
  | nil => exact hc ▸ hi
  | cons b bs ih =>
    obtain ⟨v, -, hi, hc⟩ := hc
    exact ih v hi hc

/-- EOS inside a page is a short read (R175). -/
theorem hostStream_nil_of_insidePage {s : State} (h : InsidePage s) :
    hostStream [] s = .next ([], s.raise .shortRead) := by
  rcases h with h | h | h <;> simp only [hostStream, exec, execEos, h]

/-- The host reports the end of a stream inside a page, or, with no byte of it read, between pages. -/
theorem hostStream_of_captures {front : List Byte} {s t : State} (hp : s.phase = .idle)
    (h : Captures front s t) :
    hostStream front s = .next ([], if front = [] then s.setPhase .ended else t.raise .shortRead) := by
  cases front with
  | nil => exact hostStream_nil hp
  | cons b bs =>
    have hs := hostStream_captures [] h
    rw [List.append_nil] at hs
    rw [hs, if_neg (List.cons_ne_nil b bs)]
    exact hostStream_nil_of_insidePage (insidePage_of_captures h)

end Sys2Proof.Safety

namespace Sys2Proof.Proofs

open Sys2Proof.Machine Sys2Proof.Safety

/-- Settles O47: the header's checks, then those of `page_end`. -/
theorem pageMeetsItsVerdict : Obligations.PageMeetsItsVerdict :=
  fun _ _ crc hp he hwf => runCommands_page crc hp he hwf

/-- Settles O48: all that has been read of the page stays under `page_end`. -/
theorem acceptedPageIsHeldWhole : Obligations.AcceptedPageIsHeldWhole := by
  intro s p hp he hwf hv
  obtain ⟨hm, hver, -⟩ := verdict_eq_none.1 hv
  obtain ⟨u, hu, hr, hi, hh⟩ := page_endsPage p.checksum hp hwf hm hver
  have herr := (endsPage_pageEnd_keeps hu).2.2
  have hd : u.pageEnd = u.setPhase .done := pageEnd_eq_of_done <| by
    rw [(pageEnd_of_read hm hver hr hh fun h => (herr h).trans he).2, if_pos hv]
  have hx := runCommands_endsPage hu
  rw [hd] at hx
  have hc := hr.pageCaptured hi
  exact ⟨(bytesWith_length p p.checksum).trans (congrArg _ (wf_iff.1 hwf).2), u.setPhase .done, hx,
    rfl, (endsPage_keeps hu hd).2.trans he, magic_of_header hh, version_of_header hh,
    flags_of_header hh, granule_of_header hh, serial_of_header hh, seqno_of_header hh,
    crcStored_of_header hh, hr.acc_eq_checksum hh, hr.table_length.symm, hr.laced.payLen, hi,
    (laced_npkt hr.laced : u.npkt = _), hr.laced.laceOpen, hc.entries, hc.payload⟩

/-- Settles O50: the bytes of a proper front are all captured before the last byte of the page. -/
theorem truncatedPageIsShortRead : Obligations.TruncatedPageIsShortRead := by
  intro s p n hp he hwf hv hn
  obtain ⟨u, ⟨front, last, v, hb, hc, -⟩, -, -⟩ := acceptable_page_endsPage hp hwf hv
  rw [hb, List.length_append, List.length_singleton, Nat.lt_succ_iff] at hn
  rw [hb, List.take_append_of_le_length hn]
  rw [← List.take_append_drop n front] at hc
  obtain ⟨w, hw⟩ := captures_of_append hc
  refine ⟨_, hostStream_of_captures hp hw, fun h0 => ?_, fun h0 => ?_⟩
  · have hne : front.take n ≠ [] := List.ne_nil_of_length_pos (by rw [List.length_take]; omega)
    rw [if_neg hne]
    exact ⟨rfl, rfl⟩
  · rw [h0, List.take_zero, if_pos rfl]
    exact ⟨rfl, he⟩

end Sys2Proof.Proofs
end

section
/-! A page with one byte changed (R152): it is again a page of the wire format, whose fields differ from the
first page's exactly where the byte stands. -/

namespace Sys2Proof.Machine

/-! ### Little-endian fields as byte sequences (R55) -/

/-- Only the low `n` bytes of a number are written. -/
theorem leBytes_mod (n v : Nat) : leBytes n (v % 256 ^ n) = leBytes n v := by
  induction n generalizing v with
  | zero => rfl
  | succ n ih =>
    rw [leBytes, leBytes, Nat.pow_succ', Nat.mod_mul_right_div_self, ih]
    congr 1
    apply BitVec.eq_of_toNat_eq
    rw [BitVec.toNat_ofNat, BitVec.toNat_ofNat, Nat.mod_mul_right_mod]

theorem leBytes_leNat (bs : List Byte) : leBytes bs.length (leNat bs) = bs := by
  induction bs with
  | nil => rfl
  | cons b bs ih =>
    have hb := b.isLt
    have hlow : BitVec.ofNat 8 (b.toNat + 256 * leNat bs) = b :=
      BitVec.eq_of_toNat_eq (by rw [BitVec.toNat_ofNat]; omega)
    have hhigh : (b.toNat + 256 * leNat bs) / 256 = leNat bs := by omega
    rw [List.length_cons, leNat, leBytes, hlow, hhigh, ih]

/-- Every sequence of `n` bytes is a number of that many bytes. -/
theorem exists_leBytes {n : Nat} {bs : List Byte} (h : bs.length = n) :
    ∃ v : BitVec (8 * n), leBytes n v.toNat = bs := by
  refine ⟨BitVec.ofNat (8 * n) (leNat bs), ?_⟩
  rw [BitVec.toNat_ofNat, show 2 ^ (8 * n) = 256 ^ n by rw [pow_mul]; norm_num, leBytes_mod, ← h,
    leBytes_leNat]

theorem leBytes_inj {n : Nat} {v w : BitVec (8 * n)} :
    leBytes n v.toNat = leBytes n w.toNat ↔ v = w := by
  refine ⟨fun h => ?_, fun h => h ▸ rfl⟩
  rw [← ofNat_leNat_leBytes n v, h, ofNat_leNat_leBytes]

/-! ### The bytes of a page, field by field (R76) -/

theorem drop_eq_field_append (l : List Byte) (a n : Nat) :
    l.drop a = (l.drop a).take n ++ l.drop (a + n) := by
  rw [← List.drop_drop, List.take_append_drop]

/-- The bytes whose count byte and table agree are those of a page. -/
theorem exists_page_of_bytes {l table : List Byte} (hl : 27 ≤ l.length)
    (hn : l[26]? = some (BitVec.ofNat 8 table.length))
    (ht : (l.drop 27).take table.length = table) :
    ∃ (q : PageFields) (crc : Word), q.bytesWith crc = l ∧ q.table = table ∧
      q.payload = l.drop (27 + table.length) := by
  have field (a n : Nat) (h : a + n ≤ 27) : ((l.drop a).take n).length = n := by
    rw [List.length_take, List.length_drop]
    omega
  obtain ⟨magic, hmagic⟩ := exists_leBytes (field 0 4 (by decide))
  obtain ⟨granule, hgranule⟩ := exists_leBytes (field 6 8 (by decide))
  obtain ⟨serial, hserial⟩ := exists_leBytes (field 14 4 (by decide))
  obtain ⟨seqno, hseqno⟩ := exists_leBytes (field 18 4 (by decide))
  obtain ⟨crc, hcrc⟩ := exists_leBytes (field 22 4 (by decide))
  have hcount : l[26] = BitVec.ofNat 8 table.length := List.getElem_of_getElem? hn |>.2
  refine ⟨⟨magic, l[4], l[5], granule, serial, seqno, table, l.drop (27 + table.length)⟩, crc, ?_,
    rfl, rfl⟩
  simp only [PageFields.bytesWith, PageFields.header, hmagic, hgranule, hserial, hseqno, hcrc,
    List.append_assoc, List.cons_append, List.nil_append]
  symm
  calc l = (l.drop 0).take 4 ++ l.drop 4 := drop_eq_field_append l 0 4
    _ = _ := by
      conv_lhs => rw [List.drop_eq_getElem_cons (i := 4) (by omega),
        List.drop_eq_getElem_cons (i := 5) (by omega), drop_eq_field_append l 6 8,
        drop_eq_field_append l 14 4, drop_eq_field_append l 18 4, drop_eq_field_append l 22 4,
        List.drop_eq_getElem_cons (i := 26) (by omega), hcount,
        drop_eq_field_append l 27 table.length, ht]

theorem header_mapIdx_absorbed (p : PageFields) (crc : Word) :
    (p.header crc).mapIdx headerAbsorbed = p.header 0x00000000#32 := by
  simp [PageFields.header, leBytes, headerAbsorbed]

/-- After the header every byte is absorbed as it is. -/
theorem mapIdx_absorbed_after (l : List Byte) :
    l.mapIdx (fun i b => headerAbsorbed (i + 27) b) = l := by
  have hafter (i : Nat) (b : Byte) : headerAbsorbed (i + 27) b = b := if_neg (by omega)
  refine List.ext_getElem? fun i => ?_
  simp [hafter]

/-- The checksum of a page is that of its bytes, each as the accumulator absorbs it (R83, R125). -/
theorem checksum_eq_absorbed (p : PageFields) (crc : Word) :
    p.checksum = crc32Ogg ((p.bytesWith crc).mapIdx headerAbsorbed) := by
  rw [PageFields.bytesWith, List.append_assoc, List.mapIdx_append, header_mapIdx_absorbed,
    Safety.header_length, mapIdx_absorbed_after, ← List.append_assoc, PageFields.checksum]

/-! ### One byte changed -/

section Changed

variable {l : List Byte} {k : Nat} {v : Byte} (hk : k < l.length) (hv : v ≠ l[k])

include hv

/-- A field differs exactly where the changed byte is one of its own. -/
theorem field_set_eq_iff (a n : Nat) :
    ((l.set k v).drop a).take n = (l.drop a).take n ↔ ¬ (a ≤ k ∧ k < a + n) := by
  constructor
  · rintro h ⟨h1, h2⟩
    have hb := congrArg (·[k - a]?) h
    simp only [List.getElem?_take, List.getElem?_drop, Nat.add_sub_cancel' h1,
      if_pos (show k - a < n by omega), List.getElem?_set_self hk, List.getElem?_eq_getElem hk] at hb
    exact hv (Option.some.inj hb)
  · intro h
    refine List.ext_getElem? fun i => ?_
    rw [List.getElem?_take, List.getElem?_take]
    split
    · rw [List.getElem?_drop, List.getElem?_drop, List.getElem?_set_ne (by omega)]
    · rfl

end Changed

section ChangedPage

variable {p q : PageFields} {c d : Word} {k : Nat} {v : Byte} (hk : k < (p.bytesWith c).length)
  (hv : v ≠ (p.bytesWith c)[k]) (hq : q.bytesWith d = (p.bytesWith c).set k v)

include hv hq

theorem magic_eq_iff_of_set : q.magic = p.magic ↔ 4 ≤ k := by
  have h := field_set_eq_iff hk hv 0 4
  rw [← hq] at h
  exact (leBytes_inj (n := 4)).symm.trans (h.trans (by omega))

theorem version_eq_iff_of_set : q.version = p.version ↔ k ≠ 4 := by
  have h := field_set_eq_iff hk hv 4 1
  rw [← hq] at h
  exact List.singleton_inj.symm.trans (h.trans (by omega))

theorem crc_eq_iff_of_set : d = c ↔ ¬ (22 ≤ k ∧ k ≤ 25) := by
  have h := field_set_eq_iff hk hv 22 4
  rw [← hq] at h
  exact (leBytes_inj (n := 4)).symm.trans (h.trans (by omega))

/-- In the checksum field the accumulator absorbs zero whatever the byte is; elsewhere it tells the two
bytes apart (R107, R125). -/
theorem checksum_eq_iff_of_set : q.checksum = p.checksum ↔ 22 ≤ k ∧ k ≤ 25 := by
  have hk' : k < ((p.bytesWith c).mapIdx headerAbsorbed).length := by rwa [List.length_mapIdx]
  rw [checksum_eq_absorbed q d, checksum_eq_absorbed p c, hq, List.mapIdx_set]
  constructor
  · intro h
    by_contra hf
    refine crc32Ogg_set_ne hk' ?_ h
    rw [List.getElem_mapIdx, headerAbsorbed, headerAbsorbed, if_neg hf, if_neg hf]
    exact hv
  · intro hf
    have hz : headerAbsorbed k v = ((p.bytesWith c).mapIdx headerAbsorbed)[k] := by
      rw [List.getElem_mapIdx, headerAbsorbed, headerAbsorbed, if_pos hf, if_pos hf]
    rw [hz, List.set_getElem_self]

end ChangedPage

end Sys2Proof.Machine

namespace Sys2Proof.Safety

open Sys2Proof.Machine

/-- An acceptable page with one byte changed is not acceptable: the byte is in the magic, or in the version
under its parameter, or the checksum field and the checksum no longer agree (R152). -/
theorem verdict_of_set {cfg : Config} {p q : PageFields} {d : Word} {k : Nat} {v : Byte}
    (hp : verdict cfg p p.checksum = .none) (hk : k < p.bytes.length) (hv : v ≠ p.bytes[k])
    (hq : q.bytesWith d = p.bytes.set k v) :
    verdict cfg q d = if k < 4 then .invalidSignature
      else if k = 4 ∧ cfg.pVersionCheck = true then .unsupportedVersion
      else .crcMismatch := by
  obtain ⟨hm, hver, -⟩ := verdict_eq_none.1 hp
  have hcrc : d ≠ q.checksum := by
    intro h
    by_cases hf : 22 ≤ k ∧ k ≤ 25
    · exact (crc_eq_iff_of_set hk hv hq).1 (h.trans ((checksum_eq_iff_of_set hk hv hq).2 hf)) hf
    · exact hf ((checksum_eq_iff_of_set hk hv hq).1 (h.symm.trans ((crc_eq_iff_of_set hk hv hq).2 hf)))
  have hmagic : q.magic ≠ cfg.pMagic ↔ k < 4 := by
    rw [← hm, ne_eq, magic_eq_iff_of_set hk hv hq, not_le]
  have hversion : cfg.pVersionCheck = true ∧ q.version ≠ 0x00#8 ↔
      k = 4 ∧ cfg.pVersionCheck = true := by
    rw [and_comm]
    refine and_congr_left fun hc => ?_
    rw [← hver hc, ne_eq, version_eq_iff_of_set hk hv hq, not_not]
  rw [verdict, if_pos hcrc]
  exact if_congr hmagic rfl (if_congr hversion rfl rfl)

/-- Outside the count byte and the table a changed byte leaves a well-formed page. -/
theorem exists_page_of_set {p : PageFields} {k : Nat} {v : Byte} (hwf : p.wf = true)
    (hk : k < p.bytes.length) (hv : v ≠ p.bytes[k]) (h26 : k ≠ 26)
    (ht : ¬ (27 ≤ k ∧ k < 27 + p.table.length)) :
    ∃ (q : PageFields) (d : Word), q.bytesWith d = p.bytes.set k v ∧ q.wf = true := by
  obtain ⟨htl, hpl⟩ := wf_iff.1 hwf
  have hl : (p.bytes.set k v).length = 27 + p.table.length + p.payload.length := by
    rw [List.length_set, PageFields.bytes, bytesWith_length]
  have htable : (p.bytes.drop 27).take p.table.length = p.table := by
    rw [PageFields.bytes, PageFields.bytesWith, List.append_assoc]
    exact List.take_left
  obtain ⟨q, d, hq, hqt, hqp⟩ := exists_page_of_bytes (l := p.bytes.set k v) (table := p.table)
    (by omega) ((List.getElem?_set_ne h26).trans rfl) (((field_set_eq_iff hk hv _ _).2 ht).trans htable)
  refine ⟨q, d, hq, wf_iff.2 ⟨hqt ▸ htl, ?_⟩⟩
  rw [hqp, hqt, List.length_drop, hl, hpl]
  omega

end Sys2Proof.Safety

namespace Sys2Proof.Proofs

open Sys2Proof.Machine Sys2Proof.Safety

/-- Settles O51: the changed page is a page of its own, and meets the verdict of its fields. -/
theorem oneByteMutationIsNeverAccepted : Obligations.OneByteMutationIsNeverAccepted := by
  intro s p k v hk hp he hwf hverdict hv h26 ht
  obtain ⟨q, d, hq, hqwf⟩ := exists_page_of_set hwf hk hv h26 ht
  obtain ⟨t, hx, -, -, herr, hphase⟩ := runCommands_page d hp he hqwf
  have hfault := verdict_of_set hverdict hk hv hq
  have hne : verdict s.cfg q d ≠ .none := by
    rw [hfault]
    split_ifs <;> decide
  rw [if_neg hne] at hphase
  exact ⟨t, hq ▸ hx, hphase, herr.trans hfault⟩

end Sys2Proof.Proofs
end

section
/-! The control commands NOP, RESET and NEXT, phase by phase (R160 to R162), and the words that phase ERR
ignores (R163). -/

namespace Sys2Proof.Machine

/-- RESET, in every phase: nothing of the registers stays, the buffers do (R161, R200). -/
theorem exec_reset_eq (s : State) : exec .reset s =
    .next { State.reset with seg := s.seg, pay := s.pay, cfg := s.cfg, inputs := s.inputs } := rfl

/-- NEXT, in every phase (R162). -/
theorem exec_next_eq (s : State) : exec .next s =
    if s.phase = .done then .next (s.setPhase .idle)
    else if s.phase = .err then .next s
    else .next s.raiseIllegal := by
  simp only [exec, execNext]
  cases s.phase <;> rfl

/-- A word that does not decode is not RESET's. -/
theorem ne_reset_of_decode_error {w : Half} {e : DecodeError} (h : decode w = .error e) :
    w ≠ 0x0100#16 := by
  rintro rfl
  cases (decode_encode .reset).symm.trans h

/-- The word of RESET encodes no other command (R71). -/
theorem eq_reset_iff_encode {i : Instr} : i = .reset ↔ encode i = 0x0100#16 :=
  (encode_inj (j := .reset)).symm

end Sys2Proof.Machine

namespace Sys2Proof.Proofs

open Sys2Proof.Machine Sys2Proof.Safety

/-- Settles O8: an illegal word is not RESET's, and a command is RESET exactly if its word is. -/
theorem errPhaseIgnoresAllButReset : Obligations.ErrPhaseIgnoresAllButReset := by
  intro s w hp
  rcases hd : decode w with e | i
  · rw [runWord_of_error hd, execIllegalWord_eq, if_pos hp, if_neg (ne_reset_of_decode_error hd)]
  · rw [runWord_of_ok hd, exec_of_err i hp, ← decode_eq_ok_iff.1 hd]
    exact if_congr eq_reset_iff_encode rfl rfl

/-- Settles O11: RESET writes the reset value to every register, and an operand makes its word illegal. -/
theorem resetCommandGivesResetState : Obligations.ResetCommandGivesResetState :=
  ⟨decode_encode .reset, fun _ => actsAsIllegalWord_of_operand rfl, exec_reset_eq⟩

/-- Settles O13: NOP answers its state, and an operand makes its word illegal. -/
theorem nopChangesNothing : Obligations.NopChangesNothing :=
  ⟨decode_encode .nop, fun _ => actsAsIllegalWord_of_operand rfl, fun _ => rfl⟩

/-- Settles O14, by phase. -/
theorem nextReleasesThePage : Obligations.NextReleasesThePage :=
  ⟨decode_encode .next, fun _ => actsAsIllegalWord_of_operand rfl, exec_next_eq⟩

end Sys2Proof.Proofs
end

section
/-! Which command the block obeys in which phase (R177), that in a state of the invariant it always
answers (R211), and what a fault leaves as it was (R180). -/

namespace Sys2Proof.Safety

open Sys2Proof.Machine

variable {s t : State} {i : Instr}

/-! ### Every command completes (R211) -/

/-- Under the invariant a BYTE stores only where its space has a byte (R60). -/
theorem storeTarget_lt {sp : Space} {n : Nat} (h : BlockInv s) (ht : storeTarget s = some (sp, n)) :
    n < sp.size := by
  unfold storeTarget at ht
  split at ht <;> rename_i hp <;> cases ht
  · decide
  · exact Nat.lt_succ_of_le ((phaseInv_hdr hp).1 h.inPhase).idx_le
  · exact ((phaseInv_seg hp).1 h.inPhase).idx_lt.trans_le (Nat.le_of_lt_succ s.nseg.isLt)
  · exact ((phaseInv_pay hp).1 h.inPhase).idx_lt.trans_le h.payLenBound

/-- Under the invariant every command answers a next state: only BYTE can stop, and only outside its
space. -/
theorem exec_completes (h : BlockInv s) (i : Instr) : ∃ t, exec i s = .next t := by
  cases i with
  | nop | reset => exact ⟨_, rfl⟩
  | next => rw [exec_next_eq]; split_ifs <;> exact ⟨_, rfl⟩
  | crcClr => rw [exec_crcClr_eq]; split_ifs <;> exact ⟨_, rfl⟩
  | crcAbs b => rw [exec_crcAbs_eq]; split_ifs <;> exact ⟨_, rfl⟩
  | eos => rw [exec_eos_eq]; split_ifs <;> exact ⟨_, rfl⟩
  | byte b =>
    cases hx : exec (.byte b) s with
    | next t => exact ⟨t, rfl⟩
    | fault f =>
      obtain ⟨sp, n, ht, hn, -⟩ := exec_byte_fault.1 hx
      exact absurd (storeTarget_lt h ht) hn.not_gt
    | refused r => exact absurd hx (exec_byte_ne_refused b s r)

/-! ### Commands that the phase does not allow -/

/-- BYTE, like EOS, is allowed between pages and inside one (R177). -/
theorem permitted_byte_iff {b : Byte} :
    permitted s.phase (.byte b) = true ↔ s.phase = .idle ∨ InsidePage s := by
  simp [permitted, InsidePage, or_assoc]

theorem permitted_eos_iff : permitted s.phase .eos = true ↔ s.phase = .idle ∨ InsidePage s :=
  permitted_byte_iff (b := 0x00#8)

/-- Outside ERR that leaves DONE and END. -/
theorem done_or_ended_of_not_permitted (hp : s.phase ≠ .err)
    (hf : permitted s.phase .eos = false) : s.phase = .done ∨ s.phase = .ended := by
  cases h : s.phase <;> simp_all [permitted]

theorem exec_of_not_permitted (hp : s.phase ≠ .err) (hf : permitted s.phase i = false) :
    exec i s = .next s.raiseIllegal := by
  cases i with
  | nop | reset => cases hf
  | next => rw [exec_next_eq, if_neg (beq_eq_false_iff_ne.1 hf), if_neg hp]
  | crcClr => rw [exec_crcClr_eq, if_neg (beq_eq_false_iff_ne.1 hf), if_neg hp]
  | crcAbs b => rw [exec_crcAbs_eq, if_neg (beq_eq_false_iff_ne.1 hf), if_neg hp]
  | byte b => exact exec_byte_after_page b (done_or_ended_of_not_permitted hp hf)
  | eos =>
    have hd := done_or_ended_of_not_permitted hp hf
    have hi : s.phase ≠ .idle := by rcases hd with h | h <;> simp [h]
    rw [exec_eos_eq, if_neg hi, if_neg hp, if_pos hd]

/-! ### Commands that it allows -/

/-- A byte captured inside a page takes no fault but those of the header's and the page's end. -/
theorem ByteLeadsTo.ofPage (h : ByteLeadsTo t) (ht : t.phase = .err) : OfPage t.err := by
  rcases h with h | h | ⟨-, h⟩
  · exact absurd ht (insidePage_ne_err h)
  · cases h.symm.trans ht
  · exact h

/-- A BYTE that the phase allows keeps the code, or records a fault of the page's. -/
theorem exec_byte_permitted_err {b : Byte} (ha : s.phase = .idle ∨ InsidePage s)
    (hx : exec (.byte b) s = .next t) : t.err = s.err ∨ OfPage t.err := by
  by_cases ht : t.phase = .err
  · rcases wordEffect_fault ((runWord_of_ok (decode_encode (.byte b)) s).trans hx)
      (ha.elim (fun hi => by simp [hi]) insidePage_ne_err) ht with ⟨-, -, h⟩ | ⟨c, -, rfl, hc⟩
    · exact .inr h
    · rcases ha with hi | hi
      · rw [exec_byte_idle b hi] at hx
        cases hx
      · exact absurd (decode_encode (.byte b)) (hc hi b)
  · exact .inl (exec_byte_err hx ht)

/-- ILLEGAL_CMD after a command that the phase allows was there before it. -/
theorem illegalCmd_of_permitted (ha : permitted s.phase i = true) (hx : exec i s = .next t)
    (he : t.err = .illegalCmd) : s.err = .illegalCmd := by
  cases i with
  | nop => cases hx; exact he
  | reset => cases hx; cases he
  | next => rw [exec_next_eq, if_pos (beq_iff_eq.1 ha)] at hx; cases hx; exact he
  | crcClr => rw [exec_crcClr_eq, if_pos (beq_iff_eq.1 ha)] at hx; cases hx; exact he
  | crcAbs b => rw [exec_crcAbs_eq, if_pos (beq_iff_eq.1 ha)] at hx; cases hx; exact he
  | byte b =>
    rcases exec_byte_permitted_err (permitted_byte_iff.1 ha) hx with h | h
    · exact h.symm.trans he
    · simp [OfPage, he] at h
  | eos =>
    rcases execEos_next hx with ⟨-, rfl⟩ | ⟨-, rfl⟩ | ⟨h | h, -⟩ | ⟨h, -⟩
    · exact he
    · cases he
    all_goals simp [permitted, h] at ha

/-- EOS, where it is allowed: the end of the stream, or a short read inside a page (R135, R175). -/
theorem exec_eos_permitted (h : BlockInv s) (ha : permitted s.phase .eos = true)
    (hx : exec .eos s = .next t) : (t.phase, t.err) =
      if s.phase = .idle then (Phase.ended, ErrCode.none) else (Phase.err, ErrCode.shortRead) := by
  have hp : s.phase ≠ .err := fun e => by simp [permitted, e] at ha
  have hm := exec_target hp (h.clean hp).err hx
  rcases permitted_eos_iff.1 ha with hs | hs | hs | hs <;> simpa [targets, hs] using hm

end Sys2Proof.Safety

namespace Sys2Proof.Proofs

open Sys2Proof.Machine Sys2Proof.Safety

/-- Settles O9: of all that a step can be only the reset pulse and the word of RESET act on phase ERR. -/
theorem errPhaseIsLeftOnlyByReset : Obligations.ErrPhaseIsLeftOnlyByReset := by
  intro s t hp hx
  rcases step_next hx with ⟨hin, rfl⟩ | ⟨rest, hin, rfl⟩ | ⟨w, i, rest, hin, hd, hy⟩ |
    ⟨w, e, rest, hin, -, hy⟩
  · refine .inl ?_
    rw [hin, List.tail_nil, ← hin]
  · exact .inr ⟨.inr (by rw [hin]; rfl), rfl, rfl⟩
  · have hy := (exec_of_err (s := withInputs s rest) i hp).symm.trans hy
    split at hy <;> rename_i hi <;> cases hy
    · obtain rfl := eq_of_decode_reset (hi ▸ hd)
      exact .inr ⟨.inl (by rw [hin]; rfl), rfl, rfl⟩
    · exact .inl (by rw [hin]; rfl)
  · rw [execIllegalWord_eq, if_pos hp] at hy
    cases hy
    exact .inl (by rw [hin]; rfl)

/-- Settles O34: a forbidden command raises ILLEGAL_CMD, an allowed one never does, and under the invariant
it completes. -/
theorem forbiddenCommandsFault : Obligations.ForbiddenCommandsFault := by
  refine fun i s => ⟨exec_of_not_permitted, fun _ ha t hx => ?_, fun h hp ha => ?_, exec_of_err i⟩
  · exact not_or_of_imp (illegalCmd_of_permitted ha hx)
  · obtain ⟨t, hx⟩ := exec_completes h i
    refine ⟨t, hx, fun he => ?_, fun hi => ?_⟩
    · cases (h.clean hp).err.symm.trans (illegalCmd_of_permitted ha hx he)
    · subst hi
      exact exec_eos_permitted h ha hx

/-- Settles O36: a fault is a page's, which only a BYTE inside it takes, or keeps everything else. -/
theorem faultEntryKeepsTheRest : Obligations.FaultEntryKeepsTheRest := by
  intro i s t hb hp hx ht
  rcases wordEffect_fault ((runWord_of_ok (decode_encode i) s).trans hx) hp ht with
    ⟨⟨b, hd⟩, hs, -⟩ | ⟨c, hc, rfl, -⟩
  · have hd := hb b (Except.ok.inj ((decode_encode i).symm.trans hd))
    rcases hd with h | h <;> simp [InsidePage, h] at hs
  · exact ⟨rfl, hc⟩

end Sys2Proof.Proofs
end

section
/-! A step with nothing presented (R212), the reset pulse (R200), and that no step is ever stuck (R211). -/

namespace Sys2Proof.Machine

/-! ### A step that runs no command -/

theorem step_waits {s : State} (h : s.inputs = []) : step s = .next s := by
  unfold step runNextInput
  rw [takeInput_nil h]

/-- The reset pulse keeps of a state only the configuration and what the host presents after it (R203). -/
theorem step_hardwareReset {s : State} {rest : List HostInput}
    (h : s.inputs = .hardwareReset :: rest) :
    step s = .next { State.reset with cfg := s.cfg, inputs := rest } := by
  unfold step runNextInput
  rw [takeInput_cons h]
  rfl

end Sys2Proof.Machine

namespace Sys2Proof.Safety

open Sys2Proof.Machine

/-- Under the invariant every one of the 65536 words has an outcome (R211). -/
theorem runWord_completes {s : State} (h : BlockInv s) (w : Half) : ∃ t, runWord w s = .next t := by
  rcases hd : decode w with e | i
  · rw [runWord_of_error hd, execIllegalWord_eq]
    split_ifs <;> exact ⟨_, rfl⟩
  · rw [runWord_of_ok hd]
    exact exec_completes h i

end Sys2Proof.Safety

namespace Sys2Proof.Proofs

open Sys2Proof.Machine Sys2Proof.Safety

/-- Settles O6: there is no input to take. -/
theorem stepWaitsForTheHost : Obligations.StepWaitsForTheHost := fun _ => step_waits

/-- Settles O12: the pulse writes every register and empties both buffers. -/
theorem hardwareResetGivesResetState : Obligations.HardwareResetGivesResetState :=
  fun _ _ => step_hardwareReset

/-- Settles O43, by what the host presents: nothing, a word, or the reset pulse. -/
theorem stepAlwaysCompletes : Obligations.StepAlwaysCompletes := by
  intro s h
  rcases hi : s.inputs with _ | ⟨w | _, rest⟩
  · exact ⟨s, step_waits hi⟩
  · rw [step_command hi]
    exact runWord_completes (h.withInputs rest) w
  · exact ⟨_, step_hardwareReset hi⟩

end Sys2Proof.Proofs
end

section
/-! The bytes in the buffers decide nothing (R202): a step of the same block over other buffers leads to the
same block over other buffers. -/

namespace Sys2Proof.Safety

open Sys2Proof.Machine

/-- The same block with other bytes in the segment and the payload buffer (R202). -/
def withBuffers (s : State) (m m' : Memory) : State := { s with seg := m, pay := m' }

variable (s : State) (m m' : Memory)

/-! ### The parts of a BYTE: no boundary reads a buffer (R124, R127, R130, R131) -/

theorem pageEnd_withBuffers : (withBuffers s m m').pageEnd = withBuffers s.pageEnd m m' := by
  simp only [State.pageEnd, apply_ite (withBuffers · m m')]
  rfl

theorem headerBoundary_withBuffers :
    (withBuffers s m m').headerBoundary = withBuffers s.headerBoundary m m' := by
  simp only [State.headerBoundary, State.headerEnd, apply_ite (withBuffers · m m'),
    ← pageEnd_withBuffers]
  rfl

theorem tableBoundary_withBuffers :
    (withBuffers s m m').tableBoundary = withBuffers s.tableBoundary m m' := by
  simp only [State.tableBoundary, apply_ite (withBuffers · m m'), ← pageEnd_withBuffers]
  rfl

theorem payloadBoundary_withBuffers :
    (withBuffers s m m').payloadBoundary = withBuffers s.payloadBoundary m m' := by
  simp only [State.payloadBoundary, apply_ite (withBuffers · m m'), ← pageEnd_withBuffers]
  rfl

/-- A table entry is stored at index `idx`, and the lacing machine reads that entry alone (R127). -/
theorem captureSeg_withBuffers (b : Byte) : (withBuffers s m m').captureSeg b =
    withBuffers (s.captureSeg b) (Memory.write m s.idx.toNat b) m' := by
  simp only [State.captureSeg_eq]
  rfl

/-! ### The commands over other buffers -/

variable {s} {t : State}

/-- BYTE goes by the registers, and stores its byte into the other buffer where it stores it (R57). -/
theorem exec_byte_withBuffers {b : Byte} (hx : exec (.byte b) s = .next t) :
    ∃ n n', exec (.byte b) (withBuffers s m m') = .next (withBuffers t n n') := by
  rcases execByte_next hx with ⟨hp, rfl⟩ | ⟨hp, hi, rfl⟩ | ⟨hp, hi, rfl⟩ | ⟨hp, hi, rfl⟩ |
    ⟨hp, rfl⟩ | ⟨hp, rfl⟩
  · exact ⟨m, m', exec_byte_idle (s := withBuffers s m m') b hp⟩
  · refine ⟨m, m', ?_⟩
    rw [← headerBoundary_withBuffers]
    exact exec_byte_hdr (s := withBuffers s m m') b hp hi
  · refine ⟨Memory.write m s.idx.toNat b, m', ?_⟩
    rw [exec_byte_seg (s := withBuffers s m m') b hp hi, captureSeg_withBuffers,
      tableBoundary_withBuffers]
    rfl
  · refine ⟨m, Memory.write m' s.idx.toNat b, ?_⟩
    rw [← payloadBoundary_withBuffers]
    exact exec_byte_pay (s := withBuffers s m m') b hp hi
  · exact ⟨m, m', exec_byte_after_page (s := withBuffers s m m') b hp⟩
  · exact ⟨m, m', exec_byte_err_phase (s := withBuffers _ m m') b hp⟩

/-- A command other than BYTE takes its way by the phase alone and keeps both buffers (R202). -/
theorem exec_withBuffers {i : Instr} (hx : exec i s = .next t) :
    ∃ n n', exec i (withBuffers s m m') = .next (withBuffers t n n') := by
  cases i with
  | byte b => exact exec_byte_withBuffers m m' hx
  | nop | reset => cases hx; exact ⟨m, m', rfl⟩
  | next | crcClr | crcAbs _ | eos =>
    obtain ⟨phase⟩ := s
    cases phase <;> cases hx <;> exact ⟨m, m', rfl⟩

theorem execIllegalWord_withBuffers (hx : execIllegalWord s = .next t) :
    execIllegalWord (withBuffers s m m') = .next (withBuffers t m m') := by
  obtain ⟨phase⟩ := s
  cases phase <;> cases hx <;> rfl

theorem runWord_withBuffers {w : Half} (hx : runWord w s = .next t) :
    ∃ n n', runWord w (withBuffers s m m') = .next (withBuffers t n n') := by
  rcases hd : decode w with e | i
  · rw [runWord_of_error hd] at hx ⊢
    exact ⟨m, m', execIllegalWord_withBuffers m m' hx⟩
  · rw [runWord_of_ok hd] at hx ⊢
    exact exec_withBuffers m m' hx

/-- Whatever the host presents: a wait keeps the other buffers, the reset pulse empties them, and a word
runs over them. -/
theorem step_withBuffers (hx : step s = .next t) :
    ∃ n n', step (withBuffers s m m') = .next (withBuffers t n n') := by
  rcases hi : s.inputs with _ | ⟨w | _, rest⟩
  · rw [step_waits hi] at hx
    cases hx
    exact ⟨m, m', step_waits (s := withBuffers s m m') hi⟩
  · rw [step_command hi] at hx
    rw [step_command (s := withBuffers s m m') hi]
    exact runWord_withBuffers m m' hx
  · rw [step_hardwareReset hi] at hx
    cases hx
    exact ⟨[], [], step_hardwareReset (s := withBuffers s m m') hi⟩

end Sys2Proof.Safety

namespace Sys2Proof.Proofs

open Sys2Proof.Machine Sys2Proof.Safety

/-- Settles O39: the phase and the registers decide what a step does, and with which buffers it ends. -/
theorem buffersChangeNoOutcome : Obligations.BuffersChangeNoOutcome :=
  fun _ _ m m' => step_withBuffers m m'

end Sys2Proof.Proofs
end
